-- ==== Sys2Proof/Word.lean ====
section
/-! DEFINITION. The words BN100 is built from: the 32-bit bus word, the 7-bit limb field and the register number
(spec/00_scope.md R6; spec/10_state.md R30; spec/30_encoding.md R101). -/

namespace Sys2Proof

/-- The 32-bit word of the host bus and of the command format (00_scope.md R5 `BUSW`, 30_encoding.md R100). -/
abbrev Word := BitVec 32

/-- The 7-bit storage field of one base-100 limb (10_state.md R30). -/
abbrev Limb := BitVec 7

/-- The number `k` of a number register `Xk`; every value 0..7 is valid (30_encoding.md R101). -/
abbrev RegId := Fin 8

end Sys2Proof
end

