-- ==== Sys2Proof/Syntax.lean ====
section
/-! DEFINITION. The command set: one constructor per row of spec/opcode_table.json (spec/30_encoding.md R103), with the
operand order of the assembler syntax (R110). -/

namespace Sys2Proof

/-- The twelve opcodes of 30_encoding.md R103, in the table's order. -/
inductive Op where
  | clr | copy | prepend | iszero
  | add | sub | mul | divs | divl
  | modexp | modinv | isprime
deriving DecidableEq, Repr

/-- A command with its operands (30_encoding.md R103, R110). -/
inductive Instr where
  /-- `CLR rd` (40_buffer.md R130) -/
  | clr (rd : RegId)
  /-- `COPY rd, rs1` (40_buffer.md R131) -/
  | copy (rd rs1 : RegId)
  /-- `PREPEND rd, rs1, imm` (40_buffer.md R132); the immediate field holds 0..127 (30_encoding.md R102) -/
  | prepend (rd rs1 : RegId) (imm : BitVec 7)
  /-- `ISZERO rs1` (40_buffer.md R133) -/
  | iszero (rs1 : RegId)
  /-- `ADD rd, rs1, rs2` (41_arith.md R150) -/
  | add (rd rs1 rs2 : RegId)
  /-- `SUB rd, rs1, rs2` (41_arith.md R152) -/
  | sub (rd rs1 rs2 : RegId)
  /-- `MUL rd, rs1, rs2` (41_arith.md R153) -/
  | mul (rd rs1 rs2 : RegId)
  /-- `DIVS rd, re, rs1, rs2` (41_arith.md R154) -/
  | divs (rd re rs1 rs2 : RegId)
  /-- `DIVL rd, re, rs1, rs2` (41_arith.md R155) -/
  | divl (rd re rs1 rs2 : RegId)
  /-- `MODEXP rd, rs1, rs2, rs3`: base, exponent, modulus (42_numtheory.md R180) -/
  | modexp (rd rs1 rs2 rs3 : RegId)
  /-- `MODINV rd, rs1, rs2`: value, modulus (42_numtheory.md R182) -/
  | modinv (rd rs1 rs2 : RegId)
  /-- `ISPRIME rd, rs1` (42_numtheory.md R184) -/
  | isprime (rd rs1 : RegId)
deriving DecidableEq, Repr

/-- The opcode of a command. -/
def Instr.op : Instr → Op
  | .clr _ => .clr
  | .copy _ _ => .copy
  | .prepend _ _ _ => .prepend
  | .iszero _ => .iszero
  | .add _ _ _ => .add
  | .sub _ _ _ => .sub
  | .mul _ _ _ => .mul
  | .divs _ _ _ _ => .divs
  | .divl _ _ _ _ => .divl
  | .modexp _ _ _ _ => .modexp
  | .modinv _ _ _ => .modinv
  | .isprime _ _ => .isprime

end Sys2Proof
end

