-- ==== Sys2Proof/WellFormed.lean ====
section
/-! DEFINITION. When a command is well-formed: exactly when its word is legal (spec/30_encoding.md R105). Register
operands need no check, since every value 0..7 is a register (R101). -/

namespace Sys2Proof

/-- The two conditions of R105 beyond mask and match: a limb immediate is 0..99, and DIVS and DIVL have two distinct
destinations. -/
def Instr.wellFormed : Instr → Bool
  | .clr _ => true
  | .copy _ _ => true
  | .prepend _ _ imm => decide (imm.toNat ≤ 99)
  | .iszero _ => true
  | .add _ _ _ => true
  | .sub _ _ _ => true
  | .mul _ _ _ => true
  | .divs rd re _ _ => decide (rd ≠ re)
  | .divl rd re _ _ => decide (rd ≠ re)
  | .modexp _ _ _ _ => true
  | .modinv _ _ _ => true
  | .isprime _ _ => true

end Sys2Proof
end

