-- ==== Sys2Proof/Decode.lean ====
section
/-! DEFINITION. The command word (spec/30_encoding.md R100 to R107): its fields, the opcode map, the legality test, a
decoder total on all words that rejects by name, and the encoder. -/

namespace Sys2Proof

/-! ### Fields (R100) -/

/-- OP, bits [5:0]. -/
def fieldOP (w : Word) : BitVec 6 := w.extractLsb' 0 6
/-- RD, bits [8:6]: first destination. -/
def fieldRD (w : Word) : RegId := (w.extractLsb' 6 3).toFin
/-- RE, bits [11:9]: second destination (remainder of DIVS and DIVL). -/
def fieldRE (w : Word) : RegId := (w.extractLsb' 9 3).toFin
/-- RS1, bits [14:12]: first source. -/
def fieldRS1 (w : Word) : RegId := (w.extractLsb' 12 3).toFin
/-- RS2, bits [17:15]: second source. -/
def fieldRS2 (w : Word) : RegId := (w.extractLsb' 15 3).toFin
/-- RS3, bits [20:18]: third source (MODEXP modulus). -/
def fieldRS3 (w : Word) : RegId := (w.extractLsb' 18 3).toFin
/-- IMM7, bits [27:21]: unsigned, neither scaled nor sign-extended (R102). -/
def fieldIMM7 (w : Word) : BitVec 7 := w.extractLsb' 21 7

/-! ### The opcode map (R103) -/

/-- Every opcode, in the table's order. -/
def allOps : List Op :=
  [.clr, .copy, .prepend, .iszero, .add, .sub, .mul, .divs, .divl, .modexp, .modinv, .isprime]

/-- The OP value of an opcode. -/
def opNumber : Op → Nat
  | .clr => 0x01
  | .copy => 0x02
  | .prepend => 0x03
  | .iszero => 0x04
  | .add => 0x08
  | .sub => 0x09
  | .mul => 0x0A
  | .divs => 0x0B
  | .divl => 0x0C
  | .modexp => 0x10
  | .modinv => 0x11
  | .isprime => 0x12

/-- The `mask` column: the bits a legal word must have at fixed values (OP, the unused fields and RSV). -/
def opMask : Op → Word
  | .clr => 0xFFFFFE3F#32
  | .copy => 0xFFFF8E3F#32
  | .prepend => 0xF01F8E3F#32
  | .iszero => 0xFFFF8FFF#32
  | .add => 0xFFFC0E3F#32
  | .sub => 0xFFFC0E3F#32
  | .mul => 0xFFFC0E3F#32
  | .divs => 0xFFFC003F#32
  | .divl => 0xFFFC003F#32
  | .modexp => 0xFFE00E3F#32
  | .modinv => 0xFFFC0E3F#32
  | .isprime => 0xFFFF8E3F#32

/-- The `match` column. -/
def opMatch : Op → Word
  | .clr => 0x00000001#32
  | .copy => 0x00000002#32
  | .prepend => 0x00000003#32
  | .iszero => 0x00000004#32
  | .add => 0x00000008#32
  | .sub => 0x00000009#32
  | .mul => 0x0000000A#32
  | .divs => 0x0000000B#32
  | .divl => 0x0000000C#32
  | .modexp => 0x00000010#32
  | .modinv => 0x00000011#32
  | .isprime => 0x00000012#32

/-- `(w AND mask) = match` for one row. -/
def matchesRow (w : Word) (o : Op) : Bool := w &&& opMask o == opMatch o

/-- `legal(w)` as R105 writes it. -/
def legal (w : Word) : Bool :=
  allOps.any (matchesRow w)
    && !((fieldOP w == 0x0B#6 || fieldOP w == 0x0C#6) && fieldRD w == fieldRE w)
    && !(fieldOP w == 0x03#6 && decide (99 < (fieldIMM7 w).toNat))

/-- Why a word is illegal (R104, R105). Every one of these completes with IllegalCommand. -/
inductive DecodeError where
  /-- the OP value is unassigned (R103) -/
  | unassignedOpcode
  /-- a field the command does not use, or RSV, is not 0 (R104) -/
  | unusedFieldNonzero
  /-- DIVS or DIVL with RD = RE (R105) -/
  | sameDestinations
  /-- PREPEND with IMM7 above 99 (R105) -/
  | limbOutOfRange
deriving DecidableEq, Repr

/-- The operands of an opcode read from their fields, before the two extra conditions of R105. -/
def operandsOf (o : Op) (w : Word) : Instr :=
  match o with
  | .clr => .clr (fieldRD w)
  | .copy => .copy (fieldRD w) (fieldRS1 w)
  | .prepend => .prepend (fieldRD w) (fieldRS1 w) (fieldIMM7 w)
  | .iszero => .iszero (fieldRS1 w)
  | .add => .add (fieldRD w) (fieldRS1 w) (fieldRS2 w)
  | .sub => .sub (fieldRD w) (fieldRS1 w) (fieldRS2 w)
  | .mul => .mul (fieldRD w) (fieldRS1 w) (fieldRS2 w)
  | .divs => .divs (fieldRD w) (fieldRE w) (fieldRS1 w) (fieldRS2 w)
  | .divl => .divl (fieldRD w) (fieldRE w) (fieldRS1 w) (fieldRS2 w)
  | .modexp => .modexp (fieldRD w) (fieldRS1 w) (fieldRS2 w) (fieldRS3 w)
  | .modinv => .modinv (fieldRD w) (fieldRS1 w) (fieldRS2 w)
  | .isprime => .isprime (fieldRD w) (fieldRS1 w)

/-- The decoder: total on all 2^32 words (R106), no mode changes it (R107). -/
def decode (w : Word) : Except DecodeError Instr :=
  match allOps.find? (matchesRow w) with
  | none =>
    if allOps.any (fun o => fieldOP w == BitVec.ofNat 6 (opNumber o)) then .error .unusedFieldNonzero
    else .error .unassignedOpcode
  | some o =>
    if (operandsOf o w).wellFormed then .ok (operandsOf o w)
    else if o = .prepend then .error .limbOutOfRange
    else .error .sameDestinations

/-! ### The encoder (R100) -/

/-- `w = OP | (RD << 6) | (RE << 9) | (RS1 << 12) | (RS2 << 15) | (RS3 << 18) | (IMM7 << 21)`. -/
def assembleWord (o : Op) (rd re rs1 rs2 rs3 : RegId) (imm : BitVec 7) : Word :=
  BitVec.ofNat 32 (opNumber o)
    ||| (BitVec.ofNat 32 rd.val <<< 6) ||| (BitVec.ofNat 32 re.val <<< 9)
    ||| (BitVec.ofNat 32 rs1.val <<< 12) ||| (BitVec.ofNat 32 rs2.val <<< 15)
    ||| (BitVec.ofNat 32 rs3.val <<< 18) ||| (imm.setWidth 32 <<< 21)

/-- The word of a command; every field it does not use is 0 (R104). -/
def encode : Instr → Word
  | .clr rd => assembleWord .clr rd 0 0 0 0 0
  | .copy rd rs1 => assembleWord .copy rd 0 rs1 0 0 0
  | .prepend rd rs1 imm => assembleWord .prepend rd 0 rs1 0 0 imm
  | .iszero rs1 => assembleWord .iszero 0 0 rs1 0 0 0
  | .add rd rs1 rs2 => assembleWord .add rd 0 rs1 rs2 0 0
  | .sub rd rs1 rs2 => assembleWord .sub rd 0 rs1 rs2 0 0
  | .mul rd rs1 rs2 => assembleWord .mul rd 0 rs1 rs2 0 0
  | .divs rd re rs1 rs2 => assembleWord .divs rd re rs1 rs2 0 0
  | .divl rd re rs1 rs2 => assembleWord .divl rd re rs1 rs2 0 0
  | .modexp rd rs1 rs2 rs3 => assembleWord .modexp rd 0 rs1 rs2 rs3 0
  | .modinv rd rs1 rs2 => assembleWord .modinv rd 0 rs1 rs2 0 0
  | .isprime rd rs1 => assembleWord .isprime rd 0 rs1 0 0 0

/-! ### Byte lanes (20_memory.md R81) and the table's numbering -/

/-- Byte `k` of a bus word, bits [8k+7:8k]: the byte a platform with byte lanes holds at `CORE_BASE + off + k` (R81). -/
def laneByte (w : Word) (k : Nat) : BitVec 8 := w.extractLsb' (8 * k) 8

/-- The bus word whose four byte lanes are given, lowest address first (little-endian, R81). -/
def wordOfLanes (b0 b1 b2 b3 : BitVec 8) : Word := b3 ++ b2 ++ b1 ++ b0

/-- Decoding from a list of bytes in lane order: the command and the bytes after it, `none` where fewer than four bytes
remain or the word is illegal. -/
def decodeBytes : List (BitVec 8) → Option (Instr × List (BitVec 8))
  | b0 :: b1 :: b2 :: b3 :: rest =>
    match decode (wordOfLanes b0 b1 b2 b3) with
    | .ok i => some (i, rest)
    | .error _ => none
  | _ => none

/-- The command word of an opcode-table row's bits: every bit above `nbits` is 0. -/
def tableWord (nbits w : Nat) : Word := BitVec.ofNat 32 (w % 2 ^ nbits)

/-- The instruction the decoder reads from the `nbits` bits `w`, numbered as spec/opcode_table.json numbers them. -/
def decodeTableWord (nbits w : Nat) : Option Instr :=
  match decode (tableWord nbits w) with
  | .ok i => some i
  | .error _ => none

end Sys2Proof
end

