-- ==== Sys2Proof/Config.lean ====
section
/-! DEFINITION. The implementation parameters of spec/00_scope.md R5 that are fixed. The OPEN ones are arguments:
`CORE_BASE` of `Machine.laneAddress` and `Machine.blockOffset`, `LAT` of `Machine.HostOp.events`, and the interleaving
itself is the plain data of `Machine.State.agenda`. -/

namespace Sys2Proof

/-- `NLIMBS`: limbs per number (R5). -/
abbrev NLIMBS : Nat := 309

/-- `RADIX`: the limb radix (R5). -/
abbrev RADIX : Nat := 100

/-- `CAP` = 100^309 = 10^618; the largest magnitude is `CAP - 1` (R5, 90_conflicts.md C9). Written as a product whose
exponents stay small enough for Lean's elaborator to evaluate; `Laws.cap_eq` says it is `RADIX ^ NLIMBS`. -/
def CAP : Nat := 100 ^ 103 * 100 ^ 103 * 100 ^ 103

/-- `WITNESS`: the fixed Miller-Rabin base (R5). -/
def WITNESS : Int := 2

/-- The block identity constant, ASCII "B100" (R1, 10_state.md R41). -/
def ID : Word := 0x42313030#32

/-- The capability constant: NLIMBS in [15:0], NREG in [23:16], RADIX in [31:24] (10_state.md R42). -/
def CAPS : Word := 0x64080135#32

end Sys2Proof
end

