-- ==== Sys2Proof/Machine/State.lean ====
section
/-! DEFINITION. The architectural state of BN100 (spec/10_state.md R55), the events of one interleaving (spec/20_memory.md
R84) that the model's own field `agenda` holds, the stop reasons and the reset state (spec/70_reset_and_hazards.md R250). -/

namespace Sys2Proof.Machine

/-- Exactly `NLIMBS` limbs, index 0 least significant (10_state.md R30). A list with its length rather than a `Vector`,
so that the kernel decides equality of two states in time linear in the limbs. -/
abbrev LimbSeq := { ls : List Limb // ls.length = NLIMBS }

/-- A number register, one BigDigitBuffer: a sign bit and 309 limbs, limb 0 least significant (10_state.md R30). -/
structure NumReg where
  sign : Bool
  limbs : LimbSeq
deriving DecidableEq, Repr

/-- The zero value a number register is created with: all limbs 0, sign 0 (10_state.md R34). -/
def NumReg.zero : NumReg := { sign := false, limbs := ⟨List.replicate NLIMBS 0#7, List.length_replicate⟩ }

/-- One host bus transaction at a byte offset within the block (20_memory.md R72). `size` is in bytes; only 4 is
well-formed (R73). -/
inductive Txn where
  | read (off size : Nat)
  | write (off size : Nat) (data : Word)
deriving DecidableEq, Repr

/-- One step of an interleaving: a host transaction, a core completion or a reset (20_memory.md R84). -/
inductive Event where
  | host (t : Txn)
  | completion
  | reset
deriving DecidableEq, Repr

/-- The bus response code of a transaction (20_memory.md R72). -/
inductive BusResp where
  | ok
  | err
deriving DecidableEq, Repr

/-- What a transaction returns to the host: a read returns data and a response code, a write a response code (R72). -/
inductive Response where
  | read (data : Word) (resp : BusResp)
  | write (resp : BusResp)
deriving DecidableEq, Repr

/-- The completion and access codes by name (60_exceptions.md R210). -/
inductive Code where
  | ok
  | malformedInput
  | capacityOverflow
  | divisionByZero
  | noModularInverse
  | indexOutOfRange
  | illegalCommand
  | busyAccess
  | operandDomain
deriving DecidableEq, Repr

/-- The state of R55, and two fields of the model's own that stand for the outside of the block. -/
structure State where
  /-- the number registers X0..X7 (R30) -/
  x : Vector NumReg 8
  /-- CTRL.IE (R44) -/
  ie : Bool
  /-- in-flight flag, STATUS.BUSY (R45, R50) -/
  busy : Bool
  /-- STATUS.DONE (R45) -/
  done : Bool
  /-- STATUS.SERR (R45) -/
  serr : Bool
  /-- STATUS.ACCERR (R45) -/
  accerr : Bool
  /-- STATUS.Z (R45, R54) -/
  z : Bool
  /-- STATUS.N (R45, R54) -/
  n : Bool
  /-- STATUS.CODE (R45) -/
  code : BitVec 8
  /-- the latched, last accepted command word that CMD reads back (R46, R50) -/
  cmdw : Word
  /-- ACCINFO.ACCCODE (R47) -/
  acccode : BitVec 8
  /-- ACCADDR.OFFSET (R48) -/
  accoff : BitVec 15
  /-- the model's own: the steps still to come of the interleaving this run is (20_memory.md R84), first to happen first -/
  agenda : List Event
  /-- the model's own: what the last host transaction returned to the host (20_memory.md R72) -/
  response : Option Response
deriving DecidableEq, Repr

/-- Why the machine stops with a fault. -/
inductive Fault where
  /-- A host transaction at offset 0x5000 or above, which is "not part of the block; the platform decides" (20_memory.md
  R71). Raised by `hostTransaction`. Safe: the block's own state is never guessed. -/
  | outsideBlock
deriving DecidableEq, Repr

/-- Why the machine has no meaning for an instruction. -/
inductive Refusal where
  /-- An instruction of the opcode table without a meaning. Raised by no arm of this model. Safe. -/
  | notModelled (mnemonic : String)
deriving DecidableEq, Repr

/-- The machine right after reset: every element of R55 at its reset value (70_reset_and_hazards.md R250); nothing is
pending from outside and no transaction has answered yet. -/
def State.reset : State where
  x := Vector.replicate 8 NumReg.zero
  ie := false
  busy := false
  done := false
  serr := false
  accerr := false
  z := false
  n := false
  code := 0#8
  cmdw := 0#32
  acccode := 0#8
  accoff := 0#15
  agenda := []
  response := none

end Sys2Proof.Machine
end

