-- ==== Sys2Proof/Machine/Operands.lean ====
section
/-! DEFINITION. Number-register operands: the value of a register, writing a value through `pack`, and reading or writing
one limb or the sign (spec/10_state.md R30 to R35), with the integer primitives of spec/00_scope.md R7 and R8. -/

namespace Sys2Proof.Machine

/-! ### Integer primitives (00_scope.md R7, R8) -/

/-- Truncated quotient: rounds toward zero, sign the XOR of the signs (R7). -/
def tquo (a b : Int) : Int := a.sign * b.sign * ((a.natAbs / b.natAbs : Nat) : Int)

/-- Truncated remainder: 0 or the sign of the dividend (R7). -/
def trem (a b : Int) : Int := a - b * tquo a b

/-- Parity of the lowest limb (R8 `even`). -/
def evenVal (v : Int) : Bool := v.natAbs % 100 % 2 == 0

/-- `chk(v)`: CapacityOverflow when the magnitude does not fit (R8). -/
def chk (v : Int) : Except Code Int :=
  if v.natAbs < CAP then .ok v else .error .capacityOverflow

/-- The number of bits of a magnitude, 0 for 0: the iteration count of the square-and-multiply loop
(42_numtheory.md R181, 70_reset_and_hazards.md R258). -/
def bitLength (n : Nat) : Nat := if n = 0 then 0 else n.log2 + 1

/-! ### Registers as numbers (10_state.md R32, R34) -/

/-- A limb sequence as a base-100 numeral, least significant limb first. -/
def limbsValue (ls : List Limb) : Nat := ls.foldr (fun l acc => l.toNat + 100 * acc) 0

/-- `mag(X)` (R32). -/
def NumReg.mag (r : NumReg) : Nat := limbsValue r.limbs.val

/-- `val(X)`; a negative zero reads as 0 (R32, R33). -/
def NumReg.val (r : NumReg) : Int := if r.sign then -(r.mag : Int) else (r.mag : Int)

/-- The `k` lowest base-100 digits of a magnitude, least significant first. -/
def packLimbs : Nat → Nat → List Limb
  | 0, _ => []
  | k + 1, m => BitVec.ofNat 7 (m % 100) :: packLimbs k (m / 100)

theorem packLimbs_length (k m : Nat) : (packLimbs k m).length = k := by
  induction k generalizing m with
  | zero => rfl
  | succ k ih => simp [packLimbs, ih]

/-- `pack(v)`: the limbs of `|v|`, and sign 1 exactly when `v` is negative, so zero is normalized (R34). -/
def pack (v : Int) : NumReg where
  sign := decide (v < 0)
  limbs := ⟨packLimbs NLIMBS v.natAbs, packLimbs_length NLIMBS v.natAbs⟩

/-- Limb `i` of a register; 0 beyond the stored length, where no access reaches (20_memory.md R75). -/
def NumReg.limb (r : NumReg) (i : Nat) : Limb := r.limbs.val.getD i 0#7

/-- Write one limb; sign and other limbs unchanged (20_memory.md R77). -/
def NumReg.setLimb (r : NumReg) (i : Nat) (d : Limb) : NumReg :=
  { r with limbs := ⟨r.limbs.val.set i d, by rw [List.length_set]; exact r.limbs.property⟩ }

/-- Write the stored sign bit; limbs unchanged, so a negative zero can arise (20_memory.md R77). -/
def NumReg.setSign (r : NumReg) (b : Bool) : NumReg := { r with sign := b }

/-- Every limb is 0, the sign ignored (40_buffer.md R133). -/
def NumReg.allLimbsZero (r : NumReg) : Bool := r.limbs.val.all (fun l => l == 0#7)

/-! ### The register file (10_state.md R30) -/

/-- The stored contents of `Xr`. -/
def State.reg (s : State) (r : RegId) : NumReg := s.x[r]

/-- Replace the stored contents of `Xr`. -/
def State.setReg (s : State) (r : RegId) (v : NumReg) : State := { s with x := s.x.set r v }

/-- `x[r]`, the integer value of `Xr` (00_scope.md R8). -/
def State.value (s : State) (r : RegId) : Int := (s.reg r).val

/-- `x[r] <- v`, that is `Xr <- pack(v)` (00_scope.md R8). -/
def State.writeValue (s : State) (r : RegId) (v : Int) : State := s.setReg r (pack v)

end Sys2Proof.Machine
end

