-- ==== Sys2Proof/Machine/Flags.lean ====
section
/-! DEFINITION. The condition flags Z and N (spec/10_state.md R54), the numbers of the codes (spec/60_exceptions.md R210),
and the words the control registers read as (spec/10_state.md R41 to R49). -/

namespace Sys2Proof.Machine

/-- The two condition flags a command produces (R54). -/
structure Flags where
  z : Bool
  n : Bool
deriving DecidableEq, Repr

/-- `Z <- (v = 0) ; N <- (v < 0)` (R54). -/
def Flags.ofInt (v : Int) : Flags := { z := decide (v = 0), n := decide (v < 0) }

/-- Write both flags; only a completion does this (R54). -/
def State.setFlags (s : State) (f : Flags) : State := { s with z := f.z, n := f.n }

/-- The number of a code (60_exceptions.md R210). -/
def Code.byte : Code → BitVec 8
  | .ok => 0#8
  | .malformedInput => 1#8
  | .capacityOverflow => 2#8
  | .divisionByZero => 3#8
  | .noModularInverse => 4#8
  | .indexOutOfRange => 5#8
  | .illegalCommand => 6#8
  | .busyAccess => 7#8
  | .operandDomain => 8#8

/-- The codes with which a completion writes its destinations and flags: OK and NoModularInverse (10_state.md R52). -/
def Code.writesResults : Code → Bool
  | .ok => true
  | .malformedInput => false
  | .capacityOverflow => false
  | .divisionByZero => false
  | .noModularInverse => true
  | .indexOutOfRange => false
  | .illegalCommand => false
  | .busyAccess => false
  | .operandDomain => false

/-- The STATUS word (R45): BUSY, DONE, SERR, ACCERR in bits 0 to 3, [7:4] zero, CODE in [15:8], Z in 16, N in 17, the rest
zero. -/
def statusWord (s : State) : Word :=
  (0#14 ++ BitVec.ofBool s.n ++ BitVec.ofBool s.z ++ s.code ++ 0#4
    ++ BitVec.ofBool s.accerr ++ BitVec.ofBool s.serr ++ BitVec.ofBool s.done ++ BitVec.ofBool s.busy).setWidth 32

/-- The CTRL word: IE in bit 0, the rest reads 0 (R44). -/
def ctrlWord (s : State) : Word := (BitVec.ofBool s.ie).setWidth 32

/-- The ACCINFO word: ACCCODE in [7:0] (R47). -/
def accinfoWord (s : State) : Word := s.acccode.setWidth 32

/-- The ACCADDR word: OFFSET in [14:0] (R48). -/
def accaddrWord (s : State) : Word := s.accoff.setWidth 32

/-- The interrupt output `irq = CTRL.IE AND STATUS.DONE`, which has no state of its own (R49, 60_exceptions.md R230). -/
def irq (s : State) : Bool := s.ie && s.done

end Sys2Proof.Machine
end

