-- ==== Sys2Proof/Machine/Ops.lean ====
section
/-! DEFINITION. The named state transitions (spec/10_state.md R53): completion, issue, the access-error record, the
acknowledge of errors, and reset. Taking an error is ONE operation each way: `State.raise` for a command and
`State.recordAccessError` for an access (spec/60_exceptions.md R221); the return from an error is `State.acknowledge`
(R222). -/

namespace Sys2Proof.Machine

/-- What `Exec(w, X)` computes for a command: its code, its destinations with their values, and its flags
(10_state.md R52). -/
structure Result where
  code : Code
  dests : List (RegId × Int)
  flags : Option Flags
deriving DecidableEq, Repr

/-- A command that ends with `raise <Code>()`: no destination and no flag (00_scope.md R8). -/
def Result.raised (c : Code) : Result := { code := c, dests := [], flags := none }

/-- A command that succeeds and writes one register; flags from the value written (R54). -/
def Result.single (rd : RegId) (v : Int) : Result :=
  { code := .ok, dests := [(rd, v)], flags := some (Flags.ofInt v) }

/-- A command that succeeds and writes quotient and remainder; flags from the quotient (R54). -/
def Result.quotRem (rd re : RegId) (q r : Int) : Result :=
  { code := .ok, dests := [(rd, q), (re, r)], flags := some (Flags.ofInt q) }

/-- A checked computation of one value: its result, or its error. -/
def Result.ofChecked (rd : RegId) : Except Code Int → Result
  | .ok v => Result.single rd v
  | .error c => Result.raised c

/-- All destinations written together, each through `pack` (R52). -/
def State.writeDests (s : State) (ds : List (RegId × Int)) : State :=
  ds.foldl (fun t d => t.writeValue d.1 d.2) s

/-- The flags a result carries, if any (R52). -/
def State.applyFlags (s : State) : Option Flags → State
  | some f => s.setFlags f
  | none => s

/-- The registers and flags a result changes: only with code OK or NoModularInverse (R52, 60_exceptions.md R211). -/
def State.applyResult (s : State) (r : Result) : State :=
  if r.code.writesResults then (s.writeDests r.dests).applyFlags r.flags else s

/-- CODE, SERR, DONE and BUSY as completion leaves them (R52). -/
def State.retire (s : State) (c : Code) : State :=
  { s with code := c.byte, serr := s.serr || decide (c ≠ .ok), done := true, busy := false }

/-- The atomic completion step (10_state.md R52). -/
def State.complete (s : State) (r : Result) : State := (s.applyResult r).retire r.code

/-- Taking a command error: the completion that writes only CODE, SERR, DONE and BUSY (60_exceptions.md R211, R221). -/
def State.raise (s : State) (c : Code) : State := s.complete (Result.raised c)

/-- Taking an access error (60_exceptions.md R220): the sticky bit, the code and the low 15 bits of the offset. -/
def State.recordAccessError (s : State) (c : Code) (off : Nat) : State :=
  { s with accerr := true, acccode := c.byte, accoff := BitVec.ofNat 15 off }

/-- The return from an error: a write to STATUS clears DONE, SERR and ACCERR where bits 1, 2 and 3 of the data are 1
(10_state.md R45, 20_memory.md R79, 60_exceptions.md R222). -/
def State.acknowledge (s : State) (d : Word) : State :=
  { s with
    done := s.done && !d.getLsbD 1
    serr := s.serr && !d.getLsbD 2
    accerr := s.accerr && !d.getLsbD 3 }

/-- The issue of a command word (20_memory.md R80, 10_state.md R53): latch it, set BUSY, clear DONE. -/
def State.issue (s : State) (w : Word) : State := { s with cmdw := w, busy := true, done := false }

/-- The reset event: every element of R55 at its reset value; the host's own remaining steps stay, since they lie outside
the block (70_reset_and_hazards.md R250, R251). -/
def State.resetEvent (s : State) : State := { State.reset with agenda := s.agenda }

/-- A command word placed as the in-flight command, completing in the very next step. -/
def State.placeCommand (s : State) (w : Word) : State :=
  { s.issue w with agenda := .completion :: s.agenda }

end Sys2Proof.Machine
end

