-- ==== Sys2Proof/Machine/Bus.lean ====
section
/-! DEFINITION. The host's bus transactions on the register interface (spec/20_memory.md R70 to R83): the address map, the
control space, the number-register window and the issue of a command. -/

namespace Sys2Proof.Machine

/-! ### Address map (20_memory.md R71) -/

/-- The block covers offsets 0x0000..0x4FFF (R70). -/
def blockSize : Nat := 0x5000
def offID : Nat := 0x000
def offCAPS : Nat := 0x004
def offCTRL : Nat := 0x008
def offSTATUS : Nat := 0x00C
def offCMD : Nat := 0x010
def offACCINFO : Nat := 0x014
def offACCADDR : Nat := 0x018
/-- The first window offset; the control space lies below it. -/
def windowStart : Nat := 0x1000
/-- `WB(r)`: the first offset of the window of `Xr` (R75). -/
def windowBase (r : RegId) : Nat := 0x1000 + 0x800 * r.val

/-- The register a window offset names (R75). -/
def windowReg (off : Nat) : RegId := Fin.ofNat 8 ((off - 0x1000) / 0x800)

/-- The word index a window offset names (R75). -/
def windowIndex (off : Nat) : Nat := (off - 0x1000) % 0x800 / 4

/-- The byte offset within the block of a platform byte address, where the block sits at the OPEN `CORE_BASE`
(R70, R71). -/
def blockOffset (coreBase addr : Nat) : Option Nat :=
  if coreBase ≤ addr ∧ addr < coreBase + blockSize then some (addr - coreBase) else none

/-- The platform byte address of lane `k` of the word at `off` (R81). -/
def laneAddress (coreBase off k : Nat) : Nat := coreBase + off + k

/-- A transaction is well-formed when it is 4 bytes at a multiple of 4 (R72). -/
def wellFormedAccess (off size : Nat) : Bool := size == 4 && off % 4 == 0

/-! ### Control space -/

/-- A control-space read (R78); reserved offsets read 0. -/
def readControl (off : Nat) (s : State) : Word :=
  if off = offID then ID
  else if off = offCAPS then CAPS
  else if off = offCTRL then ctrlWord s
  else if off = offSTATUS then statusWord s
  else if off = offCMD then s.cmdw
  else if off = offACCINFO then accinfoWord s
  else if off = offACCADDR then accaddrWord s
  else 0#32

/-- A write to CMD (R80): the issue, or BusyAccess with the word discarded. -/
def writeCmd (w : Word) (s : State) : State :=
  if s.busy then s.recordAccessError .busyAccess offCMD else s.issue w

/-- A control-space write (R79, R80); read-only registers and reserved offsets ignore it. -/
def writeControl (off : Nat) (d : Word) (s : State) : State :=
  if off = offCTRL then { s with ie := d.getLsbD 0 }
  else if off = offSTATUS then s.acknowledge d
  else if off = offCMD then writeCmd d s
  else s

/-! ### The window -/

/-- A window read (R76): the state after it and the data. -/
def readWindow (off : Nat) (s : State) : State × Word :=
  if s.busy then (s.recordAccessError .busyAccess off, 0#32)
  else if 309 < windowIndex off then (s.recordAccessError .indexOutOfRange off, 0#32)
  else if windowIndex off = 309 then (s, (BitVec.ofBool (s.reg (windowReg off)).sign).setWidth 32)
  else (s, ((s.reg (windowReg off)).limb (windowIndex off)).setWidth 32)

/-- A window write (R77). -/
def writeWindow (off : Nat) (d : Word) (s : State) : State :=
  if s.busy then s.recordAccessError .busyAccess off
  else if 309 < windowIndex off then s.recordAccessError .indexOutOfRange off
  else if windowIndex off = 309 then
    if d.toNat ≤ 1 then s.setReg (windowReg off) ((s.reg (windowReg off)).setSign (d.getLsbD 0))
    else s.recordAccessError .malformedInput off
  else if d.toNat ≤ 99 then
    s.setReg (windowReg off) ((s.reg (windowReg off)).setLimb (windowIndex off) (d.setWidth 7))
  else s.recordAccessError .malformedInput off

/-! ### Transactions -/

/-- A well-formed read within the block. -/
def readWord (off : Nat) (s : State) : State × Word :=
  if off < windowStart then (s, readControl off s) else readWindow off s

/-- A well-formed write within the block. -/
def writeWord (off : Nat) (d : Word) (s : State) : State :=
  if off < windowStart then writeControl off d s else writeWindow off d s

/-- What the host receives from a transaction. -/
def State.respond (s : State) (r : Response) : State := { s with response := some r }

/-- `MemRead(off, size)` (R72): a transaction that is not well-formed answers ERR with data 0 and changes nothing else
(R73). -/
def hostRead (off size : Nat) (s : State) : State :=
  if wellFormedAccess off size then (readWord off s).1.respond (.read (readWord off s).2 .ok)
  else s.respond (.read 0#32 .err)

/-- `MemWrite(off, size, d)` (R72, R73). -/
def hostWrite (off size : Nat) (d : Word) (s : State) : State :=
  if wellFormedAccess off size then (writeWord off d s).respond (.write .ok)
  else s.respond (.write .err)

/-- The offset of a transaction. -/
def Txn.off : Txn → Nat
  | .read off _ => off
  | .write off _ _ => off

/-- The effect of a transaction that reaches the block. -/
def Txn.perform (t : Txn) (s : State) : State :=
  match t with
  | .read off size => hostRead off size s
  | .write off size d => hostWrite off size d s

/-- One host transaction (R72). Offsets from 0x5000 up are "not part of the block; the platform decides" (R71): a
fault. -/
def hostTransaction (t : Txn) (s : State) : Host.Outcome State Fault Refusal :=
  if t.off < blockSize then .next (t.perform s) else .fault .outsideBlock

end Sys2Proof.Machine
end

