-- ==== Sys2Proof/Machine/Arith.lean ====
section
/-! DEFINITION. The arithmetic commands ADD, SUB, MUL, DIVS and DIVL (spec/41_arith.md): exact integer results, checked
against the capacity (R157). -/

namespace Sys2Proof.Machine

/-- ADD (R150): the exact signed sum. -/
def execAdd (rd rs1 rs2 : RegId) (s : State) : Host.Outcome State Fault Refusal :=
  .next (s.complete (Result.ofChecked rd (chk (s.value rs1 + s.value rs2))))

/-- SUB (R152): the exact signed difference. -/
def execSub (rd rs1 rs2 : RegId) (s : State) : Host.Outcome State Fault Refusal :=
  .next (s.complete (Result.ofChecked rd (chk (s.value rs1 - s.value rs2))))

/-- The product of MUL (R153), with its zero shortcut. -/
def mulValue (a b : Int) : Except Code Int :=
  if a = 0 ∨ b = 0 then .ok 0 else chk (a * b)

/-- MUL (R153). -/
def execMul (rd rs1 rs2 : RegId) (s : State) : Host.Outcome State Fault Refusal :=
  .next (s.complete (Result.ofChecked rd (mulValue (s.value rs1) (s.value rs2))))

/-- The result of DIVS (R154): DivisionByZero first, then a quotient above one limb overflows. -/
def divsResult (rd re : RegId) (a b : Int) : Result :=
  if b = 0 then Result.raised .divisionByZero
  else if 99 < (tquo a b).natAbs then Result.raised .capacityOverflow
  else Result.quotRem rd re (tquo a b) (trem a b)

/-- DIVS (R154); `rd = re` is an illegal command (30_encoding.md R105, 60_exceptions.md R213). -/
def execDivs (rd re rs1 rs2 : RegId) (s : State) : Host.Outcome State Fault Refusal :=
  if rd = re then .next (s.raise .illegalCommand)
  else .next (s.complete (divsResult rd re (s.value rs1) (s.value rs2)))

/-- The result of DIVL (R155): DivisionByZero, or quotient and remainder, which always fit. -/
def divlResult (rd re : RegId) (a b : Int) : Result :=
  if b = 0 then Result.raised .divisionByZero
  else Result.quotRem rd re (tquo a b) (trem a b)

/-- DIVL (R155); `rd = re` is an illegal command (30_encoding.md R105, 60_exceptions.md R213). -/
def execDivl (rd re rs1 rs2 : RegId) (s : State) : Host.Outcome State Fault Refusal :=
  if rd = re then .next (s.raise .illegalCommand)
  else .next (s.complete (divlResult rd re (s.value rs1) (s.value rs2)))

end Sys2Proof.Machine
end

