-- ==== Sys2Proof/Machine/Buffer.lean ====
section
/-! DEFINITION. The limb-buffer commands CLR, COPY, PREPEND and ISZERO (spec/40_buffer.md). -/

namespace Sys2Proof.Machine

/-- CLR (R130): `x[rd] <- 0`. -/
def execClr (rd : RegId) (s : State) : Host.Outcome State Fault Refusal :=
  .next (s.complete (Result.single rd 0))

/-- COPY (R131): `x[rd] <- x[rs1]`; a negative zero becomes +0. -/
def execCopy (rd rs1 : RegId) (s : State) : Host.Outcome State Fault Refusal :=
  .next (s.complete (Result.single rd (s.value rs1)))

/-- The value PREPEND writes (R132): `|v| * 100 + imm` with the sign of the value `v`, or CapacityOverflow. -/
def prependValue (v : Int) (imm : Nat) : Except Code Int :=
  if CAP ≤ v.natAbs * 100 + imm then .error .capacityOverflow
  else .ok (if v < 0 then -((v.natAbs * 100 + imm : Nat) : Int) else ((v.natAbs * 100 + imm : Nat) : Int))

/-- PREPEND (R132); an immediate above 99 is an illegal command (30_encoding.md R105), decided before any operand is read
(60_exceptions.md R213). -/
def execPrepend (rd rs1 : RegId) (imm : BitVec 7) (s : State) : Host.Outcome State Fault Refusal :=
  if imm.toNat ≤ 99 then .next (s.complete (Result.ofChecked rd (prependValue (s.value rs1) imm.toNat)))
  else .next (s.raise .illegalCommand)

/-- ISZERO (R133): flags only; Z says every limb is 0, the sign ignored, and N that the value is negative. -/
def execIszero (rs1 : RegId) (s : State) : Host.Outcome State Fault Refusal :=
  .next (s.complete
    { code := .ok, dests := [],
      flags := some { z := (s.reg rs1).allLimbsZero, n := decide (s.value rs1 < 0) } })

end Sys2Proof.Machine
end

