-- ==== Sys2Proof/Machine/NumTheory.lean ====
section
/-! DEFINITION. The number-theoretic commands MODEXP, MODINV and ISPRIME (spec/42_numtheory.md): each runs its algorithm as
the spec's fixed sequence of checked steps. A loop's fuel is the iteration bound of spec/70_reset_and_hazards.md R258. -/

namespace Sys2Proof.Machine

/-! ### MODEXP -/

/-- One accumulator update (R181): multiply and reduce when the exponent is odd. -/
def modExpAcc (base acc e m : Int) : Except Code Int :=
  if evenVal e then .ok acc
  else match chk (acc * base) with
    | .ok p => .ok (trem p m)
    | .error c => .error c

/-- The loop of ModExpPipe (R181): multiply, then square (also after the top bit), then halve. -/
def modExpLoop : Nat → Int → Int → Int → Int → Except Code Int
  | 0, _, acc, _, _ => .ok acc
  | fuel + 1, base, acc, e, m =>
    if e = 0 then .ok acc
    else match modExpAcc base acc e m with
      | .error c => .error c
      | .ok acc' => match chk (base * base) with
        | .error c => .error c
        | .ok sq => modExpLoop fuel (trem sq m) acc' (tquo e 2) m

/-- ModExpPipe (R181): reduce the base, start the accumulator at 1, one iteration per bit of `|e|`. -/
def modExpPipe (b e m : Int) : Except Code Int :=
  modExpLoop (bitLength e.natAbs) (trem b m) 1 e m

/-- The value of MODEXP (R180): modulus check, exponent shortcut, base shortcut, pipeline. -/
def modExpValue (b e m : Int) : Except Code Int :=
  if m = 0 then .error .divisionByZero
  else if e = 0 then .ok 1
  else if b = 0 then .ok 0
  else modExpPipe b e m

/-- MODEXP (R180). -/
def execModexp (rd rs1 rs2 rs3 : RegId) (s : State) : Host.Outcome State Fault Refusal :=
  .next (s.complete (Result.ofChecked rd (modExpValue (s.value rs1) (s.value rs2) (s.value rs3))))

/-! ### MODINV -/

/-- `chk(A - chk(Q * B))` (R183). -/
def checkedMulSub (a q b : Int) : Except Code Int :=
  match chk (q * b) with
  | .ok p => chk (a - p)
  | .error c => .error c

/-- The loop of EuclidPipe (R183): `some B2` when it ends with `B3 = 1`, `none` when it ends with `B3 = 0`. -/
def euclidLoop : Nat → Int → Int → Int → Int → Except Code (Option Int)
  | 0, _, _, b2, b3 => .ok (if b3 = 1 then some b2 else none)
  | fuel + 1, a2, a3, b2, b3 =>
    if b3 = 0 then .ok none
    else if b3 = 1 then .ok (some b2)
    else match checkedMulSub a2 (tquo a3 b3) b2 with
      | .error c => .error c
      | .ok t2 => match checkedMulSub a3 (tquo a3 b3) b3 with
        | .error c => .error c
        | .ok t3 => euclidLoop fuel b2 b3 t2 t3

/-- EuclidPipe (R183); at most `|v| + 1` iterations (70_reset_and_hazards.md R258). -/
def euclidPipe (v m : Int) : Except Code (Option Int) := euclidLoop (v.natAbs + 1) 0 m 1 v

/-- The sentinel result of MODINV (R182): `rd <- -1`, Z = 0, N = 1, code NoModularInverse. -/
def Result.noInverse (rd : RegId) : Result :=
  { code := .noModularInverse, dests := [(rd, -1)], flags := some { z := false, n := true } }

/-- The result of MODINV (R182); the normalization leaves `r = B2 mod m` with `0 <= r < m`. -/
def modInvResult (rd : RegId) (v m : Int) : Result :=
  if m = 0 then Result.raised .divisionByZero
  else if m < 0 then Result.raised .operandDomain
  else match euclidPipe v m with
    | .error c => Result.raised c
    | .ok none => Result.noInverse rd
    | .ok (some b2) => Result.single rd (b2 % m)

/-- MODINV (R182). -/
def execModinv (rd rs1 rs2 : RegId) (s : State) : Host.Outcome State Fault Refusal :=
  .next (s.complete (modInvResult rd (s.value rs1) (s.value rs2)))

/-! ### ISPRIME -/

/-- DecomposeExponent (R184): halve while even, counting: the pair `(d, k)`. -/
def decompose : Nat → Int → Nat → Int × Nat
  | 0, d, k => (d, k)
  | fuel + 1, d, k => if evenVal d then decompose fuel (tquo d 2) (k + 1) else (d, k)

/-- SquareLoop (R184) with a number of squarings left. -/
def squareLoop : Nat → Int → Int → Except Code Int
  | 0, _, _ => .ok 0
  | left + 1, y, n =>
    match chk (y * y) with
    | .error c => .error c
    | .ok sq =>
      if trem sq n = n - 1 then .ok 1
      else if trem sq n = 1 then .ok 0
      else squareLoop left (trem sq n) n

/-- WitnessTest and SquareLoop (R184) once `n - 1 = 2^k * d`. -/
def witnessTest (d : Int) (k : Nat) (n : Int) : Except Code Int :=
  match modExpPipe WITNESS d n with
  | .error c => .error c
  | .ok y => if y = 1 ∨ y = n - 1 then .ok 1 else squareLoop (k - 1) y n

/-- The value of ISPRIME (R184): 1 for prime, 0 for composite. -/
def isPrimeValue (n : Int) : Except Code Int :=
  if n < 2 then .ok 0
  else if n = 2 then .ok 1
  else if evenVal n then .ok 0
  else
    witnessTest (decompose (bitLength n.natAbs) (n - 1) 0).1 (decompose (bitLength n.natAbs) (n - 1) 0).2 n

/-- ISPRIME (R184). -/
def execIsprime (rd rs1 : RegId) (s : State) : Host.Outcome State Fault Refusal :=
  .next (s.complete (Result.ofChecked rd (isPrimeValue (s.value rs1))))

end Sys2Proof.Machine
end

