-- ==== Sys2Proof/Machine/Dispatch.lean ====
section
/-! DEFINITION. The meaning of each command: the completion of `Exec(w, X)` for the word that decodes to it
(spec/10_state.md R52). One arm per constructor. -/

namespace Sys2Proof.Machine

def exec (i : Instr) (s : State) : Host.Outcome State Fault Refusal :=
  match i with
  | .clr rd => Sys2Proof.Machine.execClr rd s
  | .copy rd rs1 => Sys2Proof.Machine.execCopy rd rs1 s
  | .prepend rd rs1 imm => Sys2Proof.Machine.execPrepend rd rs1 imm s
  | .iszero rs1 => Sys2Proof.Machine.execIszero rs1 s
  | .add rd rs1 rs2 => Sys2Proof.Machine.execAdd rd rs1 rs2 s
  | .sub rd rs1 rs2 => Sys2Proof.Machine.execSub rd rs1 rs2 s
  | .mul rd rs1 rs2 => Sys2Proof.Machine.execMul rd rs1 rs2 s
  | .divs rd re rs1 rs2 => Sys2Proof.Machine.execDivs rd re rs1 rs2 s
  | .divl rd re rs1 rs2 => Sys2Proof.Machine.execDivl rd re rs1 rs2 s
  | .modexp rd rs1 rs2 rs3 => Sys2Proof.Machine.execModexp rd rs1 rs2 rs3 s
  | .modinv rd rs1 rs2 => Sys2Proof.Machine.execModinv rd rs1 rs2 s
  | .isprime rd rs1 => Sys2Proof.Machine.execIsprime rd rs1 s

end Sys2Proof.Machine
end

