-- ==== Sys2Proof/Machine/Execute.lean ====
section
/-! DEFINITION. The three kinds of step of an interleaving (spec/20_memory.md R84) and how the next one is chosen. -/

namespace Sys2Proof.Machine

/-- The completion of the in-flight command (10_state.md R52): decoding happens here, and an illegal word completes with
IllegalCommand (20_memory.md R80, 30_encoding.md R105). -/
def completion (s : State) : Host.Outcome State Fault Refusal :=
  match decode s.cmdw with
  | .ok i => exec i s
  | .error _ => .next (s.raise .illegalCommand)

/-- The completion step is enabled exactly when `busy = 1` (R52). When it is not enabled, nothing happens: an idle block
waits (60_exceptions.md R245). -/
def completionTurn (s : State) : Host.Outcome State Fault Refusal :=
  if s.busy then completion s else .next s

/-- The effect of one event. -/
def takeEvent (e : Event) (s : State) : Host.Outcome State Fault Refusal :=
  match e with
  | .host t => hostTransaction t s
  | .completion => completionTurn s
  | .reset => .next s.resetEvent

/-- One step: the next event of the agenda; when the outside has nothing more to do, the core's completion, which cannot be
postponed forever (70_reset_and_hazards.md R258). -/
def advance (s : State) : Host.Outcome State Fault Refusal :=
  match s.agenda with
  | [] => completionTurn s
  | e :: rest => takeEvent e { s with agenda := rest }

end Sys2Proof.Machine
end

