-- ==== Sys2Proof/Machine/Step.lean ====
section
/-! DEFINITION. The step of the machine, and placing a command word so that the very next step runs it. -/

namespace Sys2Proof.Machine

/-- One step of the interleaving (spec/20_memory.md R84). -/
def step (s : State) : Host.Outcome State Fault Refusal := advance s

/-- The command word of the low `nbits` bits of `w` placed as the in-flight command, as an accepted issue leaves it
(spec/20_memory.md R80), with its completion as the next step of the interleaving. -/
def State.withFetchWord (s : State) (nbits w : Nat) : State := s.placeCommand (tableWord nbits w)

end Sys2Proof.Machine
end

