-- ==== Sys2Proof/Machine/Datapath.lean ====
section
/-! DEFINITION. The reference datapaths the spec gives beside the commands: adder and subtractor (spec/41_arith.md R151),
schoolbook multiplier (R153), long-division unit (R156), division step (R158), the normalization of MODINV
(spec/42_numtheory.md R182) and the IsPrime state machine (R185). Any circuit with the commands' results conforms, so no
meaning calls these; the obligations state that they give the same results. A datapath works on digit lists, least
significant first. -/

namespace Sys2Proof.Machine

/-- The base-100 digits of a register, least significant first. -/
def NumReg.digits (r : NumReg) : List Nat := r.limbs.val.map BitVec.toNat

/-- The number a digit list stands for. -/
def digitsValue (ds : List Nat) : Nat := ds.foldr (fun d acc => d + 100 * acc) 0

/-- The integer a sign and a digit list stand for. -/
def signedValue (p : Bool × List Nat) : Int := if p.1 then -(digitsValue p.2 : Int) else (digitsValue p.2 : Int)

/-! ### Adder and subtractor (R151) -/

/-- The limb-wise adder: sum digits and the carry out of the last limb. -/
def addLimbs : List Nat → List Nat → Nat → List Nat × Nat
  | a :: as, b :: bs, c =>
    ((a + b + c) % 100 :: (addLimbs as bs ((a + b + c) / 100)).1, (addLimbs as bs ((a + b + c) / 100)).2)
  | _, _, c => ([], c)

/-- The digit and the borrow of one subtractor position: `t = A - B - br`, `t mod 100`, and 1 when `t < 0`. -/
def subDigit (a b br : Nat) : Nat := (((a : Int) - b - br) % 100).toNat
def subBorrow (a b br : Nat) : Nat := if (a : Int) - b - br < 0 then 1 else 0

/-- The limb-wise subtractor: difference digits and the borrow out of the last limb. -/
def subLimbs : List Nat → List Nat → Nat → List Nat × Nat
  | a :: as, b :: bs, br =>
    (subDigit a b br :: (subLimbs as bs (subBorrow a b br)).1, (subLimbs as bs (subBorrow a b br)).2)
  | _, _, br => ([], br)

/-- Magnitude addition with a given sign: overflow exactly when a carry leaves limb 308. -/
def addMagnitudes (x y : NumReg) (neg : Bool) : Except Code (Bool × List Nat) :=
  if (addLimbs x.digits y.digits 0).2 = 0 then .ok (neg, (addLimbs x.digits y.digits 0).1)
  else .error .capacityOverflow

/-- Magnitude subtraction `|x| - |y|`: when a borrow leaves limb 308, swap and negate. -/
def subMagnitudes (x y : NumReg) : Bool × List Nat :=
  if (subLimbs x.digits y.digits 0).2 = 0 then (false, (subLimbs x.digits y.digits 0).1)
  else (true, (subLimbs y.digits x.digits 0).1)

/-- The dispatch of Add by zero operands and signs. -/
def addDispatch (x y : NumReg) : Except Code (Bool × List Nat) :=
  if y.allLimbsZero then .ok (x.sign && !x.allLimbsZero, x.digits)
  else if x.allLimbsZero then .ok (y.sign, y.digits)
  else match x.sign, y.sign with
    | true, true => addMagnitudes x y true
    | true, false => .ok (subMagnitudes y x)
    | false, true => .ok (subMagnitudes x y)
    | false, false => addMagnitudes x y false

/-- The dispatch of Subtract by zero operands and signs. -/
def subDispatch (x y : NumReg) : Except Code (Bool × List Nat) :=
  if y.allLimbsZero then .ok (x.sign && !x.allLimbsZero, x.digits)
  else if x.allLimbsZero then .ok (!y.sign, y.digits)
  else match x.sign, y.sign with
    | false, true => addMagnitudes x y false
    | true, false => addMagnitudes x y true
    | true, true => .ok (subMagnitudes y x)
    | false, false => .ok (subMagnitudes x y)

/-! ### Multiplier (R153) -/

/-- One partial product: every limb times one digit, with base-100 carry. -/
def mulRow : List Nat → Nat → Nat → List Nat
  | [], _, c => [c]
  | a :: as, b, c => (a * b + c) % 100 :: mulRow as b ((a * b + c) / 100)

/-- Carry into the digits above. -/
def carryInto : List Nat → Nat → List Nat
  | [], c => if c = 0 then [] else [c]
  | b :: bs, c => (b + c) % 100 :: carryInto bs ((b + c) / 100)

/-- Addition of digit lists of any two lengths. -/
def addWide : List Nat → List Nat → Nat → List Nat
  | [], ys, c => carryInto ys c
  | a :: as, ys, c => (a + ys.headD 0 + c) % 100 :: addWide as ys.tail ((a + ys.headD 0 + c) / 100)

/-- Schoolbook multiplication: each partial product is added, shifted by its limb position. -/
def schoolbook (as : List Nat) : List Nat → List Nat
  | [] => []
  | b :: bs => addWide (mulRow as b 0) (0 :: schoolbook as bs) 0

/-- The multiplier: zero shortcut, sign the XOR of the signs, overflow exactly when a digit above limb 308 is nonzero. -/
def mulDispatch (x y : NumReg) : Except Code (Bool × List Nat) :=
  if x.allLimbsZero || y.allLimbsZero then .ok (false, [])
  else if ((schoolbook x.digits y.digits).drop NLIMBS).any (fun d => d != 0) then .error .capacityOverflow
  else .ok (x.sign != y.sign, (schoolbook x.digits y.digits).take NLIMBS)

/-! ### Long division (R156, R158) -/

/-- The do/while loop of DivSmallStep: subtract and count until the first sign flip, then correct by one step. -/
def divSmallLoop : Nat → Int → Int → Nat → Nat × Int
  | 0, p, _, c => (c, p)
  | fuel + 1, p, b, c => if 0 ≤ p - b then divSmallLoop fuel (p - b) b (c + 1) else (c + 1 - 1, p - b + b)

/-- DivSmallStep (R158): quotient count and remainder, by at most `P + 1` subtractions. -/
def divSmallStep (p b : Int) : Nat × Int := divSmallLoop (p.toNat + 1) p b 0

/-- `prependLimb` on the hidden 309-limb accumulator: the limb shifted out of the top is discarded. -/
def accPrepend (p : Int) (d : Nat) : Int := (p * 100 + d) % CAP

/-- The walk over the dividend's digits, most significant first: quotient digits and the final partial remainder. -/
def longDivLoop : List Nat → Int → Int → List Nat × Int
  | [], p, _ => ([], p)
  | d :: ds, p, b =>
    ((divSmallStep (accPrepend p d) b).1 :: (longDivLoop ds (divSmallStep (accPrepend p d) b).2 b).1,
      (longDivLoop ds (divSmallStep (accPrepend p d) b).2 b).2)

/-- The long-division unit on magnitudes: quotient digits, least significant first, and the remainder. -/
def longDivide (x : NumReg) (b : Int) : List Nat × Int :=
  ((longDivLoop x.digits.reverse 0 b).1.reverse, (longDivLoop x.digits.reverse 0 b).2)

/-! ### The normalization of MODINV (42_numtheory.md R182) -/

/-- `while r < 0: r <- r + m ; while r >= m: r <- r - m`, with fuel. -/
def normalizeLoop : Nat → Int → Int → Int
  | 0, r, _ => r
  | fuel + 1, r, m =>
    if r < 0 then normalizeLoop fuel (r + m) m
    else if m ≤ r then normalizeLoop fuel (r - m) m
    else r

/-! ### The IsPrime state machine (42_numtheory.md R185) -/

/-- The states of IsPrime with the values they carry; `overflowed` is the end with CapacityOverflow. -/
inductive PrimeState where
  | init
  | evenReject
  | decomposeExponent (d : Int) (k : Nat)
  | witnessTest (d : Int) (k : Nat)
  | squareLoop (y : Int) (left : Nat)
  | prime
  | composite
  | overflowed (c : Code)
deriving DecidableEq, Repr

/-- One transition of the R185 table for operand `n`; terminal states stay. -/
def primeTransition (n : Int) : PrimeState → PrimeState
  | .init => if n < 2 then .composite else if n = 2 then .prime else .evenReject
  | .evenReject => if evenVal n then .composite else .decomposeExponent (n - 1) 0
  | .decomposeExponent d k => if evenVal d then .decomposeExponent (tquo d 2) (k + 1) else .witnessTest d k
  | .witnessTest d k =>
    match modExpPipe WITNESS d n with
    | .error c => .overflowed c
    | .ok y => if y = 1 ∨ y = n - 1 then .prime else .squareLoop y (k - 1)
  | .squareLoop _ 0 => .composite
  | .squareLoop y (left + 1) =>
    match chk (y * y) with
    | .error c => .overflowed c
    | .ok sq =>
      if trem sq n = n - 1 then .prime else if trem sq n = 1 then .composite else .squareLoop (trem sq n) left
  | .prime => .prime
  | .composite => .composite
  | .overflowed c => .overflowed c

/-- A number of transitions from a state. -/
def primeRun (n : Int) : Nat → PrimeState → PrimeState
  | 0, p => p
  | k + 1, p => primeRun n k (primeTransition n p)

/-- What a terminal state reports. -/
def PrimeState.outcome : PrimeState → Option (Except Code Int)
  | .prime => some (.ok 1)
  | .composite => some (.ok 0)
  | .overflowed c => some (.error c)
  | .init => none
  | .evenReject => none
  | .decomposeExponent _ _ => none
  | .witnessTest _ _ => none
  | .squareLoop _ _ => none

end Sys2Proof.Machine
end

