-- ==== Sys2Proof/Machine/Assembler.lean ====
section
/-! DEFINITION. The assembler syntax of a command and the pseudo-instructions (spec/30_encoding.md R110, R111). Source text
is a list of characters. -/

namespace Sys2Proof.Machine

/-- The mnemonic of an opcode (R103). -/
def mnemonicOf : Op → List Char
  | .clr => ['C', 'L', 'R']
  | .copy => ['C', 'O', 'P', 'Y']
  | .prepend => ['P', 'R', 'E', 'P', 'E', 'N', 'D']
  | .iszero => ['I', 'S', 'Z', 'E', 'R', 'O']
  | .add => ['A', 'D', 'D']
  | .sub => ['S', 'U', 'B']
  | .mul => ['M', 'U', 'L']
  | .divs => ['D', 'I', 'V', 'S']
  | .divl => ['D', 'I', 'V', 'L']
  | .modexp => ['M', 'O', 'D', 'E', 'X', 'P']
  | .modinv => ['M', 'O', 'D', 'I', 'N', 'V']
  | .isprime => ['I', 'S', 'P', 'R', 'I', 'M', 'E']

/-- An operand as written: a register `x0`..`x7` or a decimal integer. -/
inductive AsmOperand where
  | reg (r : RegId)
  | imm (k : Nat)
deriving DecidableEq, Repr

/-- Why the assembler refuses a line (R110, R111). -/
inductive AsmError where
  | unknownMnemonic
  | badOperand
  | operandShape
  | immediateRange
  | sameDestinations
  | pseudoCondition
deriving DecidableEq, Repr

/-- A decimal digit. -/
def digitOf (c : Char) : Option Nat := if 48 ≤ c.toNat ∧ c.toNat ≤ 57 then some (c.toNat - 48) else none

/-- A nonempty run of decimal digits, accumulated from the left. -/
def decimalFrom : Nat → List Char → Option Nat
  | acc, [] => some acc
  | acc, c :: cs => match digitOf c with
    | some d => decimalFrom (acc * 10 + d) cs
    | none => none

/-- One operand's text: `x` and one digit 0..7, or a decimal integer. -/
def parseOperand : List Char → Option AsmOperand
  | [] => none
  | ['x', c] => match digitOf c with
    | some d => if h : d < 8 then some (.reg ⟨d, h⟩) else none
    | none => none
  | c :: cs => (decimalFrom 0 (c :: cs)).map AsmOperand.imm

/-- Split at a separator character. -/
def splitAtChar (sep : Char) : List Char → List (List Char)
  | [] => [[]]
  | c :: cs =>
    if c = sep then [] :: splitAtChar sep cs
    else match splitAtChar sep cs with
      | [] => [[c]]
      | p :: ps => (c :: p) :: ps

/-- Drop spaces at both ends. -/
def trimSpaces (cs : List Char) : List Char :=
  ((cs.dropWhile (fun c => c == ' ')).reverse.dropWhile (fun c => c == ' ')).reverse

/-- The command an opcode and its written operands make, or why the assembler refuses them (R110). -/
def assembleCommand : Op → List AsmOperand → Except AsmError Instr
  | .clr, [.reg rd] => .ok (.clr rd)
  | .copy, [.reg rd, .reg rs1] => .ok (.copy rd rs1)
  | .prepend, [.reg rd, .reg rs1, .imm k] =>
    if k ≤ 99 then .ok (.prepend rd rs1 (BitVec.ofNat 7 k)) else .error .immediateRange
  | .iszero, [.reg rs1] => .ok (.iszero rs1)
  | .add, [.reg rd, .reg rs1, .reg rs2] => .ok (.add rd rs1 rs2)
  | .sub, [.reg rd, .reg rs1, .reg rs2] => .ok (.sub rd rs1 rs2)
  | .mul, [.reg rd, .reg rs1, .reg rs2] => .ok (.mul rd rs1 rs2)
  | .divs, [.reg rd, .reg re, .reg rs1, .reg rs2] =>
    if rd = re then .error .sameDestinations else .ok (.divs rd re rs1 rs2)
  | .divl, [.reg rd, .reg re, .reg rs1, .reg rs2] =>
    if rd = re then .error .sameDestinations else .ok (.divl rd re rs1 rs2)
  | .modexp, [.reg rd, .reg rs1, .reg rs2, .reg rs3] => .ok (.modexp rd rs1 rs2 rs3)
  | .modinv, [.reg rd, .reg rs1, .reg rs2] => .ok (.modinv rd rs1 rs2)
  | .isprime, [.reg rd, .reg rs1] => .ok (.isprime rd rs1)
  | _, _ => .error .operandShape

/-- The operands of a command as R110 writes them, in that order. -/
def asmOperands : Instr → List AsmOperand
  | .clr rd => [.reg rd]
  | .copy rd rs1 => [.reg rd, .reg rs1]
  | .prepend rd rs1 imm => [.reg rd, .reg rs1, .imm imm.toNat]
  | .iszero rs1 => [.reg rs1]
  | .add rd rs1 rs2 => [.reg rd, .reg rs1, .reg rs2]
  | .sub rd rs1 rs2 => [.reg rd, .reg rs1, .reg rs2]
  | .mul rd rs1 rs2 => [.reg rd, .reg rs1, .reg rs2]
  | .divs rd re rs1 rs2 => [.reg rd, .reg re, .reg rs1, .reg rs2]
  | .divl rd re rs1 rs2 => [.reg rd, .reg re, .reg rs1, .reg rs2]
  | .modexp rd rs1 rs2 rs3 => [.reg rd, .reg rs1, .reg rs2, .reg rs3]
  | .modinv rd rs1 rs2 => [.reg rd, .reg rs1, .reg rs2]
  | .isprime rd rs1 => [.reg rd, .reg rs1]

/-- A line: the mnemonic up to the first space, then the operands separated by commas (R110). -/
def assembleLine (line : List Char) : Except AsmError Instr :=
  match allOps.find? (fun o => mnemonicOf o == (trimSpaces line).takeWhile (fun c => c != ' ')) with
  | none => .error .unknownMnemonic
  | some o =>
    match (splitAtChar ',' ((trimSpaces line).dropWhile (fun c => c != ' '))).mapM
        (fun t => parseOperand (trimSpaces t)) with
    | none => .error .badOperand
    | some ops => assembleCommand o ops

/-! ### Pseudo-instructions (R111) -/

inductive Pseudo where
  | mov (rd rs : RegId)
  | ldi (rd : RegId) (k : Nat)
  | ldn (rd : RegId) (k : Nat)
  | neg (rd rs : RegId)
  | mod (rd rt rs1 rs2 : RegId)
deriving DecidableEq, Repr

/-- The base-100 digits of `k`, least significant first, without leading zeros. -/
def significantDigits : Nat → Nat → List Nat
  | 0, _ => []
  | fuel + 1, k => if k = 0 then [] else k % 100 :: significantDigits fuel (k / 100)

/-- The PREPEND of one digit onto `rd`. -/
def prependDigit (rd : RegId) (c : Nat) : Instr := .prepend rd rd (BitVec.ofNat 7 c)

/-- The commands a pseudo-instruction expands to, issued one at a time (R111). -/
def Pseudo.expand : Pseudo → Except AsmError (List Instr)
  | .mov rd rs => .ok [.copy rd rs]
  | .ldi rd k => if k ≤ 99 then .ok [.clr rd, prependDigit rd k] else .error .pseudoCondition
  | .ldn rd k =>
    if k < CAP then .ok (.clr rd :: (significantDigits NLIMBS k).reverse.map (prependDigit rd))
    else .error .pseudoCondition
  | .neg rd rs => if rd = rs then .error .pseudoCondition else .ok [.clr rd, .sub rd rd rs]
  | .mod rd rt rs1 rs2 => if rt = rd then .error .pseudoCondition else .ok [.divl rt rd rs1 rs2]

end Sys2Proof.Machine
end

