-- ==== Sys2Proof/Machine/HostProgram.lean ====
section
/-! DEFINITION. The host-program notation (spec/30_encoding.md R112) as the steps of an interleaving: how a host's
transactions and its `wait` loop become an agenda. Also the completion of a list of commands one after another
(spec/70_reset_and_hazards.md R253). -/

namespace Sys2Proof.Machine

/-- One line of a host program (R112). -/
inductive HostOp where
  | write32 (off : Nat) (v : Word)
  | read32 (off : Nat)
  | issue (i : Instr)
  | wait
  | expect (off : Nat) (v : Word)
deriving DecidableEq, Repr

/-- The host's poll of STATUS. -/
def pollStatus : Event := .host (.read offSTATUS 4)

/-- The `wait` loop when the in-flight command completes after `lat` polls: those polls, the completion, and the poll that
sees DONE (R112; `LAT` is OPEN, 70_reset_and_hazards.md R258). -/
def waitEvents (lat : Nat) : List Event := List.replicate lat pollStatus ++ [.completion, pollStatus]

/-- The steps of one line; `lat` is the number of polls before the completion and matters to `wait` only. -/
def HostOp.events (lat : Nat) : HostOp → List Event
  | .write32 off v => [.host (.write off 4 v)]
  | .read32 off => [.host (.read off 4)]
  | .issue i => [.host (.write offCMD 4 (encode i))]
  | .wait => waitEvents lat
  | .expect off _ => [.host (.read off 4)]

/-- The steps of a program, each line with its own `LAT`. -/
def programEvents (p : List (HostOp × Nat)) : List Event := p.flatMap (fun l => l.1.events l.2)

/-- Issue one command word and wait for it. -/
def issueAndWait (w : Word) (lat : Nat) : List Event := .host (.write offCMD 4 w) :: waitEvents lat

/-- The effects of a list of events one after another, stopping at the first fault or refusal. -/
def runEvents : List Event → State → Host.Outcome State Fault Refusal
  | [], s => .next s
  | e :: es, s =>
    match takeEvent e s with
    | .next t => runEvents es t
    | .fault f => .fault f
    | .refused r => .refused r

/-- Whether a line has done its work in the state after its steps: an `expect` has read its value, and the last poll of a
`wait` has seen DONE (R112). -/
def HostOp.met (s : State) : HostOp → Bool
  | .expect _ v => s.response == some (.read v .ok)
  | .write32 _ _ => true
  | .read32 _ => true
  | .issue _ => true
  | .wait => match s.response with
    | some (.read d .ok) => d.getLsbD 1
    | some (.read _ .err) => false
    | some (.write _) => false
    | none => false

/-- A host program run to its end: `none` when a transaction leaves the block, an expectation fails or a `wait` does not
end. -/
def runProgram : List (HostOp × Nat) → State → Option State
  | [], s => some s
  | l :: ls, s =>
    match runEvents (l.1.events l.2) s with
    | .next t => if l.1.met t then runProgram ls t else none
    | .fault _ => none
    | .refused _ => none

/-- A list of commands completed one after another. -/
def runCommands : List Instr → State → Host.Outcome State Fault Refusal
  | [], s => .next s
  | i :: is, s =>
    match exec i s with
    | .next t => runCommands is t
    | .fault f => .fault f
    | .refused r => .refused r

end Sys2Proof.Machine
end

