-- ==== Sys2Proof/Safety.lean ====
section
/-! DEFINITION. What counts as a good state and a safe run of BN100, in the terms the statements use. -/

namespace Sys2Proof.Machine

/-- The completion codes a STATUS.CODE can show (spec/60_exceptions.md R210). -/
def completionCodes : List (BitVec 8) := [0#8, 2#8, 3#8, 4#8, 6#8, 8#8]

/-- The codes an ACCINFO.ACCCODE can show: none yet, or an access error's (R210). -/
def accessCodes : List (BitVec 8) := [0#8, 1#8, 5#8, 7#8]

/-- Every limb is 0..99: the stored values 100..127 never occur (spec/10_state.md R30). -/
abbrev NumReg.LimbsInRange (r : NumReg) : Prop := ∀ l ∈ r.limbs.val, l.toNat ≤ 99

/-- Every register's limbs are in range. -/
abbrev State.LimbsInRange (s : State) : Prop := ∀ r : RegId, (s.reg r).LimbsInRange

/-- All limbs 0 with sign 1 (10_state.md R33). -/
abbrev NumReg.IsNegativeZero (r : NumReg) : Prop := r.sign = true ∧ r.allLimbsZero = true

/-- The offset a recorded access error can name: CMD (BusyAccess only) or a window word, always a multiple of 4
(spec/20_memory.md R76, R77, R80). -/
abbrev AccessRecordOk (code : BitVec 8) (off : BitVec 15) : Prop :=
  (code = 0#8 ∧ off = 0#15) ∨
    (code ≠ 0#8 ∧ off.toNat % 4 = 0 ∧
      ((code = 7#8 ∧ off.toNat = 0x10) ∨ (0x1000 ≤ off.toNat ∧ off.toNat < 0x5000)))

/-- The invariant of the machine. -/
structure State.Inv (s : State) : Prop where
  limbs : s.LimbsInRange
  busyNotDone : ¬ (s.busy = true ∧ s.done = true)
  code : s.code ∈ completionCodes
  acccode : s.acccode ∈ accessCodes
  accerr : s.accerr = true → s.acccode ≠ 0#8
  record : AccessRecordOk s.acccode s.accoff
  flags : ¬ (s.z = true ∧ s.n = true)

/-- No transaction still to come leaves the block. -/
abbrev State.InBlock (s : State) : Prop := ∀ t : Txn, Event.host t ∈ s.agenda → t.off < blockSize

/-- Everything of the state that a completion leaves alone, registers outside `dests` included. -/
structure SameButCompletion (dests : List RegId) (s t : State) : Prop where
  regs : ∀ r, r ∉ dests → t.reg r = s.reg r
  ie : t.ie = s.ie
  accerr : t.accerr = s.accerr
  cmdw : t.cmdw = s.cmdw
  acccode : t.acccode = s.acccode
  accoff : t.accoff = s.accoff
  agenda : t.agenda = s.agenda
  response : t.response = s.response

/-- A completion with a code: CODE, SERR, DONE and BUSY as spec/10_state.md R52 leaves them. -/
structure CompletedAs (c : BitVec 8) (s t : State) : Prop where
  code : t.code = c
  serr : t.serr = (s.serr || decide (c ≠ 0#8))
  done : t.done = true
  busy : t.busy = false

/-- Z and N say whether a value is zero and whether it is negative (spec/10_state.md R54). -/
structure FlagsSay (v : Int) (t : State) : Prop where
  z : t.z = decide (v = 0)
  n : t.n = decide (v < 0)

/-- The state a command error leaves: only CODE, SERR, DONE and BUSY written (spec/60_exceptions.md R211). -/
def erred (code : BitVec 8) (s : State) : State :=
  { s with code := code, serr := true, done := true, busy := false }

/-- The command completes OK and writes the one value `v` to `rd` (packed), its flags, and nothing else. -/
def WritesOne (i : Instr) (s : State) (rd : RegId) (v : Int) : Prop :=
  ∃ t, exec i s = .next t ∧ t.value rd = v ∧ t.reg rd = pack v ∧ FlagsSay v t ∧ CompletedAs 0#8 s t ∧
    SameButCompletion [rd] s t

/-- The command completes OK and writes quotient `q` to `rd` and remainder `r` to `re`, its flags from the quotient, and
nothing else. -/
def WritesQuotRem (i : Instr) (s : State) (rd re : RegId) (q r : Int) : Prop :=
  ∃ t, exec i s = .next t ∧ t.value rd = q ∧ t.value re = r ∧ t.reg rd = pack q ∧ t.reg re = pack r ∧
    FlagsSay q t ∧ CompletedAs 0#8 s t ∧ SameButCompletion [rd, re] s t

/-- The command completes with NoModularInverse: the sentinel -1 in `rd`, Z = 0, N = 1 (spec/42_numtheory.md R182). -/
def ReportsNoInverse (i : Instr) (s : State) (rd : RegId) : Prop :=
  ∃ t, exec i s = .next t ∧ t.value rd = -1 ∧ t.reg rd = pack (-1) ∧ FlagsSay (-1) t ∧ CompletedAs 4#8 s t ∧
    SameButCompletion [rd] s t

/-- The command ends with an error code and writes only CODE, SERR, DONE and BUSY. -/
def EndsWith (i : Instr) (s : State) (c : BitVec 8) : Prop := exec i s = .next (erred c s)

/-- The state a rejected access leaves: only the access-error record written (spec/60_exceptions.md R220). -/
def rejected (code : BitVec 8) (off : BitVec 15) (s : State) : State :=
  { s with accerr := true, acccode := code, accoff := off }

/-- The registers a command reads (spec/30_encoding.md R103). -/
def sourcesOf : Instr → List RegId
  | .clr _ => []
  | .copy _ rs1 => [rs1]
  | .prepend _ rs1 _ => [rs1]
  | .iszero rs1 => [rs1]
  | .add _ rs1 rs2 => [rs1, rs2]
  | .sub _ rs1 rs2 => [rs1, rs2]
  | .mul _ rs1 rs2 => [rs1, rs2]
  | .divs _ _ rs1 rs2 => [rs1, rs2]
  | .divl _ _ rs1 rs2 => [rs1, rs2]
  | .modexp _ rs1 rs2 rs3 => [rs1, rs2, rs3]
  | .modinv _ rs1 rs2 => [rs1, rs2]
  | .isprime _ rs1 => [rs1]

/-- The registers a command may write (spec/30_encoding.md R103). -/
def destsOf : Instr → List RegId
  | .clr rd => [rd]
  | .copy rd _ => [rd]
  | .prepend rd _ _ => [rd]
  | .iszero _ => []
  | .add rd _ _ => [rd]
  | .sub rd _ _ => [rd]
  | .mul rd _ _ => [rd]
  | .divs rd re _ _ => [rd, re]
  | .divl rd re _ _ => [rd, re]
  | .modexp rd _ _ _ => [rd]
  | .modinv rd _ _ => [rd]
  | .isprime rd _ => [rd]

/-- The table of spec/60_exceptions.md R212: the codes a command can end with. -/
def possibleCodes : Op → List (BitVec 8)
  | .clr => [0#8, 6#8]
  | .copy => [0#8, 6#8]
  | .prepend => [0#8, 2#8, 6#8]
  | .iszero => [0#8, 6#8]
  | .add => [0#8, 2#8, 6#8]
  | .sub => [0#8, 2#8, 6#8]
  | .mul => [0#8, 2#8, 6#8]
  | .divs => [0#8, 2#8, 3#8, 6#8]
  | .divl => [0#8, 3#8, 6#8]
  | .modexp => [0#8, 2#8, 3#8, 6#8]
  | .modinv => [0#8, 2#8, 3#8, 4#8, 6#8, 8#8]
  | .isprime => [0#8, 2#8, 6#8]

/-- 10^309: below it, residues multiply without overflow (spec/42_numtheory.md R180, R184). -/
def tenTo309 : Nat := 10 ^ 154 * 10 ^ 155

/-- An odd `n > 2` that passes the Miller-Rabin test to base 2: with `n - 1 = 2^k * d`, `d` odd, either
`2^d = 1 (mod n)` or `2^(2^j * d) = -1 (mod n)` for some `j < k`. -/
def StrongProbablePrimeBase2 (n : Nat) : Prop :=
  2 < n ∧ n % 2 = 1 ∧ ∃ d k : Nat, d % 2 = 1 ∧ n - 1 = 2 ^ k * d ∧
    (2 ^ d % n = 1 ∨ ∃ j, j < k ∧ 2 ^ (2 ^ j * d) % n = n - 1)

end Sys2Proof.Machine
end

