-- ==== Sys2Proof/Certificates/Slice0/Obligations.lean ====
section
/-! DEFINITION. The statements about the model, from the numbered rules of spec/ file by file. OBLIGATIONS.json lists
them. -/

open Sys2Proof Sys2Proof.Machine

/-! ## Encoding (30_encoding.md) -/

/-- One printed word of every command decodes to it, and words the spec prints as illegal do not decode
(95_test_vectors.md V-ENC). -/
def Obligations.PrintedWordsDecodeAsPrinted : Prop :=
  decode 0x000000C1#32 = .ok (.clr 3) ∧
  decode 0x00002042#32 = .ok (.copy 1 2) ∧
  decode 0x07A00003#32 = .ok (.prepend 0 0 61#7) ∧
  decode 0x00003004#32 = .ok (.iszero 3) ∧
  decode 0x00008088#32 = .ok (.add 2 0 1) ∧
  decode 0x0000A0C9#32 = .ok (.sub 3 2 1) ∧
  decode 0x0002C1CA#32 = .ok (.mul 7 4 5) ∧
  decode 0x0000868B#32 = .ok (.divs 2 3 0 1) ∧
  decode 0x0001F9CC#32 = .ok (.divl 7 4 7 3) ∧
  decode 0x000A3150#32 = .ok (.modexp 5 3 4 2) ∧
  decode 0x0001C151#32 = .ok (.modinv 5 4 3) ∧
  decode 0x000000D2#32 = .ok (.isprime 3 0) ∧
  decode 0x0000007F#32 = .error .unassignedOpcode ∧
  decode 0x10000001#32 = .error .unusedFieldNonzero ∧
  decode 0x0000848C#32 = .error .sameDestinations ∧
  decode 0x0C800003#32 = .error .limbOutOfRange

/-- R100, R103, R105: encoding drops no operand bit, at every value of every operand. -/
def Obligations.DecodeOfEncodeIsTheCommand : Prop :=
  ∀ i : Instr, i.wellFormed = true → decode (encode i) = .ok i

/-- R100, R104, R106: a word that decodes is exactly the encoding of a well-formed command, so no bit is ignored. -/
def Obligations.EncodeOfDecodeIsTheWord : Prop :=
  ∀ (w : Word) (i : Instr), decode w = .ok i → i.wellFormed = true ∧ encode i = w

/-- R105, R106: a word decodes exactly when it is legal, and every illegal word, whatever the state, completes with
IllegalCommand and writes no register or flag; 0 is illegal. -/
def Obligations.IllegalWordsCompleteWithIllegalCommand : Prop :=
  ∀ w : Word,
    ((∃ i, decode w = .ok i) ↔
      ((∃ o ∈ allOps, w &&& opMask o = opMatch o) ∧
        ¬ ((w.extractLsb' 0 6 = 0x0B#6 ∨ w.extractLsb' 0 6 = 0x0C#6) ∧ w.extractLsb' 6 3 = w.extractLsb' 9 3) ∧
        ¬ (w.extractLsb' 0 6 = 0x03#6 ∧ 99 < (w.extractLsb' 21 7).toNat))) ∧
    ((¬ ∃ i, decode w = .ok i) → ∀ s : State, s.cmdw = w → completion s = .next (erred 6#8 s)) ∧
    ¬ ∃ i, decode 0#32 = .ok i

/-- R110: the assembler accepts exactly a well-formed command's operands in the printed order, and nothing else. -/
def Obligations.AssemblerAcceptsExactlyWellFormedCommands : Prop :=
  ∀ (o : Op) (ops : List AsmOperand) (i : Instr),
    assembleCommand o ops = .ok i ↔ (i.op = o ∧ ops = asmOperands i ∧ i.wellFormed = true)

/-! ## The number format (10_state.md, 00_scope.md) -/

/-- R32: magnitude and value of a register from its limbs and sign. -/
def Obligations.MagnitudeIsTheBase100Numeral : Prop :=
  ∀ r : NumReg,
    r.mag = (Finset.range 309).sum (fun i => (r.limb i).toNat * 100 ^ i) ∧
    (r.sign = true → r.val = -(r.mag : Int)) ∧ (r.sign = false → r.val = r.mag) ∧
    (r.LimbsInRange → r.mag ≤ CAP - 1 ∧ -((CAP : Int) - 1) ≤ r.val ∧ r.val ≤ (CAP : Int) - 1)

/-- R34: what `pack` stores, and that every command writes a register only through `pack`, so a written register is never
a negative zero. -/
def Obligations.CommandsWriteThroughPack : Prop :=
  (∀ (v : Int) (i : Nat), v.natAbs < CAP → i < 309 →
    ((pack v).limb i).toNat = v.natAbs / 100 ^ i % 100 ∧ (pack v).sign = decide (v < 0)) ∧
  (∀ r : RegId, State.reset.reg r = pack 0) ∧
  (∀ (i : Instr) (s t : State) (r : RegId), s.LimbsInRange → exec i s = .next t →
    t.reg r = s.reg r ∨
      (r ∈ destsOf i ∧ ∃ v : Int, v.natAbs < CAP ∧ t.reg r = pack v ∧ ¬ (t.reg r).IsNegativeZero))

/-- R35: every integer of the range is represented, each nonzero one exactly once, and zero in two forms; packing a value
that fits and reading it back gives it. -/
def Obligations.NonzeroIntegersHaveOneStoredForm : Prop :=
  (∀ v : Int, v.natAbs < CAP → (pack v).val = v ∧ (pack v).LimbsInRange) ∧
  (∀ a b : NumReg, a.LimbsInRange → b.LimbsInRange → a.val = b.val → a.val ≠ 0 → a = b) ∧
  (∀ a : NumReg, a.val = 0 ↔ (a = NumReg.zero ∨ a = NumReg.zero.setSign true))

/-- R33 with R77: only a host write to a register's window can leave a negative zero in it; that a limb write can too is
the model's reading of R77 (log entry 9). -/
def Obligations.NegativeZeroComesOnlyFromWindowWrites : Prop :=
  ∀ (s t : State) (r : RegId), s.LimbsInRange → step s = .next t → (t.reg r).IsNegativeZero →
    (s.reg r).IsNegativeZero ∨
      ∃ off d rest, s.agenda = .host (.write off 4 d) :: rest ∧ windowBase r ≤ off ∧ off ≤ windowBase r + 4 * 309

/-- R7: truncated division. -/
def Obligations.TruncatedDivisionLaws : Prop :=
  ∀ a b : Int, b ≠ 0 →
    tquo a b * b + trem a b = a ∧
    (trem a b).natAbs < b.natAbs ∧ (trem a b).natAbs = a.natAbs % b.natAbs ∧
    (trem a b = 0 ∨ (trem a b).sign = a.sign) ∧
    (tquo a b).natAbs = a.natAbs / b.natAbs ∧
    (tquo a b = 0 ∨ (tquo a b).sign = a.sign * b.sign)

/-! ## Buffer commands (40_buffer.md) -/

/-- R130: CLR completes on every state; its result, flags and frame. -/
def Obligations.ClrWritesZero : Prop :=
  decode 0x000000C1#32 = .ok (.clr 3) ∧
  ∀ (s : State) (rd : RegId), WritesOne (.clr rd) s rd 0

/-- R131: COPY completes on every state; the value is copied and a negative zero becomes +0. -/
def Obligations.CopyWritesTheSourceValue : Prop :=
  decode 0x00002042#32 = .ok (.copy 1 2) ∧
  ∀ (s : State) (rd rs1 : RegId), s.LimbsInRange → WritesOne (.copy rd rs1) s rd (s.value rs1)

/-- R132: PREPEND on every operand: the result with the sign of the value, or CapacityOverflow exactly when limb 308 of the
source is nonzero. The last clause, an immediate above 99, is about a term no legal word encodes: that `exec` ends it with
IllegalCommand is the model's choice (log entry 8), made to agree with R105. -/
def Obligations.PrependAppendsALowLimb : Prop :=
  decode 0x00A01043#32 = .ok (.prepend 1 1 5#7) ∧
  ∀ (s : State) (rd rs1 : RegId) (imm : BitVec 7), s.LimbsInRange →
    (imm.toNat ≤ 99 → (s.reg rs1).limb 308 = 0#7 →
      WritesOne (.prepend rd rs1 imm) s rd
        (if s.value rs1 < 0 then -(((s.value rs1).natAbs * 100 + imm.toNat : Nat) : Int)
          else (((s.value rs1).natAbs * 100 + imm.toNat : Nat) : Int))) ∧
    (imm.toNat ≤ 99 → (s.reg rs1).limb 308 ≠ 0#7 → EndsWith (.prepend rd rs1 imm) s 2#8) ∧
    (99 < imm.toNat → EndsWith (.prepend rd rs1 imm) s 6#8)

/-- R132: in limbs, PREPEND shifts every limb up by one position and places the immediate at position 0. -/
def Obligations.PrependShiftsTheLimbs : Prop :=
  ∀ (s t : State) (rd rs1 : RegId) (imm : BitVec 7), s.LimbsInRange → imm.toNat ≤ 99 →
    (s.reg rs1).limb 308 = 0#7 → exec (.prepend rd rs1 imm) s = .next t →
    (t.reg rd).limb 0 = imm ∧ ∀ i, 1 ≤ i → i ≤ 308 → (t.reg rd).limb i = (s.reg rs1).limb (i - 1)

/-- R133: ISZERO completes on every state, writes the two flags and no register. -/
def Obligations.IszeroWritesOnlyFlags : Prop :=
  decode 0x00000004#32 = .ok (.iszero 0) ∧
  ∀ (s : State) (rs1 : RegId), ∃ t, exec (.iszero rs1) s = .next t ∧
    (t.z = true ↔ ∀ i, i < 309 → (s.reg rs1).limb i = 0#7) ∧ FlagsSay (s.value rs1) t ∧
    CompletedAs 0#8 s t ∧ SameButCompletion [] s t

/-! ## Arithmetic commands (41_arith.md) -/

/-- R150: ADD on every state: the exact sum, or CapacityOverflow exactly when it does not fit. -/
def Obligations.AddIsExactOrOverflows : Prop :=
  decode 0x00008088#32 = .ok (.add 2 0 1) ∧
  ∀ (s : State) (rd rs1 rs2 : RegId),
    ((s.value rs1 + s.value rs2).natAbs < CAP →
      WritesOne (.add rd rs1 rs2) s rd (s.value rs1 + s.value rs2)) ∧
    (CAP ≤ (s.value rs1 + s.value rs2).natAbs → EndsWith (.add rd rs1 rs2) s 2#8)

/-- R152: SUB on every state: the exact difference, or CapacityOverflow exactly when it does not fit. -/
def Obligations.SubIsExactOrOverflows : Prop :=
  decode 0x00008089#32 = .ok (.sub 2 0 1) ∧
  ∀ (s : State) (rd rs1 rs2 : RegId),
    ((s.value rs1 - s.value rs2).natAbs < CAP →
      WritesOne (.sub rd rs1 rs2) s rd (s.value rs1 - s.value rs2)) ∧
    (CAP ≤ (s.value rs1 - s.value rs2).natAbs → EndsWith (.sub rd rs1 rs2) s 2#8)

/-- R153: MUL on every state: the exact product, or CapacityOverflow exactly when it does not fit. -/
def Obligations.MulIsExactOrOverflows : Prop :=
  decode 0x0000808A#32 = .ok (.mul 2 0 1) ∧
  ∀ (s : State) (rd rs1 rs2 : RegId),
    ((s.value rs1 * s.value rs2).natAbs < CAP →
      WritesOne (.mul rd rs1 rs2) s rd (s.value rs1 * s.value rs2)) ∧
    (CAP ≤ (s.value rs1 * s.value rs2).natAbs → EndsWith (.mul rd rs1 rs2) s 2#8)

/-- R154: DIVS: DivisionByZero first, then CapacityOverflow exactly when `|a| >= 100 * |b|`, else quotient and remainder.
The first clause, `rd = re`, is about a term no legal word encodes: that `exec` ends it with IllegalCommand is the model's
choice (log entry 8), made to agree with R105. -/
def Obligations.DivsIsOneLimbDivision : Prop :=
  decode 0x0000868B#32 = .ok (.divs 2 3 0 1) ∧
  ∀ (s : State) (rd re rs1 rs2 : RegId), s.LimbsInRange →
    (rd = re → EndsWith (.divs rd re rs1 rs2) s 6#8) ∧
    (rd ≠ re → s.value rs2 = 0 → EndsWith (.divs rd re rs1 rs2) s 3#8) ∧
    (rd ≠ re → s.value rs2 ≠ 0 → 100 * (s.value rs2).natAbs ≤ (s.value rs1).natAbs →
      EndsWith (.divs rd re rs1 rs2) s 2#8) ∧
    (rd ≠ re → s.value rs2 ≠ 0 → (s.value rs1).natAbs < 100 * (s.value rs2).natAbs →
      WritesQuotRem (.divs rd re rs1 rs2) s rd re ((s.value rs1).tdiv (s.value rs2))
        ((s.value rs1).tmod (s.value rs2)))

/-- R155: DIVL: DivisionByZero for a zero divisor, else the truncated quotient and remainder, with no overflow. The
first clause, `rd = re`, is about a term no legal word encodes: that `exec` ends it with IllegalCommand is the model's choice
(log entry 8), made to agree with R105. -/
def Obligations.DivlIsTruncatedDivision : Prop :=
  decode 0x0000868C#32 = .ok (.divl 2 3 0 1) ∧
  ∀ (s : State) (rd re rs1 rs2 : RegId), s.LimbsInRange →
    (rd = re → EndsWith (.divl rd re rs1 rs2) s 6#8) ∧
    (rd ≠ re → s.value rs2 = 0 → EndsWith (.divl rd re rs1 rs2) s 3#8) ∧
    (rd ≠ re → s.value rs2 ≠ 0 →
      WritesQuotRem (.divl rd re rs1 rs2) s rd re ((s.value rs1).tdiv (s.value rs2))
        ((s.value rs1).tmod (s.value rs2)))

/-! ## Number-theoretic commands (42_numtheory.md) -/

/-- R180: the order of MODEXP's checks, its two shortcuts, and the pipeline of R181 otherwise. -/
def Obligations.ModexpFollowsItsChecksInOrder : Prop :=
  decode 0x000880D0#32 = .ok (.modexp 3 0 1 2) ∧
  ∀ (s : State) (rd rs1 rs2 rs3 : RegId), s.LimbsInRange →
    (s.value rs3 = 0 → EndsWith (.modexp rd rs1 rs2 rs3) s 3#8) ∧
    (s.value rs3 ≠ 0 → s.value rs2 = 0 → WritesOne (.modexp rd rs1 rs2 rs3) s rd 1) ∧
    (s.value rs3 ≠ 0 → s.value rs2 ≠ 0 → s.value rs1 = 0 → WritesOne (.modexp rd rs1 rs2 rs3) s rd 0) ∧
    (s.value rs3 ≠ 0 → s.value rs2 ≠ 0 → s.value rs1 ≠ 0 →
      (∀ r, modExpPipe (s.value rs1) (s.value rs2) (s.value rs3) = .ok r →
        WritesOne (.modexp rd rs1 rs2 rs3) s rd r) ∧
      (∀ c, modExpPipe (s.value rs1) (s.value rs2) (s.value rs3) = .error c →
        EndsWith (.modexp rd rs1 rs2 rs3) s 2#8))

/-- R180: the closed form of MODEXP: whenever it does not overflow, and it never does for `|m| <= 10^309`, the result is 1
for exponent 0 and `trem(b^|e|, m)` otherwise. -/
def Obligations.ModexpIsTheTruncatedModularPower : Prop :=
  ∀ (s : State) (rd rs1 rs2 rs3 : RegId), s.LimbsInRange → s.value rs3 ≠ 0 →
    (WritesOne (.modexp rd rs1 rs2 rs3) s rd
        (if s.value rs2 = 0 then 1 else (s.value rs1 ^ (s.value rs2).natAbs).tmod (s.value rs3)) ∨
      EndsWith (.modexp rd rs1 rs2 rs3) s 2#8) ∧
    ((s.value rs3).natAbs ≤ tenTo309 →
      WritesOne (.modexp rd rs1 rs2 rs3) s rd
        (if s.value rs2 = 0 then 1 else (s.value rs1 ^ (s.value rs2).natAbs).tmod (s.value rs3)))

/-- R258: the loops of ModExpPipe and EuclidPipe end within `bitlength(|e|)` and `|v| + 1` iterations: with more fuel than
that bound nothing changes. -/
def Obligations.LoopsEndWithinTheirBounds : Prop :=
  (∀ (b e m : Int) (k : Nat), bitLength e.natAbs ≤ k → modExpLoop k (trem b m) 1 e m = modExpPipe b e m) ∧
  (∀ (v m : Int) (k : Nat), v.natAbs + 1 ≤ k → euclidLoop k 0 m 1 v = euclidPipe v m)

/-- R182, R183: MODINV: the operand checks in order, then the outcome of EuclidPipe, normalized into `[0, m)`. That no
checked step of EuclidPipe overflows on stored values is the model's inference from the pseudocode, which the spec itself
leaves unclaimed (R182, Exceptions; log entry 14). -/
def Obligations.ModinvFollowsEuclidPipe : Prop :=
  decode 0x00008091#32 = .ok (.modinv 2 0 1) ∧
  ∀ (s : State) (rd rs1 rs2 : RegId), s.LimbsInRange →
    (s.value rs2 = 0 → EndsWith (.modinv rd rs1 rs2) s 3#8) ∧
    (s.value rs2 < 0 → EndsWith (.modinv rd rs1 rs2) s 8#8) ∧
    (0 < s.value rs2 →
      (∃ o, euclidPipe (s.value rs1) (s.value rs2) = .ok o) ∧
      (euclidPipe (s.value rs1) (s.value rs2) = .ok none → ReportsNoInverse (.modinv rd rs1 rs2) s rd) ∧
      (∀ b2, euclidPipe (s.value rs1) (s.value rs2) = .ok (some b2) →
        0 ≤ b2 % s.value rs2 ∧ b2 % s.value rs2 < s.value rs2 ∧
          WritesOne (.modinv rd rs1 rs2) s rd (b2 % s.value rs2)))

/-- R182: the closed form of MODINV for `v >= 0` and `m >= 1`: it succeeds exactly when `v > 0` and `gcd(v, m) = 1`, with
the inverse in `[0, m)`, and reports NoModularInverse otherwise. That CapacityOverflow is not among the outcomes is the
model's inference (log entry 14). -/
def Obligations.ModinvFindsTheInverse : Prop :=
  ∀ (s : State) (rd rs1 rs2 : RegId), s.LimbsInRange → 0 ≤ s.value rs1 → 1 ≤ s.value rs2 →
    (0 < s.value rs1 → Int.gcd (s.value rs1) (s.value rs2) = 1 →
      ∃ r : Int, 0 ≤ r ∧ r < s.value rs2 ∧ s.value rs1 * r % s.value rs2 = 1 % s.value rs2 ∧
        WritesOne (.modinv rd rs1 rs2) s rd r) ∧
    (s.value rs1 = 0 ∨ Int.gcd (s.value rs1) (s.value rs2) ≠ 1 →
      ReportsNoInverse (.modinv rd rs1 rs2) s rd)

/-- R184: ISPRIME: below 2 composite, 2 prime, even composite, and for odd `n <= 10^309` the base-2 Miller-Rabin test; above
that bound it gives 0, 1 or CapacityOverflow. -/
def Obligations.IsprimeRunsTheBase2Test : Prop :=
  decode 0x00000052#32 = .ok (.isprime 1 0) ∧
  ∀ (s : State) (rd rs1 : RegId),
    (s.value rs1 < 2 → WritesOne (.isprime rd rs1) s rd 0) ∧
    (s.value rs1 = 2 → WritesOne (.isprime rd rs1) s rd 1) ∧
    (2 < s.value rs1 → s.value rs1 % 2 = 0 → WritesOne (.isprime rd rs1) s rd 0) ∧
    (2 < s.value rs1 → s.value rs1 % 2 = 1 → s.value rs1 ≤ tenTo309 →
      (StrongProbablePrimeBase2 (s.value rs1).toNat → WritesOne (.isprime rd rs1) s rd 1) ∧
      (¬ StrongProbablePrimeBase2 (s.value rs1).toNat → WritesOne (.isprime rd rs1) s rd 0)) ∧
    (2 < s.value rs1 → s.value rs1 % 2 = 1 →
      WritesOne (.isprime rd rs1) s rd 0 ∨ WritesOne (.isprime rd rs1) s rd 1 ∨ EndsWith (.isprime rd rs1) s 2#8)

/-- R186: what ISPRIME guarantees: (a) a prime `n <= 10^309` gives 1; (b) a composite that is no base-2 strong pseudoprime
gives 0 (or, above 10^309, may overflow); (c) a base-2 strong pseudoprime gives 1; (d) above 10^309 the command may end
with CapacityOverflow instead, and never with anything else. -/
def Obligations.IsprimeNeverRejectsAPrime : Prop :=
  ∀ (s : State) (rd rs1 : RegId), 2 ≤ s.value rs1 →
    (s.value rs1 ≤ tenTo309 →
      (Nat.Prime (s.value rs1).toNat → WritesOne (.isprime rd rs1) s rd 1) ∧
      (¬ Nat.Prime (s.value rs1).toNat → ¬ StrongProbablePrimeBase2 (s.value rs1).toNat →
        WritesOne (.isprime rd rs1) s rd 0) ∧
      (¬ Nat.Prime (s.value rs1).toNat → StrongProbablePrimeBase2 (s.value rs1).toNat →
        WritesOne (.isprime rd rs1) s rd 1)) ∧
    (tenTo309 < s.value rs1 →
      EndsWith (.isprime rd rs1) s 2#8 ∨
        (((Nat.Prime (s.value rs1).toNat ∨ StrongProbablePrimeBase2 (s.value rs1).toNat) →
            WritesOne (.isprime rd rs1) s rd 1) ∧
          (¬ Nat.Prime (s.value rs1).toNat → ¬ StrongProbablePrimeBase2 (s.value rs1).toNat →
            WritesOne (.isprime rd rs1) s rd 0)))

/-! ## All commands (00_scope.md, 10_state.md, 60_exceptions.md) -/

/-- R52, R53: on every state every command ends in a completion, which sets DONE, clears BUSY, accumulates SERR and changes
nothing but its destinations, Z, N, CODE, SERR, DONE and BUSY. -/
def Obligations.EveryCommandIsOneCompletion : Prop :=
  ∀ (i : Instr) (s : State), ∃ t, exec i s = .next t ∧ CompletedAs t.code s t ∧ SameButCompletion (destsOf i) s t

/-- R211: an error other than NoModularInverse leaves registers and flags alone; NoModularInverse is the one failure that
writes a result. -/
def Obligations.ErrorsWriteNoRegisterAndNoFlag : Prop :=
  ∀ (i : Instr) (s t : State), exec i s = .next t →
    (t.code ≠ 0#8 → t.code ≠ 4#8 → t = erred t.code s) ∧
    (t.code = 4#8 → ∃ rd rs1 rs2, i = .modinv rd rs1 rs2 ∧ t.value rd = -1 ∧ t.z = false ∧ t.n = true ∧ t.serr = true)

/-- R212: the codes each command can end with; no command records a faulting address or changes what CMD reads back. -/
def Obligations.CommandsEndOnlyWithTheirCodes : Prop :=
  ∀ (i : Instr) (s t : State), exec i s = .next t →
    t.code ∈ possibleCodes i.op ∧ (i.wellFormed = true → t.code ≠ 6#8) ∧ t.accoff = s.accoff ∧ t.cmdw = s.cmdw

/-- R9: a command's outcome is a function of the command and the values of its source registers: neither the flags nor any
other state is read. -/
def Obligations.CommandsDependOnlyOnTheirSources : Prop :=
  ∀ (i : Instr) (s₁ s₂ t₁ t₂ : State), (∀ r ∈ sourcesOf i, s₁.value r = s₂.value r) →
    exec i s₁ = .next t₁ → exec i s₂ = .next t₂ →
    t₁.code = t₂.code ∧
    (t₁.code = 0#8 ∨ t₁.code = 4#8 →
      t₁.z = t₂.z ∧ t₁.n = t₂.n ∧ ∀ r ∈ destsOf i, t₁.reg r = t₂.reg r)

/-! ## The step (10_state.md R52, 20_memory.md R84) -/

/-- A step at which the core's completion is due runs the decoded command, on the state with the completion removed from
the agenda; for a latched word that does not decode it is the completion with IllegalCommand (R105, R106). `agenda` is the
model's own field (log entry 2). -/
def Obligations.StepRunsTheDecodedCommand : Prop :=
  (∀ (s : State) (i : Instr), s.busy = true → decode s.cmdw = .ok i →
    (s.agenda = [] → step s = exec i s) ∧
    (∀ rest, s.agenda = .completion :: rest → step s = exec i { s with agenda := rest })) ∧
  (∀ s : State, s.busy = true → (¬ ∃ i, decode s.cmdw = .ok i) →
    (s.agenda = [] → step s = .next (erred 6#8 s)) ∧
    (∀ rest, s.agenda = .completion :: rest → step s = .next (erred 6#8 { s with agenda := rest })))

/-- R52, R245: the completion is enabled only while `busy = 1`: an idle block waits with all its state. `agenda` is the
model's own field, and that a step with nothing to come leaves an idle state as it is, and that a completion reached while
idle is only taken off the agenda, are the model's choice (log entry 2). -/
def Obligations.IdleBlockWaits : Prop :=
  ∀ s : State, s.busy = false →
    (s.agenda = [] → step s = .next s) ∧
    (∀ rest, s.agenda = .completion :: rest → step s = .next { s with agenda := rest })

/-- No run is ever stuck: a step answers a next state except for a host transaction at 0x5000 or above, which does not reach
the block and at which the model stops (its own choice, log entry 1); `agenda`, and the step of an idle block with nothing to
come, are the model's own (log entry 2). -/
def Obligations.OnlyAccessesOutsideTheBlockStop : Prop :=
  ∀ s : State,
    ((∃ x rest, s.agenda = .host x :: rest ∧ 0x5000 ≤ x.off) → step s = .fault .outsideBlock) ∧
    ((¬ ∃ x rest, s.agenda = .host x :: rest ∧ 0x5000 ≤ x.off) → ∃ t, step s = .next t)

/-- R30, R45 to R48, R54, R210: the invariant of the machine is kept by every step from every state that meets it. -/
def Obligations.EveryStepKeepsTheInvariant : Prop :=
  ∀ s t : State, s.Inv → step s = .next t → t.Inv

/-- The invariant holds right after reset. -/
def Obligations.ResetStateMeetsTheInvariant : Prop := State.reset.Inv

/-- R258: every issued command completes. From every busy state whose transactions stay in the block and with no reset to
come, within as many steps as there are events to come a state is reached in which that same command is in flight on the
same registers, and whose step is its completion, with DONE = 1. With a reset to come, which discards the command (R251),
the block is idle within one step more. That the transactions stay in the block is log entry 1; that an empty agenda lets a
busy block complete, and the bound in events, are log entry 2. -/
def Obligations.EveryIssuedCommandCompletes : Prop :=
  (∀ s : State, s.busy = true → s.InBlock → Event.reset ∉ s.agenda →
    ∃ k u t, k ≤ s.agenda.length ∧ core.run k s = .next u ∧
      u.busy = true ∧ u.cmdw = s.cmdw ∧ u.x = s.x ∧
      (u.agenda = [] ∨ u.agenda.head? = some .completion) ∧
      step u = completion { u with agenda := u.agenda.tail } ∧ step u = .next t ∧
      core.run (k + 1) s = .next t ∧ t.done = true ∧ t.busy = false) ∧
  (∀ s : State, s.busy = true → s.InBlock →
    ∃ k t, k ≤ s.agenda.length + 1 ∧ core.run k s = .next t ∧ t.busy = false)

/-- The agenda is run in order by `step`, one event a step (model's own, log entry 2). -/
def Obligations.AgendaRunsInOrder : Prop :=
  ∀ (es : List Event) (s t : State), s.agenda = [] → runEvents es s = .next t →
    core.run es.length { s with agenda := es } = .next t

/-- R250, R251: a reset, at any moment and whatever is in flight, gives every element of R55 its reset value. -/
def Obligations.ResetClearsEverything : Prop :=
  ∀ (s : State) (rest : List Event), s.agenda = .reset :: rest →
    ∃ t, step s = .next t ∧ (∀ r : RegId, t.reg r = pack 0 ∧ (t.reg r).sign = false ∧ ∀ i, (t.reg r).limb i = 0#7) ∧
      t.ie = false ∧ t.busy = false ∧ t.done = false ∧ t.serr = false ∧ t.accerr = false ∧ t.code = 0#8 ∧
      t.z = false ∧ t.n = false ∧ t.cmdw = 0#32 ∧ t.acccode = 0#8 ∧ t.accoff = 0#15 ∧ irq t = false ∧
      readControl 0x000 t = 0x42313030#32 ∧ readControl 0x004 t = 0x64080135#32

/-! ## Host transactions (20_memory.md) -/

/-- R78 with R41 to R48: every control-space read, busy or not, returns the register's contents and changes nothing. -/
def Obligations.ControlReadsReturnTheRegisters : Prop :=
  ∀ s : State,
    hostTransaction (.read 0x000 4) s = .next (s.respond (.read 0x42313030#32 .ok)) ∧
    hostTransaction (.read 0x004 4) s = .next (s.respond (.read 0x64080135#32 .ok)) ∧
    hostTransaction (.read 0x008 4) s = .next (s.respond (.read (BitVec.ofNat 32 s.ie.toNat) .ok)) ∧
    hostTransaction (.read 0x00C 4) s = .next (s.respond (.read
      (BitVec.ofNat 32 (s.busy.toNat + 2 * s.done.toNat + 4 * s.serr.toNat + 8 * s.accerr.toNat
        + 256 * s.code.toNat + 65536 * s.z.toNat + 131072 * s.n.toNat)) .ok)) ∧
    hostTransaction (.read 0x010 4) s = .next (s.respond (.read s.cmdw .ok)) ∧
    hostTransaction (.read 0x014 4) s = .next (s.respond (.read (BitVec.ofNat 32 s.acccode.toNat) .ok)) ∧
    hostTransaction (.read 0x018 4) s = .next (s.respond (.read (BitVec.ofNat 32 s.accoff.toNat) .ok)) ∧
    ∀ off, 0x01C ≤ off → off < 0x1000 → off % 4 = 0 →
      hostTransaction (.read off 4) s = .next (s.respond (.read 0#32 .ok))

/-- R79: every control-space write but CMD, busy or not. -/
def Obligations.ControlWritesActOnCtrlAndStatusOnly : Prop :=
  ∀ (s : State) (d : Word),
    hostTransaction (.write 0x008 4 d) s
      = .next ({ s with ie := d.getLsbD 0 }.respond (.write .ok)) ∧
    hostTransaction (.write 0x00C 4 d) s
      = .next ({ s with
          done := if d.getLsbD 1 then false else s.done,
          serr := if d.getLsbD 2 then false else s.serr,
          accerr := if d.getLsbD 3 then false else s.accerr }.respond (.write .ok)) ∧
    ∀ off, off < 0x1000 → off % 4 = 0 → off ≠ 0x008 → off ≠ 0x00C → off ≠ 0x010 →
      hostTransaction (.write off 4 d) s = .next (s.respond (.write .ok))

/-- R80: a write to CMD issues the word while idle, whatever the word is, and is rejected while busy. -/
def Obligations.CmdWriteIssuesOnlyWhenIdle : Prop :=
  ∀ (s : State) (w : Word),
    (s.busy = false → hostTransaction (.write 0x010 4 w) s
      = .next ({ s with cmdw := w, busy := true, done := false }.respond (.write .ok))) ∧
    (s.busy = true → hostTransaction (.write 0x010 4 w) s
      = .next ((rejected 7#8 0x010#15 s).respond (.write .ok)))

/-- R75, R76: every window read, by register and word index. -/
def Obligations.WindowReadReturnsTheStoredWord : Prop :=
  ∀ (s : State) (r : RegId) (i off : Nat), i < 512 → off = 0x1000 + 0x800 * r.val + 4 * i →
    (s.busy = true → hostTransaction (.read off 4) s
      = .next ((rejected 7#8 (BitVec.ofNat 15 off) s).respond (.read 0#32 .ok))) ∧
    (s.busy = false → 309 < i → hostTransaction (.read off 4) s
      = .next ((rejected 5#8 (BitVec.ofNat 15 off) s).respond (.read 0#32 .ok))) ∧
    (s.busy = false → i = 309 → hostTransaction (.read off 4) s
      = .next (s.respond (.read (BitVec.ofNat 32 (s.reg r).sign.toNat) .ok))) ∧
    (s.busy = false → i < 309 → hostTransaction (.read off 4) s
      = .next (s.respond (.read (BitVec.ofNat 32 ((s.reg r).limb i).toNat) .ok)))

/-- R75, R77: every window write, by register, word index and data: what it stores, what it rejects, and its frame. -/
def Obligations.WindowWriteStoresOneWord : Prop :=
  ∀ (s : State) (r : RegId) (i off : Nat) (d : Word), i < 512 → off = 0x1000 + 0x800 * r.val + 4 * i →
    (s.busy = true → hostTransaction (.write off 4 d) s
      = .next ((rejected 7#8 (BitVec.ofNat 15 off) s).respond (.write .ok))) ∧
    (s.busy = false → 309 < i → hostTransaction (.write off 4 d) s
      = .next ((rejected 5#8 (BitVec.ofNat 15 off) s).respond (.write .ok))) ∧
    (s.busy = false → (i = 309 ∧ 1 < d.toNat ∨ i < 309 ∧ 99 < d.toNat) → hostTransaction (.write off 4 d) s
      = .next ((rejected 1#8 (BitVec.ofNat 15 off) s).respond (.write .ok))) ∧
    (s.busy = false → i = 309 → d.toNat ≤ 1 → ∃ t, hostTransaction (.write off 4 d) s = .next t ∧
      (t.reg r).sign = decide (d.toNat = 1) ∧ (t.reg r).limbs = (s.reg r).limbs ∧
      (∀ q, q ≠ r → t.reg q = s.reg q) ∧ { t with x := s.x } = s.respond (.write .ok)) ∧
    (s.busy = false → i < 309 → d.toNat ≤ 99 → ∃ t, hostTransaction (.write off 4 d) s = .next t ∧
      ((t.reg r).limb i).toNat = d.toNat ∧ (t.reg r).sign = (s.reg r).sign ∧
      (∀ j, j ≠ i → (t.reg r).limb j = (s.reg r).limb j) ∧
      (∀ q, q ≠ r → t.reg q = s.reg q) ∧ { t with x := s.x } = s.respond (.write .ok))

/-- R72, R73: a transaction of another size or at an offset that is no multiple of 4 gets ERR, reads data 0 and changes no
state; every other transaction in the block is answered OK, one the block rejects included. -/
def Obligations.OnlyMalformedTransactionsAnswerErr : Prop :=
  ∀ (s : State) (off size : Nat) (d : Word), off < 0x5000 →
    (size ≠ 4 ∨ off % 4 ≠ 0 →
      hostTransaction (.read off size) s = .next (s.respond (.read 0#32 .err)) ∧
      hostTransaction (.write off size d) s = .next (s.respond (.write .err))) ∧
    (size = 4 → off % 4 = 0 →
      (∃ t data, hostTransaction (.read off size) s = .next t ∧ t.response = some (.read data .ok)) ∧
      (∃ t, hostTransaction (.write off size d) s = .next t ∧ t.response = some (.write .ok)))

/-- R74: a well-formed read changes no state, except that a rejected window read records its access error: code 7 exactly
when the block is busy, code 5 exactly when it is idle and the word index is above 309 (R75, R76). A read in the control
space and a window read of a stored word while idle change nothing. Clearing status bits twice is clearing them once. -/
def Obligations.ReadsHaveNoSideEffects : Prop :=
  (∀ (s t : State) (off : Nat), off % 4 = 0 → hostTransaction (.read off 4) s = .next t →
    (off < 0x1000 → { t with response := s.response } = s) ∧
    (0x1000 ≤ off → s.busy = true → { t with response := s.response } = rejected 7#8 (BitVec.ofNat 15 off) s) ∧
    (0x1000 ≤ off → s.busy = false → 309 < (off - 0x1000) % 0x800 / 4 →
      { t with response := s.response } = rejected 5#8 (BitVec.ofNat 15 off) s) ∧
    (0x1000 ≤ off → s.busy = false → (off - 0x1000) % 0x800 / 4 ≤ 309 → { t with response := s.response } = s)) ∧
  (∀ (s t u : State) (d : Word), hostTransaction (.write 0x00C 4 d) s = .next t →
    hostTransaction (.write 0x00C 4 d) t = .next u → u = t)

/-- R54, R77, R87, R255: no host transaction writes Z, N or CODE or sets DONE or SERR, and while a command runs none changes
its word, the registers, or BUSY. -/
def Obligations.HostCannotChangeARunningCommand : Prop :=
  ∀ (s t : State) (x : Txn), hostTransaction x s = .next t →
    (t.z = s.z ∧ t.n = s.n ∧ t.code = s.code ∧ (t.done = true → s.done = true) ∧ (t.serr = true → s.serr = true)) ∧
    (s.busy = true → t.x = s.x ∧ t.cmdw = s.cmdw ∧ t.busy = true)

/-- R49, R230: the interrupt line rises with every completion, errors included, when enabled; the issue and the write of 1
to STATUS bit 1 clear it, and a rejected access leaves it: one to the window, and one to CMD while busy. No transaction but
a write to CTRL, an acknowledge of DONE and an issue changes the line. -/
def Obligations.InterruptFollowsCompletion : Prop :=
  (∀ s : State, irq s = (s.ie && s.done)) ∧
  (∀ (i : Instr) (s t : State), exec i s = .next t → irq t = s.ie) ∧
  (∀ (s t : State) (w : Word), s.busy = false → hostTransaction (.write 0x010 4 w) s = .next t → irq t = false) ∧
  (∀ (s t : State) (d : Word), d.getLsbD 1 = true → hostTransaction (.write 0x00C 4 d) s = .next t → irq t = false) ∧
  (∀ (s t : State) (x : Txn), 0x1000 ≤ x.off → hostTransaction x s = .next t → irq t = irq s) ∧
  (∀ (s t : State) (w : Word), s.busy = true → hostTransaction (.write 0x010 4 w) s = .next t → irq t = irq s) ∧
  (∀ (s t : State) (x : Txn), hostTransaction x s = .next t → irq t ≠ irq s →
    (∃ d, x = .write 0x008 4 d) ∨ (∃ d : Word, x = .write 0x00C 4 d ∧ d.getLsbD 1 = true) ∨
      (s.busy = false ∧ ∃ w, x = .write 0x010 4 w))

/-! ## Interleavings (70_reset_and_hazards.md R258) -/

/-- R85, R258: issuing a word and waiting for it, however many polls pass before the completion, ends in the state the
completion gives, and the last poll shows it. The wait written out as events is the model's own (log entry 2). -/
def Obligations.LatencyDoesNotChangeTheResult : Prop :=
  ∀ (s : State) (w : Word) (lat : Nat), s.busy = false →
    ∃ t, completion (s.issue w) = .next t ∧ t.done = true ∧ t.busy = false ∧
      runEvents (issueAndWait w lat) s = .next (t.respond (.read (statusWord t) .ok))

/-- R258, 95_test_vectors.md P6: a window read right after an issue has two legal outcomes: BusyAccess before the
completion, the stored limb after it. -/
def Obligations.EarlyReadHasTwoOutcomes : Prop :=
  ∀ (s : State) (w : Word) (r : RegId) (i off : Nat), s.busy = false → i < 309 →
    off = 0x1000 + 0x800 * r.val + 4 * i →
    (∃ t, runEvents [.host (.write 0x010 4 w), .host (.read off 4)] s = .next t ∧
      t.response = some (.read 0#32 .ok) ∧ t.accerr = true ∧ t.acccode = 7#8 ∧ t.accoff = BitVec.ofNat 15 off) ∧
    (∃ t, runEvents [.host (.write 0x010 4 w), .completion, .host (.read off 4)] s = .next t ∧
      t.response = some (.read (BitVec.ofNat 32 ((t.reg r).limb i).toNat) .ok) ∧
      t.accerr = s.accerr ∧ t.acccode = s.acccode ∧ t.accoff = s.accoff)

/-! ## Pseudo-instructions (30_encoding.md R111) -/

/-- R111: LDN loads every number below the capacity, leaving the other registers alone. -/
def Obligations.LdnLoadsTheNumber : Prop :=
  ∀ (s : State) (rd : RegId) (k : Nat), k < CAP →
    ∃ is t, (Pseudo.ldn rd k).expand = .ok is ∧ runCommands is s = .next t ∧ t.value rd = k ∧ t.code = 0#8 ∧
      ∀ q, q ≠ rd → t.reg q = s.reg q

/-- R111: MOV, LDI, NEG and MOD do what they stand for. -/
def Obligations.PseudoInstructionsMeanWhatTheyExpandTo : Prop :=
  ∀ s : State, s.LimbsInRange →
    (∀ rd rs, ∃ is t, (Pseudo.mov rd rs).expand = .ok is ∧ runCommands is s = .next t ∧ t.value rd = s.value rs) ∧
    (∀ rd k, k ≤ 99 → ∃ is t, (Pseudo.ldi rd k).expand = .ok is ∧ runCommands is s = .next t ∧ t.value rd = k) ∧
    (∀ rd rs, rd ≠ rs → ∃ is t, (Pseudo.neg rd rs).expand = .ok is ∧ runCommands is s = .next t ∧
      t.value rd = -s.value rs) ∧
    (∀ rd rt rs1 rs2, rt ≠ rd → s.value rs2 ≠ 0 → ∃ is t, (Pseudo.mod rd rt rs1 rs2).expand = .ok is ∧
      runCommands is s = .next t ∧ t.value rd = (s.value rs1).tmod (s.value rs2) ∧
      t.value rt = (s.value rs1).tdiv (s.value rs2))

/-! ## Reference datapaths (41_arith.md, 42_numtheory.md) -/

/-- R151: the limb-wise adder and subtractor with their dispatches give the exact sum and difference, and carry out of limb
308 exactly when the result does not fit. -/
def Obligations.AdderAndSubtractorDatapathsAreExact : Prop :=
  ∀ x y : NumReg, x.LimbsInRange → y.LimbsInRange →
    ((x.val + y.val).natAbs < CAP → ∃ p, addDispatch x y = .ok p ∧ signedValue p = x.val + y.val ∧
      p.2.length = 309 ∧ ∀ d ∈ p.2, d ≤ 99) ∧
    (CAP ≤ (x.val + y.val).natAbs → addDispatch x y = .error .capacityOverflow) ∧
    ((x.val - y.val).natAbs < CAP → ∃ p, subDispatch x y = .ok p ∧ signedValue p = x.val - y.val ∧
      p.2.length = 309 ∧ ∀ d ∈ p.2, d ≤ 99) ∧
    (CAP ≤ (x.val - y.val).natAbs → subDispatch x y = .error .capacityOverflow)

/-- R153: the schoolbook multiplier gives the exact product, and a digit above limb 308 is nonzero exactly when the product
does not fit. -/
def Obligations.SchoolbookMultiplierGivesTheProduct : Prop :=
  ∀ x y : NumReg, x.LimbsInRange → y.LimbsInRange →
    ((x.val * y.val).natAbs < CAP → ∃ p, mulDispatch x y = .ok p ∧ signedValue p = x.val * y.val) ∧
    (CAP ≤ (x.val * y.val).natAbs → mulDispatch x y = .error .capacityOverflow)

/-- R156: the long-division unit on a 309-limb accumulator gives quotient and remainder of every division by a positive
divisor, so the limb it discards is always 0. -/
def Obligations.LongDivisionUnitIsExact : Prop :=
  ∀ (x : NumReg) (b : Nat), x.LimbsInRange → 0 < b → b < CAP →
    digitsValue (longDivide x b).1 = x.mag / b ∧ (longDivide x b).2 = (x.mag % b : Nat) ∧
      (longDivide x b).1.length = 309 ∧ ∀ d ∈ (longDivide x b).1, d ≤ 99

/-- R158: DivSmallStep by repeated subtraction gives quotient and remainder. -/
def Obligations.DivSmallStepDivides : Prop :=
  ∀ p b : Nat, 0 < b → divSmallStep p b = (p / b, ((p % b : Nat) : Int))

/-- R182: the repeated add or subtract of the modulus ends at `B2 mod m`. -/
def Obligations.NormalizationEndsAtTheResidue : Prop :=
  ∀ (r m : Int) (fuel : Nat), 0 < m → r.natAbs + 1 ≤ fuel → normalizeLoop fuel r m = r % m

/-- R185: the IsPrime state machine ends, within twice the bit length and 4 transitions, with the outcome of ISPRIME. -/
def Obligations.IsPrimeStateMachineAgrees : Prop :=
  ∀ n : Int, (primeRun n (2 * bitLength n.natAbs + 4) .init).outcome = some (isPrimeValue n)

/-! ## Bus words (20_memory.md R81, 10_state.md R42) -/

/-- R81: the four byte lanes of a word, lowest address first, are its bytes in little-endian order, at consecutive platform
addresses from `CORE_BASE + off`. -/
def Obligations.ByteLanesAreLittleEndian : Prop :=
  (∀ w : Word, wordOfLanes (laneByte w 0) (laneByte w 1) (laneByte w 2) (laneByte w 3) = w) ∧
  (∀ (w : Word) (k : Nat), k < 4 → (laneByte w k).toNat = w.toNat / 256 ^ k % 256) ∧
  (∀ base off k : Nat, off % 4 = 0 → off < 0x5000 → k < 4 →
    blockOffset base (laneAddress base off k) = some (off + k))

/-- R41, R42: the identity and capability constants spell out the parameters of R5. -/
def Obligations.CapabilityWordSpellsTheParameters : Prop :=
  (CAPS.extractLsb' 0 16).toNat = NLIMBS ∧ (CAPS.extractLsb' 16 8).toNat = 8 ∧
  (CAPS.extractLsb' 24 8).toNat = RADIX ∧ CAP = RADIX ^ NLIMBS ∧
  [ID.extractLsb' 24 8, ID.extractLsb' 16 8, ID.extractLsb' 8 8, ID.extractLsb' 0 8]
    = ['B', '1', '0', '0'].map (fun c => BitVec.ofNat 8 c.toNat)
end

