-- ==== Sys2Proof/Laws/State.lean ====
section
/-! SUPPORT. One lemma per field per named update of the state, each true by unfolding, so that no later proof unfolds a
record update; and the register file's read-after-write laws. -/

namespace Sys2Proof.Machine

variable (s : State)

/-! ### setReg -/

@[simp] theorem State.setReg_x (r : RegId) (v : NumReg) : (s.setReg r v).x = s.x.set r v := rfl
@[simp] theorem State.setReg_ie (r : RegId) (v : NumReg) : (s.setReg r v).ie = s.ie := rfl
@[simp] theorem State.setReg_busy (r : RegId) (v : NumReg) : (s.setReg r v).busy = s.busy := rfl
@[simp] theorem State.setReg_done (r : RegId) (v : NumReg) : (s.setReg r v).done = s.done := rfl
@[simp] theorem State.setReg_serr (r : RegId) (v : NumReg) : (s.setReg r v).serr = s.serr := rfl
@[simp] theorem State.setReg_accerr (r : RegId) (v : NumReg) : (s.setReg r v).accerr = s.accerr := rfl
@[simp] theorem State.setReg_z (r : RegId) (v : NumReg) : (s.setReg r v).z = s.z := rfl
@[simp] theorem State.setReg_n (r : RegId) (v : NumReg) : (s.setReg r v).n = s.n := rfl
@[simp] theorem State.setReg_code (r : RegId) (v : NumReg) : (s.setReg r v).code = s.code := rfl
@[simp] theorem State.setReg_cmdw (r : RegId) (v : NumReg) : (s.setReg r v).cmdw = s.cmdw := rfl
@[simp] theorem State.setReg_acccode (r : RegId) (v : NumReg) : (s.setReg r v).acccode = s.acccode := rfl
@[simp] theorem State.setReg_accoff (r : RegId) (v : NumReg) : (s.setReg r v).accoff = s.accoff := rfl
@[simp] theorem State.setReg_agenda (r : RegId) (v : NumReg) : (s.setReg r v).agenda = s.agenda := rfl
@[simp] theorem State.setReg_response (r : RegId) (v : NumReg) : (s.setReg r v).response = s.response := rfl

/-! ### writeValue -/

@[simp] theorem State.writeValue_x (r : RegId) (v : Int) : (s.writeValue r v).x = s.x.set r (pack v) := rfl
@[simp] theorem State.writeValue_ie (r : RegId) (v : Int) : (s.writeValue r v).ie = s.ie := rfl
@[simp] theorem State.writeValue_busy (r : RegId) (v : Int) : (s.writeValue r v).busy = s.busy := rfl
@[simp] theorem State.writeValue_done (r : RegId) (v : Int) : (s.writeValue r v).done = s.done := rfl
@[simp] theorem State.writeValue_serr (r : RegId) (v : Int) : (s.writeValue r v).serr = s.serr := rfl
@[simp] theorem State.writeValue_accerr (r : RegId) (v : Int) : (s.writeValue r v).accerr = s.accerr := rfl
@[simp] theorem State.writeValue_z (r : RegId) (v : Int) : (s.writeValue r v).z = s.z := rfl
@[simp] theorem State.writeValue_n (r : RegId) (v : Int) : (s.writeValue r v).n = s.n := rfl
@[simp] theorem State.writeValue_code (r : RegId) (v : Int) : (s.writeValue r v).code = s.code := rfl
@[simp] theorem State.writeValue_cmdw (r : RegId) (v : Int) : (s.writeValue r v).cmdw = s.cmdw := rfl
@[simp] theorem State.writeValue_acccode (r : RegId) (v : Int) : (s.writeValue r v).acccode = s.acccode := rfl
@[simp] theorem State.writeValue_accoff (r : RegId) (v : Int) : (s.writeValue r v).accoff = s.accoff := rfl
@[simp] theorem State.writeValue_agenda (r : RegId) (v : Int) : (s.writeValue r v).agenda = s.agenda := rfl
@[simp] theorem State.writeValue_response (r : RegId) (v : Int) : (s.writeValue r v).response = s.response := rfl

/-! ### setFlags -/

@[simp] theorem State.setFlags_x (f : Flags) : (s.setFlags f).x = s.x := rfl
@[simp] theorem State.setFlags_ie (f : Flags) : (s.setFlags f).ie = s.ie := rfl
@[simp] theorem State.setFlags_busy (f : Flags) : (s.setFlags f).busy = s.busy := rfl
@[simp] theorem State.setFlags_done (f : Flags) : (s.setFlags f).done = s.done := rfl
@[simp] theorem State.setFlags_serr (f : Flags) : (s.setFlags f).serr = s.serr := rfl
@[simp] theorem State.setFlags_accerr (f : Flags) : (s.setFlags f).accerr = s.accerr := rfl
@[simp] theorem State.setFlags_z (f : Flags) : (s.setFlags f).z = f.z := rfl
@[simp] theorem State.setFlags_n (f : Flags) : (s.setFlags f).n = f.n := rfl
@[simp] theorem State.setFlags_code (f : Flags) : (s.setFlags f).code = s.code := rfl
@[simp] theorem State.setFlags_cmdw (f : Flags) : (s.setFlags f).cmdw = s.cmdw := rfl
@[simp] theorem State.setFlags_acccode (f : Flags) : (s.setFlags f).acccode = s.acccode := rfl
@[simp] theorem State.setFlags_accoff (f : Flags) : (s.setFlags f).accoff = s.accoff := rfl
@[simp] theorem State.setFlags_agenda (f : Flags) : (s.setFlags f).agenda = s.agenda := rfl
@[simp] theorem State.setFlags_response (f : Flags) : (s.setFlags f).response = s.response := rfl

/-! ### retire -/

@[simp] theorem State.retire_x (c : Code) : (s.retire c).x = s.x := rfl
@[simp] theorem State.retire_ie (c : Code) : (s.retire c).ie = s.ie := rfl
@[simp] theorem State.retire_busy (c : Code) : (s.retire c).busy = false := rfl
@[simp] theorem State.retire_done (c : Code) : (s.retire c).done = true := rfl
@[simp] theorem State.retire_serr (c : Code) : (s.retire c).serr = (s.serr || decide (c ≠ .ok)) := rfl
@[simp] theorem State.retire_accerr (c : Code) : (s.retire c).accerr = s.accerr := rfl
@[simp] theorem State.retire_z (c : Code) : (s.retire c).z = s.z := rfl
@[simp] theorem State.retire_n (c : Code) : (s.retire c).n = s.n := rfl
@[simp] theorem State.retire_code (c : Code) : (s.retire c).code = c.byte := rfl
@[simp] theorem State.retire_cmdw (c : Code) : (s.retire c).cmdw = s.cmdw := rfl
@[simp] theorem State.retire_acccode (c : Code) : (s.retire c).acccode = s.acccode := rfl
@[simp] theorem State.retire_accoff (c : Code) : (s.retire c).accoff = s.accoff := rfl
@[simp] theorem State.retire_agenda (c : Code) : (s.retire c).agenda = s.agenda := rfl
@[simp] theorem State.retire_response (c : Code) : (s.retire c).response = s.response := rfl

/-! ### recordAccessError -/

@[simp] theorem State.recordAccessError_x (c : Code) (off : Nat) : (s.recordAccessError c off).x = s.x := rfl
@[simp] theorem State.recordAccessError_ie (c : Code) (off : Nat) : (s.recordAccessError c off).ie = s.ie := rfl
@[simp] theorem State.recordAccessError_busy (c : Code) (off : Nat) : (s.recordAccessError c off).busy = s.busy := rfl
@[simp] theorem State.recordAccessError_done (c : Code) (off : Nat) : (s.recordAccessError c off).done = s.done := rfl
@[simp] theorem State.recordAccessError_serr (c : Code) (off : Nat) : (s.recordAccessError c off).serr = s.serr := rfl
@[simp] theorem State.recordAccessError_accerr (c : Code) (off : Nat) : (s.recordAccessError c off).accerr = true := rfl
@[simp] theorem State.recordAccessError_z (c : Code) (off : Nat) : (s.recordAccessError c off).z = s.z := rfl
@[simp] theorem State.recordAccessError_n (c : Code) (off : Nat) : (s.recordAccessError c off).n = s.n := rfl
@[simp] theorem State.recordAccessError_code (c : Code) (off : Nat) : (s.recordAccessError c off).code = s.code := rfl
@[simp] theorem State.recordAccessError_cmdw (c : Code) (off : Nat) : (s.recordAccessError c off).cmdw = s.cmdw := rfl
@[simp] theorem State.recordAccessError_acccode (c : Code) (off : Nat) : (s.recordAccessError c off).acccode = c.byte := rfl
@[simp] theorem State.recordAccessError_accoff (c : Code) (off : Nat) : (s.recordAccessError c off).accoff = BitVec.ofNat 15 off := rfl
@[simp] theorem State.recordAccessError_agenda (c : Code) (off : Nat) : (s.recordAccessError c off).agenda = s.agenda := rfl
@[simp] theorem State.recordAccessError_response (c : Code) (off : Nat) : (s.recordAccessError c off).response = s.response := rfl

/-! ### acknowledge -/

@[simp] theorem State.acknowledge_x (d : Word) : (s.acknowledge d).x = s.x := rfl
@[simp] theorem State.acknowledge_ie (d : Word) : (s.acknowledge d).ie = s.ie := rfl
@[simp] theorem State.acknowledge_busy (d : Word) : (s.acknowledge d).busy = s.busy := rfl
@[simp] theorem State.acknowledge_done (d : Word) : (s.acknowledge d).done = (s.done && !d.getLsbD 1) := rfl
@[simp] theorem State.acknowledge_serr (d : Word) : (s.acknowledge d).serr = (s.serr && !d.getLsbD 2) := rfl
@[simp] theorem State.acknowledge_accerr (d : Word) : (s.acknowledge d).accerr = (s.accerr && !d.getLsbD 3) := rfl
@[simp] theorem State.acknowledge_z (d : Word) : (s.acknowledge d).z = s.z := rfl
@[simp] theorem State.acknowledge_n (d : Word) : (s.acknowledge d).n = s.n := rfl
@[simp] theorem State.acknowledge_code (d : Word) : (s.acknowledge d).code = s.code := rfl
@[simp] theorem State.acknowledge_cmdw (d : Word) : (s.acknowledge d).cmdw = s.cmdw := rfl
@[simp] theorem State.acknowledge_acccode (d : Word) : (s.acknowledge d).acccode = s.acccode := rfl
@[simp] theorem State.acknowledge_accoff (d : Word) : (s.acknowledge d).accoff = s.accoff := rfl
@[simp] theorem State.acknowledge_agenda (d : Word) : (s.acknowledge d).agenda = s.agenda := rfl
@[simp] theorem State.acknowledge_response (d : Word) : (s.acknowledge d).response = s.response := rfl

/-! ### issue -/

@[simp] theorem State.issue_x (w : Word) : (s.issue w).x = s.x := rfl
@[simp] theorem State.issue_ie (w : Word) : (s.issue w).ie = s.ie := rfl
@[simp] theorem State.issue_busy (w : Word) : (s.issue w).busy = true := rfl
@[simp] theorem State.issue_done (w : Word) : (s.issue w).done = false := rfl
@[simp] theorem State.issue_serr (w : Word) : (s.issue w).serr = s.serr := rfl
@[simp] theorem State.issue_accerr (w : Word) : (s.issue w).accerr = s.accerr := rfl
@[simp] theorem State.issue_z (w : Word) : (s.issue w).z = s.z := rfl
@[simp] theorem State.issue_n (w : Word) : (s.issue w).n = s.n := rfl
@[simp] theorem State.issue_code (w : Word) : (s.issue w).code = s.code := rfl
@[simp] theorem State.issue_cmdw (w : Word) : (s.issue w).cmdw = w := rfl
@[simp] theorem State.issue_acccode (w : Word) : (s.issue w).acccode = s.acccode := rfl
@[simp] theorem State.issue_accoff (w : Word) : (s.issue w).accoff = s.accoff := rfl
@[simp] theorem State.issue_agenda (w : Word) : (s.issue w).agenda = s.agenda := rfl
@[simp] theorem State.issue_response (w : Word) : (s.issue w).response = s.response := rfl

/-! ### respond -/

@[simp] theorem State.respond_x (a : Response) : (s.respond a).x = s.x := rfl
@[simp] theorem State.respond_ie (a : Response) : (s.respond a).ie = s.ie := rfl
@[simp] theorem State.respond_busy (a : Response) : (s.respond a).busy = s.busy := rfl
@[simp] theorem State.respond_done (a : Response) : (s.respond a).done = s.done := rfl
@[simp] theorem State.respond_serr (a : Response) : (s.respond a).serr = s.serr := rfl
@[simp] theorem State.respond_accerr (a : Response) : (s.respond a).accerr = s.accerr := rfl
@[simp] theorem State.respond_z (a : Response) : (s.respond a).z = s.z := rfl
@[simp] theorem State.respond_n (a : Response) : (s.respond a).n = s.n := rfl
@[simp] theorem State.respond_code (a : Response) : (s.respond a).code = s.code := rfl
@[simp] theorem State.respond_cmdw (a : Response) : (s.respond a).cmdw = s.cmdw := rfl
@[simp] theorem State.respond_acccode (a : Response) : (s.respond a).acccode = s.acccode := rfl
@[simp] theorem State.respond_accoff (a : Response) : (s.respond a).accoff = s.accoff := rfl
@[simp] theorem State.respond_agenda (a : Response) : (s.respond a).agenda = s.agenda := rfl
@[simp] theorem State.respond_response (a : Response) : (s.respond a).response = some a := rfl

/-! ### resetEvent -/

@[simp] theorem State.resetEvent_x : s.resetEvent.x = State.reset.x := rfl
@[simp] theorem State.resetEvent_ie : s.resetEvent.ie = State.reset.ie := rfl
@[simp] theorem State.resetEvent_busy : s.resetEvent.busy = State.reset.busy := rfl
@[simp] theorem State.resetEvent_done : s.resetEvent.done = State.reset.done := rfl
@[simp] theorem State.resetEvent_serr : s.resetEvent.serr = State.reset.serr := rfl
@[simp] theorem State.resetEvent_accerr : s.resetEvent.accerr = State.reset.accerr := rfl
@[simp] theorem State.resetEvent_z : s.resetEvent.z = State.reset.z := rfl
@[simp] theorem State.resetEvent_n : s.resetEvent.n = State.reset.n := rfl
@[simp] theorem State.resetEvent_code : s.resetEvent.code = State.reset.code := rfl
@[simp] theorem State.resetEvent_cmdw : s.resetEvent.cmdw = State.reset.cmdw := rfl
@[simp] theorem State.resetEvent_acccode : s.resetEvent.acccode = State.reset.acccode := rfl
@[simp] theorem State.resetEvent_accoff : s.resetEvent.accoff = State.reset.accoff := rfl
@[simp] theorem State.resetEvent_agenda : s.resetEvent.agenda = s.agenda := rfl
@[simp] theorem State.resetEvent_response : s.resetEvent.response = State.reset.response := rfl

/-! ### placeCommand -/

@[simp] theorem State.placeCommand_x (w : Word) : (s.placeCommand w).x = s.x := rfl
@[simp] theorem State.placeCommand_ie (w : Word) : (s.placeCommand w).ie = s.ie := rfl
@[simp] theorem State.placeCommand_busy (w : Word) : (s.placeCommand w).busy = true := rfl
@[simp] theorem State.placeCommand_done (w : Word) : (s.placeCommand w).done = false := rfl
@[simp] theorem State.placeCommand_serr (w : Word) : (s.placeCommand w).serr = s.serr := rfl
@[simp] theorem State.placeCommand_accerr (w : Word) : (s.placeCommand w).accerr = s.accerr := rfl
@[simp] theorem State.placeCommand_z (w : Word) : (s.placeCommand w).z = s.z := rfl
@[simp] theorem State.placeCommand_n (w : Word) : (s.placeCommand w).n = s.n := rfl
@[simp] theorem State.placeCommand_code (w : Word) : (s.placeCommand w).code = s.code := rfl
@[simp] theorem State.placeCommand_cmdw (w : Word) : (s.placeCommand w).cmdw = w := rfl
@[simp] theorem State.placeCommand_acccode (w : Word) : (s.placeCommand w).acccode = s.acccode := rfl
@[simp] theorem State.placeCommand_accoff (w : Word) : (s.placeCommand w).accoff = s.accoff := rfl
@[simp] theorem State.placeCommand_agenda (w : Word) : (s.placeCommand w).agenda = .completion :: s.agenda := rfl
@[simp] theorem State.placeCommand_response (w : Word) : (s.placeCommand w).response = s.response := rfl

/-! ### The register file -/

@[simp] theorem State.reg_setReg_same (r : RegId) (v : NumReg) : (s.setReg r v).reg r = v := by
  simp [State.reg, State.setReg]

theorem State.reg_setReg_of_ne {r q : RegId} (v : NumReg) (h : q ≠ r) : (s.setReg r v).reg q = s.reg q := by
  have h' : r.val ≠ q.val := fun e => h (Fin.ext e.symm)
  simp [State.reg, State.setReg, Vector.getElem_set_ne, h']

theorem State.reg_setReg (r q : RegId) (v : NumReg) :
    (s.setReg r v).reg q = if q = r then v else s.reg q := by
  by_cases h : q = r
  · subst h; simp
  · simp [h, State.reg_setReg_of_ne s v h]

@[simp] theorem State.reg_writeValue_same (r : RegId) (v : Int) : (s.writeValue r v).reg r = pack v :=
  State.reg_setReg_same s r (pack v)

theorem State.reg_writeValue_of_ne {r q : RegId} (v : Int) (h : q ≠ r) : (s.writeValue r v).reg q = s.reg q :=
  State.reg_setReg_of_ne s (pack v) h

@[simp] theorem State.reg_reset (r : RegId) : State.reset.reg r = NumReg.zero := by
  simp [State.reg, State.reset]

@[simp] theorem State.setFlags_reg (r : RegId) (f : Flags) : (s.setFlags f).reg r = s.reg r := rfl
@[simp] theorem State.retire_reg (r : RegId) (c : Code) : (s.retire c).reg r = s.reg r := rfl
@[simp] theorem State.recordAccessError_reg (r : RegId) (c : Code) (off : Nat) : (s.recordAccessError c off).reg r = s.reg r := rfl
@[simp] theorem State.acknowledge_reg (r : RegId) (d : Word) : (s.acknowledge d).reg r = s.reg r := rfl
@[simp] theorem State.issue_reg (r : RegId) (w : Word) : (s.issue w).reg r = s.reg r := rfl
@[simp] theorem State.respond_reg (r : RegId) (a : Response) : (s.respond a).reg r = s.reg r := rfl
@[simp] theorem State.placeCommand_reg (r : RegId) (w : Word) : (s.placeCommand w).reg r = s.reg r := rfl

@[simp] theorem State.resetEvent_reg (r : RegId) : s.resetEvent.reg r = NumReg.zero := State.reg_reset r

@[simp] theorem State.agenda_update_reg (es : List Event) (r : RegId) : State.reg { s with agenda := es } r = s.reg r := rfl

/-- Two states agree when their registers do and the remaining fields are equal. -/
theorem State.regs_ext {s t : State} (h : ∀ r : RegId, s.reg r = t.reg r) : s.x = t.x := by
  apply Vector.ext
  intro i hi
  exact h ⟨i, hi⟩

end Sys2Proof.Machine
end

