-- ==== Sys2Proof/Laws/Numbers.lean ====
section
/-! SUPPORT. The number format: capacity, truncated division, `pack`, `mag` and `val`, and what each register operation
keeps of the limb range. -/

namespace Sys2Proof.Machine

/-! ### Capacity and checked values -/

theorem cap_eq : CAP = RADIX ^ NLIMBS := by
  have h : (100 : Nat) ^ (103 + 103 + 103) = 100 ^ 103 * 100 ^ 103 * 100 ^ 103 := by
    rw [Nat.pow_add, Nat.pow_add]
  exact h.symm

theorem cap_pos : 0 < CAP := by decide +kernel

theorem one_lt_cap : 1 < CAP := by decide +kernel

theorem chk_of_lt {v : Int} (h : v.natAbs < CAP) : chk v = .ok v := if_pos h

theorem chk_of_ge {v : Int} (h : CAP ≤ v.natAbs) : chk v = .error .capacityOverflow := if_neg (Nat.not_lt.mpr h)

/-- Everything `chk` can do. -/
theorem chk_cases (v : Int) :
    (v.natAbs < CAP ∧ chk v = .ok v) ∨ (CAP ≤ v.natAbs ∧ chk v = .error .capacityOverflow) := by
  rcases Nat.lt_or_ge v.natAbs CAP with h | h
  · exact .inl ⟨h, chk_of_lt h⟩
  · exact .inr ⟨h, chk_of_ge h⟩

/-! ### Truncated division (00_scope.md R7) -/

theorem tquo_eq_tdiv (a b : Int) : tquo a b = a.tdiv b := by
  have key : ∀ m n : Nat, tquo (m : Int) (n : Int) = ((m / n : Nat) : Int) := by
    intro m n
    rcases Nat.eq_zero_or_pos m with rfl | hm
    · simp [tquo]
    rcases Nat.eq_zero_or_pos n with rfl | hn
    · simp [tquo]
    rw [tquo, Int.sign_eq_one_of_pos (by omega), Int.sign_eq_one_of_pos (by omega)]; simp
  have negl : ∀ x y : Int, tquo (-x) y = -tquo x y := by intro x y; simp [tquo]
  have negr : ∀ x y : Int, tquo x (-y) = -tquo x y := by intro x y; simp [tquo]
  rcases Int.eq_nat_or_neg a with ⟨m, rfl | rfl⟩ <;> rcases Int.eq_nat_or_neg b with ⟨n, rfl | rfl⟩ <;>
    simp [negl, negr, key, Int.neg_tdiv, Int.tdiv_neg]

theorem trem_eq_tmod (a b : Int) : trem a b = a.tmod b := by
  rw [trem, tquo_eq_tdiv, Int.tmod_def]

theorem natAbs_trem (a b : Int) : (trem a b).natAbs = a.natAbs % b.natAbs := by
  rw [trem_eq_tmod, Int.natAbs_tmod]

theorem natAbs_tquo (a b : Int) : (tquo a b).natAbs = a.natAbs / b.natAbs := by
  rw [tquo_eq_tdiv, Int.natAbs_tdiv]; rfl

/-- Evenness by the lowest limb is evenness of the magnitude (00_scope.md R8). -/
theorem evenVal_iff (v : Int) : evenVal v = true ↔ v.natAbs % 2 = 0 := by
  simp only [evenVal, beq_iff_eq]; omega

theorem lt_two_pow_bitLength (n : Nat) : n < 2 ^ bitLength n := by
  unfold bitLength
  split
  · omega
  · exact Nat.lt_log2_self

/-! ### `pack`, `mag` and `val` (10_state.md R32, R34) -/

theorem limbsValue_cons (l : Limb) (ls : List Limb) : limbsValue (l :: ls) = l.toNat + 100 * limbsValue ls := rfl

theorem packLimbs_inRange (k m : Nat) : ∀ l ∈ packLimbs k m, l.toNat ≤ 99 := by
  induction k generalizing m with
  | zero => simp [packLimbs]
  | succ k ih =>
    intro l hl
    rcases List.mem_cons.mp hl with rfl | hl
    · simp only [BitVec.toNat_ofNat]; omega
    · exact ih _ l hl

theorem limbsValue_packLimbs (k m : Nat) : limbsValue (packLimbs k m) = m % 100 ^ k := by
  induction k generalizing m with
  | zero => simp [packLimbs, limbsValue, Nat.mod_one]
  | succ k ih =>
    rw [packLimbs, limbsValue_cons, ih, Nat.pow_succ', Nat.mod_mul]
    simp only [BitVec.toNat_ofNat]
    rw [Nat.mod_eq_of_lt (show m % 100 < 2 ^ 7 by omega)]

theorem limbsValue_lt {ls : List Limb} (h : ∀ l ∈ ls, l.toNat ≤ 99) : limbsValue ls < 100 ^ ls.length := by
  induction ls with
  | nil => simp [limbsValue]
  | cons l ls ih =>
    have h1 := h l (List.mem_cons_self ..)
    have h2 := ih (fun x hx => h x (List.mem_cons_of_mem _ hx))
    rw [limbsValue_cons, List.length_cons, Nat.pow_succ']
    omega

theorem pack_inRange (v : Int) : (pack v).LimbsInRange := packLimbs_inRange NLIMBS v.natAbs

theorem zero_inRange : NumReg.zero.LimbsInRange := by
  intro l hl
  have := (List.mem_replicate.mp hl).2
  subst this; decide

theorem mag_lt_cap {r : NumReg} (h : r.LimbsInRange) : r.mag < CAP := by
  have h1 : r.mag < 100 ^ r.limbs.val.length := limbsValue_lt h
  exact lt_of_lt_of_eq (r.limbs.property ▸ h1) cap_eq.symm

theorem natAbs_val (r : NumReg) : r.val.natAbs = r.mag := by
  unfold NumReg.val; split <;> simp

theorem mag_pack (v : Int) : (pack v).mag = v.natAbs % CAP :=
  cap_eq ▸ limbsValue_packLimbs NLIMBS v.natAbs

/-- The reset contents of a register are `pack(0)` (10_state.md R34). -/
theorem zero_eq_pack : NumReg.zero = pack 0 := by decide +kernel

theorem allLimbsZero_iff (r : NumReg) : r.allLimbsZero = true ↔ r.mag = 0 := by
  unfold NumReg.allLimbsZero NumReg.mag
  induction r.limbs.val with
  | nil => simp [limbsValue]
  | cons l ls ih =>
    rw [limbsValue_cons, List.all_cons, Bool.and_eq_true, ih, beq_iff_eq, Nat.add_eq_zero_iff,
      Nat.mul_eq_zero, or_iff_right (by decide : ¬ (100 : Nat) = 0), ← BitVec.toNat_inj]
    rfl

/-! ### Limb range kept by every register write (10_state.md R30) -/

theorem setLimb_inRange {r : NumReg} (h : r.LimbsInRange) (i : Nat) {d : Limb} (hd : d.toNat ≤ 99) :
    (r.setLimb i d).LimbsInRange := by
  intro l hl
  rcases List.mem_or_eq_of_mem_set hl with hl | rfl
  · exact h l hl
  · exact hd

theorem setSign_inRange {r : NumReg} (h : r.LimbsInRange) (b : Bool) : (r.setSign b).LimbsInRange := h

theorem State.setReg_inRange {s : State} (h : s.LimbsInRange) (r : RegId) {v : NumReg} (hv : v.LimbsInRange) :
    (s.setReg r v).LimbsInRange := by
  intro q
  rw [State.reg_setReg]
  split
  · exact hv
  · exact h q

theorem State.writeValue_inRange {s : State} (h : s.LimbsInRange) (r : RegId) (v : Int) :
    (s.writeValue r v).LimbsInRange := State.setReg_inRange h r (pack_inRange v)

theorem State.reset_inRange : State.reset.LimbsInRange := by
  intro r; rw [State.reg_reset]; exact zero_inRange

/-! ### One limb of a register (20_memory.md R77) -/

theorem limb_setLimb_same {r : NumReg} {i : Nat} (hi : i < NLIMBS) (d : Limb) : (r.setLimb i d).limb i = d := by
  have : i < r.limbs.val.length := by rw [r.limbs.property]; exact hi
  simp [NumReg.limb, NumReg.setLimb, List.getD_eq_getElem?_getD, this]

theorem limb_setLimb_of_ne {r : NumReg} {i j : Nat} (h : j ≠ i) (d : Limb) : (r.setLimb i d).limb j = r.limb j := by
  simp [NumReg.limb, NumReg.setLimb, List.getD_eq_getElem?_getD, List.getElem?_set_ne (Ne.symm h)]

end Sys2Proof.Machine
end

