-- ==== Sys2Proof/Laws/Completion.lean ====
section
/-! SUPPORT. Everything a completion can do (spec/10_state.md R52), said once: an error leaves `erred`, a result with one or
two destinations writes exactly those, and every command is a completion with a legitimate result. -/

namespace Sys2Proof.Machine

/-! ### Codes -/

@[simp] theorem Code.byte_ok : Code.ok.byte = 0#8 := rfl
@[simp] theorem Code.byte_capacityOverflow : Code.capacityOverflow.byte = 2#8 := rfl
@[simp] theorem Code.byte_divisionByZero : Code.divisionByZero.byte = 3#8 := rfl
@[simp] theorem Code.byte_noModularInverse : Code.noModularInverse.byte = 4#8 := rfl
@[simp] theorem Code.byte_illegalCommand : Code.illegalCommand.byte = 6#8 := rfl
@[simp] theorem Code.byte_operandDomain : Code.operandDomain.byte = 8#8 := rfl

theorem Code.byte_eq_zero_iff (c : Code) : c.byte = 0#8 ↔ c = .ok := by cases c <;> decide

/-! ### Destinations and flags -/

@[simp] theorem State.writeDests_nil (s : State) : s.writeDests [] = s := rfl
@[simp] theorem State.writeDests_one (s : State) (r : RegId) (v : Int) :
    s.writeDests [(r, v)] = s.writeValue r v := rfl
@[simp] theorem State.writeDests_two (s : State) (r q : RegId) (v w : Int) :
    s.writeDests [(r, v), (q, w)] = (s.writeValue r v).writeValue q w := rfl

/-- Writing destinations changes no field but the register file. -/
theorem State.writeDests_eq (s : State) (ds : List (RegId × Int)) :
    s.writeDests ds = { s with x := (s.writeDests ds).x } := by
  induction ds generalizing s with
  | nil => rfl
  | cons d ds ih =>
    have h := ih (s.writeValue d.1 d.2)
    exact h

theorem State.writeDests_reg_of_not_mem (s : State) (ds : List (RegId × Int)) (r : RegId)
    (h : r ∉ ds.map Prod.fst) : (s.writeDests ds).reg r = s.reg r := by
  induction ds generalizing s with
  | nil => rfl
  | cons d ds ih =>
    simp only [List.map_cons, List.mem_cons, not_or] at h
    have h1 := ih (s.writeValue d.1 d.2) h.2
    rw [State.reg_writeValue_of_ne s d.2 h.1] at h1
    exact h1

/-- A written register holds a `pack`ed value. -/
theorem State.writeDests_reg_cases (s : State) (ds : List (RegId × Int)) (r : RegId) :
    (s.writeDests ds).reg r = s.reg r ∨ ∃ d ∈ ds, d.1 = r ∧ (s.writeDests ds).reg r = pack d.2 := by
  induction ds generalizing s with
  | nil => exact .inl rfl
  | cons d ds ih =>
    have step : (s.writeDests (d :: ds)).reg r = ((s.writeValue d.1 d.2).writeDests ds).reg r := rfl
    rcases ih (s.writeValue d.1 d.2) with h | ⟨e, he, h1, h2⟩
    · by_cases hr : r = d.1
      · subst hr
        refine .inr ⟨d, List.mem_cons_self .., rfl, ?_⟩
        rw [step, h, State.reg_writeValue_same]
      · exact .inl (by rw [step, h, State.reg_writeValue_of_ne s d.2 hr])
    · exact .inr ⟨e, List.mem_cons_of_mem _ he, h1, by rw [step]; exact h2⟩

theorem State.writeDests_inRange {s : State} (h : s.LimbsInRange) (ds : List (RegId × Int)) :
    (s.writeDests ds).LimbsInRange := by
  induction ds generalizing s with
  | nil => exact h
  | cons d ds ih => exact ih (State.writeValue_inRange h d.1 d.2)

/-! ### The completion step -/

/-- A code that writes no result leaves registers and flags alone (60_exceptions.md R211). -/
theorem State.complete_of_not_writes (s : State) (r : Result) (h : r.code.writesResults = false) :
    s.complete r = s.retire r.code := by
  simp [State.complete, State.applyResult, h]

/-- Taking a command error leaves exactly `erred` (R211). -/
theorem State.raise_eq_erred (s : State) (c : Code) (h : c.writesResults = false) :
    s.raise c = erred c.byte s := by
  have hc : c ≠ .ok := by rintro rfl; exact absurd h (by decide)
  rw [State.raise, State.complete_of_not_writes s _ h]
  simp [State.retire, erred, Result.raised, hc]

theorem State.complete_raised (s : State) (c : Code) (h : c.writesResults = false) :
    s.complete (Result.raised c) = erred c.byte s := State.raise_eq_erred s c h

/-- A completion that writes results is the destinations, then the flags, then CODE, SERR, DONE and BUSY. -/
theorem State.complete_of_writes (s : State) (r : Result) (h : r.code.writesResults = true) :
    s.complete r = ((s.writeDests r.dests).applyFlags r.flags).retire r.code := by
  simp [State.complete, State.applyResult, h]

theorem State.applyFlags_reg (s : State) (f : Option Flags) (r : RegId) : (s.applyFlags f).reg r = s.reg r := by
  cases f <;> rfl

/-- Everything outside the destinations, Z, N, CODE, SERR, DONE and BUSY is unchanged by a completion (R52). -/
theorem State.complete_same (s : State) (r : Result) :
    SameButCompletion (r.dests.map Prod.fst) s (s.complete r) := by
  by_cases h : r.code.writesResults = true
  · rw [State.complete_of_writes s r h]
    have e := State.writeDests_eq s r.dests
    refine ⟨fun q hq => ?_, ?_, ?_, ?_, ?_, ?_, ?_, ?_⟩
    · rw [State.retire_reg, State.applyFlags_reg, State.writeDests_reg_of_not_mem s _ q hq]
    all_goals (rw [e]; cases r.flags <;> rfl)
  · rw [State.complete_of_not_writes s r (by simpa using h)]
    exact ⟨fun _ _ => rfl, rfl, rfl, rfl, rfl, rfl, rfl, rfl⟩

theorem State.complete_code (s : State) (r : Result) : (s.complete r).code = r.code.byte := rfl
theorem State.complete_done (s : State) (r : Result) : (s.complete r).done = true := rfl
theorem State.complete_busy (s : State) (r : Result) : (s.complete r).busy = false := rfl

theorem State.applyResult_serr (s : State) (r : Result) : (s.applyResult r).serr = s.serr := by
  unfold State.applyResult
  split
  · rw [State.writeDests_eq s r.dests]; cases r.flags <;> rfl
  · rfl

theorem State.complete_serr (s : State) (r : Result) :
    (s.complete r).serr = (s.serr || decide (r.code ≠ .ok)) := by
  show ((s.applyResult r).serr || decide (r.code ≠ .ok)) = _
  rw [State.applyResult_serr]

/-- CODE, SERR, DONE and BUSY of any completion (R52). -/
theorem State.complete_completedAs (s : State) (r : Result) : CompletedAs r.code.byte s (s.complete r) := by
  refine ⟨rfl, ?_, rfl, rfl⟩
  rw [State.complete_serr]
  by_cases h : r.code = .ok
  · simp [h]
  · have : r.code.byte ≠ 0#8 := fun e => h ((Code.byte_eq_zero_iff _).mp e)
    simp [h, this]

/-- The one-destination completion, written out. -/
theorem State.complete_single (s : State) (rd : RegId) (v : Int) :
    s.complete (Result.single rd v) = ((s.writeValue rd v).setFlags (Flags.ofInt v)).retire .ok := rfl

/-- The quotient-and-remainder completion, written out. -/
theorem State.complete_quotRem (s : State) (rd re : RegId) (q r : Int) :
    s.complete (Result.quotRem rd re q r)
      = (((s.writeValue rd q).writeValue re r).setFlags (Flags.ofInt q)).retire .ok := rfl

/-! ### Every command is a completion with a legitimate result -/

/-- What the results of the twelve commands have in common: a completion code, and flags that do not contradict each
other. -/
structure Result.Legit (r : Result) : Prop where
  code : r.code.byte ∈ completionCodes
  flags : ∀ f, r.flags = some f → ¬ (f.z = true ∧ f.n = true)

theorem Flags.ofInt_exclusive (v : Int) : ¬ ((Flags.ofInt v).z = true ∧ (Flags.ofInt v).n = true) := by
  simp only [Flags.ofInt, decide_eq_true_eq]; omega

theorem Result.raised_legit {c : Code} (h : c.byte ∈ completionCodes) : (Result.raised c).Legit :=
  ⟨h, by simp [Result.raised]⟩

theorem Result.single_legit (rd : RegId) (v : Int) : (Result.single rd v).Legit :=
  ⟨by show (0#8 : BitVec 8) ∈ completionCodes; decide,
    by intro f hf; cases hf; exact Flags.ofInt_exclusive v⟩

theorem Result.quotRem_legit (rd re : RegId) (q r : Int) : (Result.quotRem rd re q r).Legit :=
  ⟨by show (0#8 : BitVec 8) ∈ completionCodes; decide,
    by intro f hf; cases hf; exact Flags.ofInt_exclusive q⟩

theorem Result.noInverse_legit (rd : RegId) : (Result.noInverse rd).Legit :=
  ⟨by show (4#8 : BitVec 8) ∈ completionCodes; decide, by intro f hf; cases hf; simp⟩

/-- The errors a checked computation of a command can end with. -/
def ErrorsIn (codes : List Code) : Except Code Int → Prop
  | .ok _ => True
  | .error c => c ∈ codes

theorem Result.ofChecked_legit (rd : RegId) {e : Except Code Int}
    (h : ErrorsIn [.capacityOverflow, .divisionByZero] e) : (Result.ofChecked rd e).Legit := by
  cases e with
  | ok v => exact Result.single_legit rd v
  | error c =>
    have hc : c = .capacityOverflow ∨ c = .divisionByZero := by simpa [ErrorsIn] using h
    rcases hc with rfl | rfl <;> exact Result.raised_legit (by decide)

theorem chk_errors (v : Int) : ErrorsIn [.capacityOverflow] (chk v) := by
  rcases chk_cases v with ⟨_, h⟩ | ⟨_, h⟩ <;> rw [h] <;> simp [ErrorsIn]

theorem ErrorsIn.mono {cs ds : List Code} (h : ∀ c ∈ cs, c ∈ ds) {e : Except Code Int} (he : ErrorsIn cs e) :
    ErrorsIn ds e := by
  cases e with
  | ok => trivial
  | error c => exact h c he

theorem prependValue_errors (v : Int) (k : Nat) : ErrorsIn [.capacityOverflow] (prependValue v k) := by
  unfold prependValue; split <;> simp [ErrorsIn]

theorem mulValue_errors (a b : Int) : ErrorsIn [.capacityOverflow] (mulValue a b) := by
  unfold mulValue; split
  · trivial
  · exact chk_errors _

theorem modExpAcc_errors (base acc e m : Int) : ErrorsIn [.capacityOverflow] (modExpAcc base acc e m) := by
  unfold modExpAcc; split
  · trivial
  · rcases chk_cases (acc * base) with ⟨_, h⟩ | ⟨_, h⟩ <;> rw [h] <;> simp [ErrorsIn]

theorem modExpLoop_errors (fuel : Nat) (base acc e m : Int) :
    ErrorsIn [.capacityOverflow] (modExpLoop fuel base acc e m) := by
  induction fuel generalizing base acc e with
  | zero => trivial
  | succ fuel ih =>
    unfold modExpLoop; split
    · trivial
    · have h1 := modExpAcc_errors base acc e m
      cases h2 : modExpAcc base acc e m with
      | error c => rw [h2] at h1; exact h1
      | ok a =>
        rcases chk_cases (base * base) with ⟨_, h⟩ | ⟨_, h⟩
        · simp only [h]; exact ih _ _ _
        · simp only [h]; simp [ErrorsIn]

theorem modExpPipe_errors (b e m : Int) : ErrorsIn [.capacityOverflow] (modExpPipe b e m) :=
  modExpLoop_errors _ _ _ _ _

theorem modExpValue_errors (b e m : Int) : ErrorsIn [.capacityOverflow, .divisionByZero] (modExpValue b e m) := by
  unfold modExpValue
  split
  · simp [ErrorsIn]
  split
  · trivial
  split
  · trivial
  · exact (modExpPipe_errors b e m).mono (by simp)

theorem squareLoop_errors (left : Nat) (y n : Int) : ErrorsIn [.capacityOverflow] (squareLoop left y n) := by
  induction left generalizing y with
  | zero => trivial
  | succ left ih =>
    unfold squareLoop
    rcases chk_cases (y * y) with ⟨_, h⟩ | ⟨_, h⟩
    · simp only [h]
      split
      · trivial
      split
      · trivial
      · exact ih _
    · simp only [h]; simp [ErrorsIn]

theorem isPrimeValue_errors (n : Int) : ErrorsIn [.capacityOverflow] (isPrimeValue n) := by
  unfold isPrimeValue
  split
  · trivial
  split
  · trivial
  split
  · trivial
  · unfold witnessTest
    have h1 := modExpPipe_errors WITNESS (decompose (bitLength n.natAbs) (n - 1) 0).1 n
    cases h2 : modExpPipe WITNESS (decompose (bitLength n.natAbs) (n - 1) 0).1 n with
    | error c => rw [h2] at h1; exact h1
    | ok y =>
      simp only
      split
      · trivial
      · exact squareLoop_errors _ _ _

theorem checkedMulSub_cases (a q b : Int) :
    checkedMulSub a q b = .ok (a - q * b) ∨ checkedMulSub a q b = .error .capacityOverflow := by
  unfold checkedMulSub
  rcases chk_cases (q * b) with ⟨_, h⟩ | ⟨_, h⟩ <;> simp only [h]
  · rcases chk_cases (a - q * b) with ⟨_, h'⟩ | ⟨_, h'⟩ <;> simp [h']
  · simp

/-- EuclidPipe ends with a result or with CapacityOverflow. -/
theorem euclidLoop_errors (fuel : Nat) (a2 a3 b2 b3 : Int) (c : Code) (h : euclidLoop fuel a2 a3 b2 b3 = .error c) :
    c = .capacityOverflow := by
  induction fuel generalizing a2 a3 b2 b3 with
  | zero => simp [euclidLoop] at h
  | succ fuel ih =>
    unfold euclidLoop at h
    split at h
    · cases h
    split at h
    · cases h
    · rcases checkedMulSub_cases a2 (tquo a3 b3) b2 with h1 | h1 <;> rw [h1] at h <;> simp only at h
      · rcases checkedMulSub_cases a3 (tquo a3 b3) b3 with h2 | h2 <;> rw [h2] at h <;> simp only at h
        · exact ih _ _ _ _ h
        · cases h; rfl
      · cases h; rfl

theorem modInvResult_legit (rd : RegId) (v m : Int) : (modInvResult rd v m).Legit := by
  unfold modInvResult
  split
  · exact Result.raised_legit (by decide)
  split
  · exact Result.raised_legit (by decide)
  · split
    · next c h =>
      rw [euclidLoop_errors _ _ _ _ _ c h]; exact Result.raised_legit (by decide)
    · exact Result.noInverse_legit rd
    · exact Result.single_legit rd _

/-- Every command, on every state and with every operand, is one completion with a legitimate result: no command faults,
is refused or hangs (70_reset_and_hazards.md R258). -/
theorem exec_eq_complete (i : Instr) (s : State) : ∃ r : Result, r.Legit ∧ exec i s = .next (s.complete r) := by
  have ill : (Result.raised .illegalCommand).Legit := Result.raised_legit (by decide)
  have ovf : ∀ rd e, ErrorsIn [.capacityOverflow] e → (Result.ofChecked rd e).Legit :=
    fun rd e h => Result.ofChecked_legit rd (h.mono (by simp))
  cases i with
  | clr rd => exact ⟨_, Result.single_legit rd 0, rfl⟩
  | copy rd rs1 => exact ⟨_, Result.single_legit rd _, rfl⟩
  | prepend rd rs1 imm =>
    by_cases h : imm.toNat ≤ 99
    · exact ⟨_, ovf rd _ (prependValue_errors _ _), by simp [exec, execPrepend, h]; rfl⟩
    · exact ⟨_, ill, by simp [exec, execPrepend, h, State.raise]⟩
  | iszero rs1 =>
    refine ⟨_, ⟨by show (0#8 : BitVec 8) ∈ completionCodes; decide, ?_⟩, rfl⟩
    rintro f hf ⟨hz, hn⟩
    cases hf
    have hm := (allLimbsZero_iff _).mp hz
    have hv : (s.value rs1).natAbs = 0 := (natAbs_val _).trans hm
    have hn : s.value rs1 < 0 := by simpa using hn
    omega
  | add rd rs1 rs2 => exact ⟨_, ovf rd _ (chk_errors _), rfl⟩
  | sub rd rs1 rs2 => exact ⟨_, ovf rd _ (chk_errors _), rfl⟩
  | mul rd rs1 rs2 => exact ⟨_, ovf rd _ (mulValue_errors _ _), rfl⟩
  | divs rd re rs1 rs2 =>
    by_cases h : rd = re
    · exact ⟨_, ill, by simp [exec, execDivs, h, State.raise]⟩
    · refine ⟨divsResult rd re (s.value rs1) (s.value rs2), ?_, by simp [exec, execDivs, h]⟩
      unfold divsResult
      split
      · exact Result.raised_legit (by decide)
      split
      · exact Result.raised_legit (by decide)
      · exact Result.quotRem_legit ..
  | divl rd re rs1 rs2 =>
    by_cases h : rd = re
    · exact ⟨_, ill, by simp [exec, execDivl, h, State.raise]⟩
    · refine ⟨divlResult rd re (s.value rs1) (s.value rs2), ?_, by simp [exec, execDivl, h]⟩
      unfold divlResult
      split
      · exact Result.raised_legit (by decide)
      · exact Result.quotRem_legit ..
  | modexp rd rs1 rs2 rs3 => exact ⟨_, Result.ofChecked_legit rd (modExpValue_errors _ _ _), rfl⟩
  | modinv rd rs1 rs2 => exact ⟨_, modInvResult_legit rd _ _, rfl⟩
  | isprime rd rs1 => exact ⟨_, ovf rd _ (isPrimeValue_errors _), rfl⟩

end Sys2Proof.Machine
end

