-- ==== Sys2Proof/Laws/Bus.lean ====
section
/-! SUPPORT. Everything a host transaction can do (spec/20_memory.md R72 to R80), said once, by cases. -/

namespace Sys2Proof.Machine

/-- Everything a well-formed read can do (R76, R78): answer, or record an access error on a window offset. -/
theorem readWord_cases (off : Nat) (s : State) :
    (∃ d, readWord off s = (s, d)) ∨
      (windowStart ≤ off ∧
        ((s.busy = true ∧ readWord off s = (s.recordAccessError .busyAccess off, 0#32)) ∨
          (s.busy = false ∧ 309 < windowIndex off ∧
            readWord off s = (s.recordAccessError .indexOutOfRange off, 0#32)))) := by
  unfold readWord
  split
  · exact .inl ⟨_, rfl⟩
  next hw =>
    have hw : windowStart ≤ off := Nat.not_lt.mp hw
    unfold readWindow
    split
    next hb => exact .inr ⟨hw, .inl ⟨hb, rfl⟩⟩
    next hb =>
      split
      next hi => exact .inr ⟨hw, .inr ⟨by simpa using hb, hi, rfl⟩⟩
      · split <;> exact .inl ⟨_, rfl⟩

/-- What a well-formed write does to the state (R77, R79, R80). -/
inductive WriteEffect (off : Nat) (d : Word) (s : State) : State → Prop where
  /-- read-only and reserved control offsets -/
  | ignored : WriteEffect off d s s
  | ctrl : WriteEffect off d s { s with ie := d.getLsbD 0 }
  | ack : WriteEffect off d s (s.acknowledge d)
  | issued (h : s.busy = false) (ho : off = offCMD) : WriteEffect off d s (s.issue d)
  | cmdRejected (h : s.busy = true) (ho : off = offCMD) :
      WriteEffect off d s (s.recordAccessError .busyAccess offCMD)
  | winRejected (c : Code) (hw : windowStart ≤ off) (hc : c ∈ [Code.busyAccess, .indexOutOfRange, .malformedInput]) :
      WriteEffect off d s (s.recordAccessError c off)
  | sign (h : s.busy = false) (hw : windowStart ≤ off) :
      WriteEffect off d s (s.setReg (windowReg off) ((s.reg (windowReg off)).setSign (d.getLsbD 0)))
  | limb (h : s.busy = false) (hw : windowStart ≤ off) (hi : windowIndex off < NLIMBS) (hd : d.toNat ≤ 99) :
      WriteEffect off d s
        (s.setReg (windowReg off) ((s.reg (windowReg off)).setLimb (windowIndex off) (d.setWidth 7)))

theorem writeWord_cases (off : Nat) (d : Word) (s : State) : WriteEffect off d s (writeWord off d s) := by
  unfold writeWord
  split
  · unfold writeControl
    split
    · exact .ctrl
    split
    · exact .ack
    split
    next h =>
      unfold writeCmd
      split
      next hb => exact .cmdRejected hb h
      next hb => exact .issued (by simpa using hb) h
    · exact .ignored
  next hw =>
    have hw : windowStart ≤ off := Nat.not_lt.mp hw
    unfold writeWindow
    split
    · exact .winRejected _ hw (by simp)
    next hb =>
      have hb : s.busy = false := by simpa using hb
      split
      · exact .winRejected _ hw (by simp)
      next hi =>
        split
        · split
          · exact .sign hb hw
          · exact .winRejected _ hw (by simp)
        next hne =>
          split
          next hd => exact .limb hb hw (by show windowIndex off < 309; omega) hd
          · exact .winRejected _ hw (by simp)

/-- Every transaction either changes nothing but the answer, or is a well-formed read or write (R72, R73). -/
theorem perform_cases (t : Txn) (s : State) :
    (∃ a, t.perform s = s.respond a) ∨
      (t.off % 4 = 0 ∧ ∃ a, t.perform s = (readWord t.off s).1.respond a) ∨
      (t.off % 4 = 0 ∧ ∃ d a, t.perform s = (writeWord t.off d s).respond a) := by
  cases t with
  | read off size =>
    simp only [Txn.perform, hostRead, Txn.off]
    split
    next h =>
      have h4 : off % 4 = 0 := by simp [wellFormedAccess] at h; exact h.2
      exact .inr (.inl ⟨h4, _, rfl⟩)
    · exact .inl ⟨_, rfl⟩
  | write off size d =>
    simp only [Txn.perform, hostWrite, Txn.off]
    split
    next h =>
      have h4 : off % 4 = 0 := by simp [wellFormedAccess] at h; exact h.2
      exact .inr (.inr ⟨h4, _, _, rfl⟩)
    · exact .inl ⟨_, rfl⟩

/-- A transaction that answers a next state reached the block, and performed its effect (R71, R72). -/
theorem hostTransaction_next {x : Txn} {s t : State} (h : hostTransaction x s = .next t) :
    x.off < blockSize ∧ t = x.perform s := by
  unfold hostTransaction at h
  split at h
  next hb => cases h; exact ⟨hb, rfl⟩
  · cases h

/-- A well-formed read answers OK with the word read (R72). -/
theorem perform_read_wellFormed {off : Nat} (h : off % 4 = 0) (s : State) :
    (Txn.read off 4).perform s = (readWord off s).1.respond (.read (readWord off s).2 .ok) := by
  simp [Txn.perform, hostRead, wellFormedAccess, h]

/-- The state after a well-formed read, exactly: changed only by a rejected window read (R74, R76). -/
theorem readWord_state (off : Nat) (s : State) :
    (readWord off s).1 =
      if windowStart ≤ off then
        if s.busy then s.recordAccessError .busyAccess off
        else if 309 < windowIndex off then s.recordAccessError .indexOutOfRange off
        else s
      else s := by
  unfold readWord readWindow
  by_cases h : off < windowStart
  · simp [h, Nat.not_le.mpr h]
  · simp only [h, Nat.not_lt.mp h, if_true, if_false]
    split
    · rfl
    · split
      · rfl
      · split <;> rfl

/-- Acknowledging the same bits again changes nothing (R74). -/
@[simp] theorem State.acknowledge_respond_acknowledge (s : State) (d : Word) (a : Response) :
    ((s.acknowledge d).respond a).acknowledge d = (s.acknowledge d).respond a := by
  simp [State.acknowledge, State.respond]

/-- While a command runs, no transaction touches it, its registers or the agenda (R87). -/
theorem perform_busy (x : Txn) {s : State} (hb : s.busy = true) :
    (x.perform s).busy = true ∧ (x.perform s).cmdw = s.cmdw ∧ (x.perform s).x = s.x ∧
      (x.perform s).agenda = s.agenda := by
  rcases perform_cases x s with ⟨a, h⟩ | ⟨_, a, h⟩ | ⟨_, d, a, h⟩ <;> rw [h]
  · exact ⟨hb, rfl, rfl, rfl⟩
  · rcases readWord_cases x.off s with ⟨d, h⟩ | ⟨_, ⟨_, h⟩ | ⟨_, _, h⟩⟩ <;> rw [h] <;> exact ⟨hb, rfl, rfl, rfl⟩
  · have hw := writeWord_cases x.off d s
    generalize writeWord x.off d s = t at hw
    cases hw with
    | issued h _ | sign h _ | limb h _ _ _ => exact absurd hb (by simp [h])
    | ignored | ctrl | ack | cmdRejected _ _ | winRejected _ _ _ => exact ⟨hb, rfl, rfl, rfl⟩

/-- A read leaves the interrupt line. -/
theorem irq_readWord (off : Nat) (s : State) : irq (readWord off s).1 = irq s := by
  rcases readWord_cases off s with ⟨d, h⟩ | ⟨_, ⟨_, h⟩ | ⟨_, _, h⟩⟩ <;> rw [h] <;> rfl

/-- A window offset names the register and the word it was made from (R75). -/
theorem window_of_base (r : RegId) (i : Nat) (h : i < 512) :
    windowReg (windowBase r + 4 * i) = r ∧ windowIndex (windowBase r + 4 * i) = i := by
  have hr := r.isLt
  refine ⟨Fin.ext ?_, ?_⟩
  · simp only [windowReg, windowBase, Fin.ofNat]; omega
  · simp only [windowIndex, windowBase]; omega

end Sys2Proof.Machine
end

