-- ==== Sys2Proof/Laws/PerInstr.lean ====
section
/-! SUPPORT. Families of facts about a command as syntax, one lemma per constructor (LAWS.json "per_instruction"). -/

namespace Sys2Proof.Laws.EncodingFits

/-- The encoded word of a command, well-formed or not, has its row's fixed bits: its opcode, and 0 in every unused field and
in RSV (spec/30_encoding.md R103, R104). -/
def Statement (i : Instr) : Prop := matchesRow (encode i) i.op = true

theorem clr (rd : RegId) : Statement (.clr rd) := by
  unfold Statement; revert rd; decide +kernel

theorem copy (rd rs1 : RegId) : Statement (.copy rd rs1) := by
  unfold Statement; revert rd rs1; decide +kernel

theorem prepend (rd rs1 : RegId) (imm : BitVec 7) : Statement (.prepend rd rs1 imm) := by
  obtain ⟨k⟩ := imm
  unfold Statement; revert rd rs1 k; decide +kernel

theorem iszero (rs1 : RegId) : Statement (.iszero rs1) := by
  unfold Statement; revert rs1; decide +kernel

theorem add (rd rs1 rs2 : RegId) : Statement (.add rd rs1 rs2) := by
  unfold Statement; revert rd rs1 rs2; decide +kernel

theorem sub (rd rs1 rs2 : RegId) : Statement (.sub rd rs1 rs2) := by
  unfold Statement; revert rd rs1 rs2; decide +kernel

theorem mul (rd rs1 rs2 : RegId) : Statement (.mul rd rs1 rs2) := by
  unfold Statement; revert rd rs1 rs2; decide +kernel

theorem divs (rd re rs1 rs2 : RegId) : Statement (.divs rd re rs1 rs2) := by
  unfold Statement; revert rd re rs1 rs2; decide +kernel

theorem divl (rd re rs1 rs2 : RegId) : Statement (.divl rd re rs1 rs2) := by
  unfold Statement; revert rd re rs1 rs2; decide +kernel

theorem modexp (rd rs1 rs2 rs3 : RegId) : Statement (.modexp rd rs1 rs2 rs3) := by
  unfold Statement; revert rd rs1 rs2 rs3; decide +kernel

theorem modinv (rd rs1 rs2 : RegId) : Statement (.modinv rd rs1 rs2) := by
  unfold Statement; revert rd rs1 rs2; decide +kernel

theorem isprime (rd rs1 : RegId) : Statement (.isprime rd rs1) := by
  unfold Statement; revert rd rs1; decide +kernel

end Sys2Proof.Laws.EncodingFits
end

