-- ==== Sys2Proof/Laws/Step.lean ====
section
/-! SUPPORT. Everything one step can do (spec/20_memory.md R84), said once. -/

namespace Sys2Proof.Machine

/-- Completing the in-flight command, legal or not, is one completion with a legitimate result. -/
theorem completion_eq_complete (s : State) : ∃ r : Result, r.Legit ∧ completion s = .next (s.complete r) := by
  unfold completion
  split
  next i _ => exact exec_eq_complete i s
  · exact ⟨_, Result.raised_legit (by decide), rfl⟩

theorem completionTurn_cases (s : State) :
    (s.busy = false ∧ completionTurn s = .next s) ∨
      (s.busy = true ∧ ∃ r : Result, r.Legit ∧ completionTurn s = .next (s.complete r)) := by
  unfold completionTurn
  split
  next h => exact .inr ⟨h, completion_eq_complete s⟩
  next h => exact .inl ⟨by simpa using h, rfl⟩

/-- What a step that answers a next state did, `s` being the state with the taken event removed from its agenda. -/
inductive StepEffect (s : State) : State → Prop where
  | idle (h : s.busy = false) : StepEffect s s
  | completed (r : Result) (h : s.busy = true) (hr : r.Legit) : StepEffect s (s.complete r)
  | transaction (t : Txn) (h : t.off < blockSize) : StepEffect s (t.perform s)
  | reset : StepEffect s s.resetEvent

theorem takeEvent_effect {e : Event} {s t : State} (h : takeEvent e s = .next t) : StepEffect s t := by
  cases e with
  | host x =>
    unfold takeEvent hostTransaction at h
    simp only at h
    split at h
    next hb => cases h; exact .transaction x hb
    · cases h
  | completion =>
    rcases completionTurn_cases s with ⟨hb, hc⟩ | ⟨hb, r, hr, hc⟩
    · rw [takeEvent, hc] at h; cases h; exact .idle hb
    · rw [takeEvent, hc] at h; cases h; exact .completed r hb hr
  | reset => cases h; exact .reset

/-- The inversion of `step`: the taken event, if any, and its effect. -/
theorem step_cases {s t : State} (h : step s = .next t) :
    (s.agenda = [] ∧ StepEffect s t) ∨
      (∃ e rest, s.agenda = e :: rest ∧ takeEvent e { s with agenda := rest } = .next t ∧
        StepEffect { s with agenda := rest } t) := by
  unfold step advance at h
  split at h
  next ha =>
    refine .inl ⟨ha, ?_⟩
    rcases completionTurn_cases s with ⟨hb, hc⟩ | ⟨hb, r, hr, hc⟩
    · rw [hc] at h; cases h; exact .idle hb
    · rw [hc] at h; cases h; exact .completed r hb hr
  next e rest ha => exact .inr ⟨e, rest, ha, h, takeEvent_effect h⟩

/-- The core's completion is due: nothing else is to come first. -/
theorem step_of_due {s : State} (h : s.agenda = [] ∨ s.agenda.head? = some .completion) :
    step s = completionTurn { s with agenda := s.agenda.tail } := by
  rcases s with ⟨x, ie, busy, done, serr, accerr, z, n, code, cmdw, acccode, accoff, agenda, response⟩
  cases agenda with
  | nil => rfl
  | cons e rest => simp at h; subst h; rfl

theorem completionTurn_of_busy {s : State} (h : s.busy = true) : completionTurn s = completion s := by
  simp [completionTurn, h]

theorem completion_of_decode {s : State} {i : Instr} (h : decode s.cmdw = .ok i) : completion s = exec i s := by
  simp [completion, h]

/-- A word that does not decode completes with IllegalCommand (30_encoding.md R105). -/
theorem completion_of_undecodable {s : State} (h : ¬ ∃ i, decode s.cmdw = .ok i) :
    completion s = .next (s.raise .illegalCommand) := by
  unfold completion
  split
  next i hi => exact absurd ⟨i, hi⟩ h
  · rfl

/-! ### Runs of several steps -/

theorem core_run_next {s t : State} (k : Nat) (h : step s = .next t) : core.run (k + 1) s = core.run k t := by
  have h' : core.step s = .next t := h
  simp only [Host.Core.run, h']

/-- One more step at the end of a run. -/
theorem core_run_step {k : Nat} {s u v : State} (h : core.run k s = .next u) (hv : step u = .next v) :
    core.run (k + 1) s = .next v := by
  induction k generalizing s with
  | zero => cases h; exact core_run_next 0 hv
  | succ k ih =>
    cases hs : step s with
    | next w => rw [core_run_next _ hs] at h ⊢; exact ih h
    | fault f =>
      have hs' : core.step s = .fault f := hs
      simp [Host.Core.run, hs'] at h
    | refused f =>
      have hs' : core.step s = .refused f := hs
      simp [Host.Core.run, hs'] at h

/-- A placed command is completed by the very next step. -/
theorem step_placeCommand (s : State) (w : Word) : step (s.placeCommand w) = completion (s.issue w) := rfl

end Sys2Proof.Machine
end

