-- ==== Sys2Proof/Tests/Slice0.lean ====
section
/-! SUPPORT. Small tests whose expected values are the spec's (95_test_vectors.md unless a test says otherwise), and for
every statement a witness that its hypotheses can be met, clause by clause. -/

-- Many small kernel evaluations: checked one after another, so that they do not each take a thread.
set_option Elab.async false

namespace Sys2Proof.Tests

open Sys2Proof Sys2Proof.Machine

/-- A predicate on the next state; false on a fault or a refusal. -/
def next? (o : Host.Outcome State Fault Refusal) (p : State → Bool) : Bool :=
  match o with
  | .next t => p t
  | .fault _ => false
  | .refused _ => false

/-- The reset state with values in the first registers. -/
def regs (vs : List (RegId × Int)) : State := State.reset.writeDests vs

theorem regs_inRange (vs : List (RegId × Int)) : (regs vs).LimbsInRange :=
  State.writeDests_inRange State.reset_inRange vs

/-- X0 and X1. -/
def two (a b : Int) : State := regs [(0, a), (1, b)]

/-- X0, X1 and X2. -/
def three (a b c : Int) : State := regs [(0, a), (1, b), (2, c)]

/-- The reset state with a negative zero in X0 (10_state.md R33). -/
def negZero0 : State := State.reset.setReg 0 (NumReg.zero.setSign true)

/-- X0 = 100^308: limb 308 is 1. -/
def top308 : State := regs [(0, 100 ^ 154 * 100 ^ 154)]

/-- A busy state with a latched word. -/
def busyWith (w : Word) : State := State.reset.issue w

/-! ### WellFormed refuses each ill-formed term (30_encoding.md R105) -/

theorem test_prepend_100_ill_formed : (Instr.prepend 0 0 100#7).wellFormed = false := by decide
theorem test_prepend_99_well_formed : (Instr.prepend 0 0 99#7).wellFormed = true := by decide
theorem test_divs_same_ill_formed : (Instr.divs 2 2 0 1).wellFormed = false := by decide
theorem test_divl_same_ill_formed : (Instr.divl 2 2 0 1).wellFormed = false := by decide

/-! ### Decoding of words written out bit by bit from 30_encoding.md R100 (RSV, IMM7, RS3, RS2, RS1, RE, RD, OP) -/

theorem test_decode_clr : decode 0b0000_0000000_000_000_000_000_011_000001#32 = .ok (.clr 3) := by decide +kernel
theorem test_decode_copy : decode 0b0000_0000000_000_000_010_000_001_000010#32 = .ok (.copy 1 2) := by decide +kernel
theorem test_decode_prepend :
    decode 0b0000_0000101_000_000_110_000_001_000011#32 = .ok (.prepend 1 6 5#7) := by decide +kernel
theorem test_decode_iszero : decode 0b0000_0000000_000_000_011_000_000_000100#32 = .ok (.iszero 3) := by decide +kernel
theorem test_decode_add : decode 0b0000_0000000_000_001_100_000_010_001000#32 = .ok (.add 2 4 1) := by decide +kernel
theorem test_decode_sub : decode 0b0000_0000000_000_001_010_000_011_001001#32 = .ok (.sub 3 2 1) := by decide +kernel
theorem test_decode_mul : decode 0b0000_0000000_000_101_100_000_111_001010#32 = .ok (.mul 7 4 5) := by decide +kernel
theorem test_decode_divs : decode 0b0000_0000000_000_001_100_011_010_001011#32 = .ok (.divs 2 3 4 1) := by decide +kernel
theorem test_decode_divl : decode 0b0000_0000000_000_011_111_100_110_001100#32 = .ok (.divl 6 4 7 3) := by decide +kernel
theorem test_decode_modexp :
    decode 0b0000_0000000_010_100_011_000_101_010000#32 = .ok (.modexp 5 3 4 2) := by decide +kernel
theorem test_decode_modinv :
    decode 0b0000_0000000_000_011_100_000_101_010001#32 = .ok (.modinv 5 4 3) := by decide +kernel
theorem test_decode_isprime : decode 0b0000_0000000_000_000_110_000_011_010010#32 = .ok (.isprime 3 6) := by decide +kernel

/-- V-ENC: the printed legal and illegal words. -/
theorem test_legal_words : [0x00000001#32, 0x00000041, 0x00001043, 0x0C600003, 0x0000868C, 0x00080010].all legal = true := by
  decide +kernel
theorem test_illegal_words :
    [0x00000000#32, 0x00000005, 0x0000003F, 0x0000007F, 0xFFFFFFFF, 0x00000201, 0x00001001, 0x10000001, 0x00000044,
      0x0C800003, 0x0000000C, 0x00200010].any legal = false := by decide +kernel

/-- The opcode table's masks and matches do not overlap: no word matches two rows (R103). -/
theorem test_rows_do_not_overlap :
    allOps.Pairwise (fun o p => opMatch o &&& (opMask o &&& opMask p) ≠ opMatch p &&& (opMask o &&& opMask p)) := by
  decide +kernel

/-! ### Commands (V-tables) -/

theorem test_clr_negative_zero : next? (exec (.clr 0) negZero0) (fun t => !(t.reg 0).sign && t.z && !t.n) = true := by
  decide +kernel
theorem test_copy_normalizes : next? (exec (.copy 1 0) negZero0) (fun t => !(t.reg 1).sign && (t.reg 0).sign && t.z) = true := by
  decide +kernel
theorem test_prepend_negative :
    next? (exec (.prepend 1 1 5#7) (two 0 (-4))) (fun t => t.value 1 == -405 && t.n && !t.z) = true := by decide +kernel
theorem test_prepend_overflow :
    next? (exec (.prepend 3 0 0#7) top308) (fun t => t.value 3 == 0 && t.code == 2#8 && t.serr) = true := by decide +kernel
theorem test_iszero_negative : next? (exec (.iszero 0) (two (-1) 0)) (fun t => !t.z && t.n && t.code == 0#8) = true := by
  decide +kernel
theorem test_add_carry :
    next? (exec (.add 2 0 1) (two 99 1)) (fun t => ((t.reg 2).limb 0, (t.reg 2).limb 1) == (0#7, 1#7) && !t.z) = true := by
  decide +kernel
theorem test_add_overflow :
    next? (exec (.add 2 0 1) (two (CAP - 1) 1)) (fun t => t.value 2 == 0 && t.code == 2#8) = true := by decide +kernel
theorem test_sub_negative : next? (exec (.sub 2 0 1) (two 5 12)) (fun t => t.value 2 == -7 && t.n) = true := by
  decide +kernel
theorem test_mul_signs : next? (exec (.mul 2 0 1) (two (-25) 4)) (fun t => t.value 2 == -100 && t.n) = true := by
  decide +kernel
theorem test_mul_zero_is_positive : next? (exec (.mul 2 0 1) (two (-3) 0)) (fun t => !(t.reg 2).sign && t.z) = true := by
  decide +kernel
theorem test_divs_negative :
    next? (exec (.divs 2 3 0 1) (two (-693) 7)) (fun t => t.value 2 == -99 && t.value 3 == 0 && t.n) = true := by
  decide +kernel
theorem test_divs_quotient_100 : next? (exec (.divs 2 3 0 1) (two 700 7)) (fun t => t.code == 2#8) = true := by
  decide +kernel
theorem test_divl_signs :
    next? (exec (.divl 2 3 0 1) (two (-7) 2)) (fun t => t.value 2 == -3 && t.value 3 == -1 && t.n) = true := by
  decide +kernel
theorem test_divl_by_negative_zero :
    next? (exec (.divl 2 3 1 0) negZero0) (fun t => t.code == 3#8 && t.serr && t.done) = true := by decide +kernel
theorem test_modexp_rsa : next? (exec (.modexp 3 0 1 2) (three 65 17 3233)) (fun t => t.value 3 == 2790) = true := by
  decide +kernel
theorem test_modexp_negative_base :
    next? (exec (.modexp 3 0 1 2) (three (-2) 3 5)) (fun t => t.value 3 == -3 && t.n) = true := by decide +kernel
theorem test_modinv_rsa : next? (exec (.modinv 2 0 1) (two 17 3120)) (fun t => t.value 2 == 2753) = true := by
  decide +kernel
theorem test_modinv_none :
    next? (exec (.modinv 2 0 1) (two 4 8)) (fun t => t.value 2 == -1 && statusWord t == 0x00020406#32) = true := by
  decide +kernel
theorem test_isprime_pseudoprime : next? (exec (.isprime 1 0) (two 2047 0)) (fun t => t.value 1 == 1 && !t.z) = true := by
  decide +kernel
theorem test_isprime_composite : next? (exec (.isprime 1 0) (two 9797 5)) (fun t => t.value 1 == 0 && t.z) = true := by
  decide +kernel

/-! ### The bus (V-ACC) -/

theorem test_read_status_after_error :
    next? (hostTransaction (.read 0x00C 4) { two (-7) 2 with code := 3#8, serr := true, done := true, n := true })
      (fun t => t.response == some (.read 0x00020306#32 .ok)) = true := by decide +kernel
theorem test_window_write_100 :
    next? (hostTransaction (.write 0x1014 4 100#32) State.reset)
      (fun t => t.accerr && t.acccode == 1#8 && t.accoff == 0x1014#15 && t.value 0 == 0) = true := by decide +kernel
theorem test_window_write_limb :
    next? (hostTransaction (.write 0x2004 4 32#32) State.reset) (fun t => t.value 2 == 3200) = true := by decide +kernel
theorem test_window_read_word_310 :
    next? (hostTransaction (.read 0x14D8 4) State.reset)
      (fun t => t.response == some (.read 0#32 .ok) && t.acccode == 5#8 && t.accoff == 0x14D8#15) = true := by
  decide +kernel
theorem test_busy_before_index :
    next? (hostTransaction (.read 0x14D8 4) (busyWith 0x00000041#32)) (fun t => t.acccode == 7#8) = true := by
  decide +kernel
theorem test_cmd_write_while_busy :
    next? (hostTransaction (.write 0x010 4 0xC1#32) (busyWith 0x41#32))
      (fun t => t.cmdw == 0x41#32 && t.busy && t.acccode == 7#8 && t.accoff == 0x10#15) = true := by decide +kernel
theorem test_misaligned_read :
    next? (hostTransaction (.read 0x1002 4) State.reset)
      (fun t => t.response == some (.read 0#32 .err) && !t.accerr) = true := by decide +kernel

/-! ### The step and the assembler -/

theorem test_step_runs_placed_word :
    next? (step (State.reset.withFetchWord 32 0x00A01043)) (fun t => t.value 1 == 5 && t.done && !t.busy) = true := by
  decide +kernel
theorem test_step_illegal_word :
    next? (step (State.reset.withFetchWord 32 0)) (fun t => t.code == 6#8 && t.serr && t.done) = true := by decide +kernel
theorem test_assemble_line :
    assembleLine ['P', 'R', 'E', 'P', 'E', 'N', 'D', ' ', 'x', '4', ',', ' ', 'x', '4', ',', ' ', '1', '7']
      = .ok (.prepend 4 4 17#7) := by decide +kernel
theorem test_assemble_refuses_x8 : assembleLine ['C', 'L', 'R', ' ', 'x', '8'] = .error .badOperand := by decide +kernel

/-! ### Witnesses: the hypotheses of the statements can be met -/

theorem witness_decode_of_encode : (Instr.prepend 7 7 99#7).wellFormed = true ∧ (Instr.divl 7 6 7 7).wellFormed = true := by
  decide
theorem witness_encode_of_decode : decode 0x0C600003#32 = .ok (.prepend 0 0 99#7) := by decide +kernel
theorem witness_illegal_word : ¬ ∃ i, decode 0x0C800003#32 = .ok i := by
  have h : decode 0x0C800003#32 = .error .limbOutOfRange := by decide +kernel
  rw [h]; rintro ⟨i, hi⟩; cases hi
theorem witness_in_range : (three (CAP - 1) (-(CAP - 1)) 0).LimbsInRange := regs_inRange _
theorem witness_sign_set : ((two (-7) 0).reg 0).sign = true ∧ ((two (-7) 0).reg 1).sign = false := by decide +kernel
theorem witness_pack_boundary : (-((CAP : Int) - 1)).natAbs < CAP := by decide +kernel
theorem witness_write_through_pack : ∃ t, exec (.copy 1 0) (two 5 0) = .next t := ⟨_, rfl⟩
theorem witness_equal_values :
    (pack (-7)).LimbsInRange ∧ (pack (-7)).val = (pack (-7)).val ∧ (pack (-7)).val ≠ 0 :=
  ⟨pack_inRange _, by decide +kernel⟩
theorem witness_negative_zero :
    State.reset.LimbsInRange ∧
      ∃ t, step { State.reset with agenda := [.host (.write 0x14D4 4 1#32)] } = .next t ∧ (t.reg 0).IsNegativeZero :=
  ⟨State.reset_inRange, _, rfl, by decide +kernel⟩
theorem witness_division : (-7 : Int) ≠ 0 := by decide

theorem witness_copy : negZero0.LimbsInRange :=
  State.setReg_inRange State.reset_inRange 0 (setSign_inRange zero_inRange true)
theorem witness_prepend_fits :
    (two (-4) 0).LimbsInRange ∧ (99#7 : BitVec 7).toNat ≤ 99 ∧ ((two (-4) 0).reg 0).limb 308 = 0#7 :=
  ⟨regs_inRange _, by decide +kernel⟩
theorem witness_prepend_overflow : top308.LimbsInRange ∧ (top308.reg 0).limb 308 ≠ 0#7 :=
  ⟨regs_inRange _, by decide +kernel⟩
theorem witness_prepend_illegal : 99 < (100#7 : BitVec 7).toNat := by decide
theorem witness_prepend_shift : ∃ t, exec (.prepend 1 0 99#7) (two (-4) 0) = .next t := ⟨_, rfl⟩
theorem witness_add_fits : ((two (CAP - 1) (-1)).value 0 + (two (CAP - 1) (-1)).value 1).natAbs < CAP := by decide +kernel
theorem witness_add_overflow : CAP ≤ ((two (CAP - 1) 1).value 0 + (two (CAP - 1) 1).value 1).natAbs := by decide +kernel
theorem witness_sub_fits : ((two (CAP - 1) 1).value 0 - (two (CAP - 1) 1).value 1).natAbs < CAP := by decide +kernel
theorem witness_sub_overflow : CAP ≤ ((two (CAP - 1) (-1)).value 0 - (two (CAP - 1) (-1)).value 1).natAbs := by
  decide +kernel
theorem witness_mul_fits : ((two (CAP - 1) (-1)).value 0 * (two (CAP - 1) (-1)).value 1).natAbs < CAP := by decide +kernel
theorem witness_mul_overflow :
    CAP ≤ ((two tenTo309 tenTo309).value 0 * (two tenTo309 tenTo309).value 1).natAbs := by decide +kernel
theorem witness_divs_illegal : (State.reset).LimbsInRange ∧ (3 : RegId) = 3 := ⟨State.reset_inRange, rfl⟩
theorem witness_divs_by_zero : (two 5 0).LimbsInRange ∧ (2 : RegId) ≠ 3 ∧ (two 5 0).value 1 = 0 :=
  ⟨regs_inRange _, by decide +kernel⟩
theorem witness_divs_overflow :
    (two 700 7).value 1 ≠ 0 ∧ 100 * ((two 700 7).value 1).natAbs ≤ ((two 700 7).value 0).natAbs := by decide +kernel
theorem witness_divs_fits :
    (two 699 (-7)).LimbsInRange ∧ (two 699 (-7)).value 1 ≠ 0 ∧
      ((two 699 (-7)).value 0).natAbs < 100 * ((two 699 (-7)).value 1).natAbs :=
  ⟨regs_inRange _, by decide +kernel⟩
theorem witness_divl : (two (CAP - 1) (-1)).LimbsInRange ∧ (two (CAP - 1) (-1)).value 1 ≠ 0 :=
  ⟨regs_inRange _, by decide +kernel⟩

theorem witness_modexp_modulus_zero : (three 0 0 0).value 2 = 0 := by decide +kernel
theorem witness_modexp_exponent_zero : (three 0 0 (-1)).value 2 ≠ 0 ∧ (three 0 0 (-1)).value 1 = 0 := by decide +kernel
theorem witness_modexp_base_zero :
    (three 0 5 7).value 2 ≠ 0 ∧ (three 0 5 7).value 1 ≠ 0 ∧ (three 0 5 7).value 0 = 0 := by decide +kernel
theorem witness_modexp_pipe :
    (three 4 13 497).LimbsInRange ∧ (three 4 13 497).value 0 ≠ 0 ∧
      modExpPipe ((three 4 13 497).value 0) ((three 4 13 497).value 1) ((three 4 13 497).value 2) = .ok 445 :=
  ⟨regs_inRange _, by decide +kernel⟩
theorem witness_modexp_overflow :
    modExpPipe ((three (10 ^ 155 * 10 ^ 155) 2 (10 ^ 200 * 10 ^ 200)).value 0)
      ((three (10 ^ 155 * 10 ^ 155) 2 (10 ^ 200 * 10 ^ 200)).value 1)
      ((three (10 ^ 155 * 10 ^ 155) 2 (10 ^ 200 * 10 ^ 200)).value 2) = .error .capacityOverflow := by decide +kernel
theorem witness_modexp_bound :
    (three 2 (-3) tenTo309).LimbsInRange ∧ (three 2 (-3) tenTo309).value 2 ≠ 0 ∧
      ((three 2 (-3) tenTo309).value 2).natAbs ≤ tenTo309 :=
  ⟨regs_inRange _, by decide +kernel⟩
theorem witness_loop_bounds : bitLength (13 : Int).natAbs ≤ 4 ∧ (-1 : Int).natAbs + 1 ≤ 2 := by decide
theorem witness_modinv_zero_modulus : (two 3 0).LimbsInRange ∧ (two 3 0).value 1 = 0 :=
  ⟨regs_inRange _, by decide +kernel⟩
theorem witness_modinv_negative_modulus : (two 3 (-7)).LimbsInRange ∧ (two 3 (-7)).value 1 < 0 :=
  ⟨regs_inRange _, by decide +kernel⟩
theorem witness_modinv_found :
    0 < (two 3 11).value 1 ∧ euclidPipe ((two 3 11).value 0) ((two 3 11).value 1) = .ok (some 4) := by decide +kernel
theorem witness_modinv_none :
    0 < (two (-1) 5).value 1 ∧ euclidPipe ((two (-1) 5).value 0) ((two (-1) 5).value 1) = .ok none := by decide +kernel
theorem witness_modinv_coprime :
    (two 1 1).LimbsInRange ∧ 1 ≤ (two 1 1).value 1 ∧ 0 < (two 1 1).value 0 ∧
      Int.gcd ((two 1 1).value 0) ((two 1 1).value 1) = 1 :=
  ⟨regs_inRange _, by decide +kernel⟩
theorem witness_modinv_zero_value : 0 ≤ (two 0 1).value 0 ∧ 1 ≤ (two 0 1).value 1 ∧ (two 0 1).value 0 = 0 := by
  decide +kernel
theorem witness_modinv_common_factor :
    0 ≤ (two 6 9).value 0 ∧ 1 ≤ (two 6 9).value 1 ∧ Int.gcd ((two 6 9).value 0) ((two 6 9).value 1) ≠ 1 := by
  decide +kernel

theorem witness_isprime_below_two : (two 1 0).value 0 < 2 := by decide +kernel
theorem witness_isprime_two : (two 2 0).value 0 = 2 := by decide +kernel
theorem witness_isprime_even : 2 < (two 4 0).value 0 ∧ (two 4 0).value 0 % 2 = 0 := by decide +kernel
theorem strongProbablePrime_2047 : StrongProbablePrimeBase2 2047 :=
  ⟨by decide, by decide, 1023, 1, by decide, by decide, .inl (by decide +kernel)⟩
theorem not_strongProbablePrime_9 : ¬ StrongProbablePrimeBase2 9 := by
  rintro ⟨_, _, d, k, hd, hn, h⟩
  have hk : k < 4 := by
    by_contra hk
    have h16 : 2 ^ 4 ≤ 2 ^ k := Nat.pow_le_pow_right (by decide) (by omega)
    have : 2 ^ k * 1 ≤ 2 ^ k * d := Nat.mul_le_mul_left _ (by omega)
    omega
  have h3 : k = 3 ∧ d = 1 := by interval_cases k <;> omega
  obtain ⟨rfl, rfl⟩ := h3
  rcases h with h | ⟨j, hj, h⟩
  · exact absurd h (by decide)
  · interval_cases j <;> exact absurd h (by decide)
theorem witness_isprime_strong :
    2 < (two 2047 0).value 0 ∧ (two 2047 0).value 0 % 2 = 1 ∧ (two 2047 0).value 0 ≤ tenTo309 ∧
      StrongProbablePrimeBase2 ((two 2047 0).value 0).toNat := by
  have h : (two 2047 0).value 0 = 2047 := by decide +kernel
  rw [h]; exact ⟨by decide, by decide, by decide +kernel, strongProbablePrime_2047⟩
theorem witness_isprime_not_strong :
    2 < (two 9 0).value 0 ∧ (two 9 0).value 0 % 2 = 1 ∧ ¬ StrongProbablePrimeBase2 ((two 9 0).value 0).toNat := by
  have h : (two 9 0).value 0 = 9 := by decide +kernel
  rw [h]; exact ⟨by decide, by decide, not_strongProbablePrime_9⟩
theorem witness_isprime_prime : 2 ≤ (two 97 0).value 0 ∧ Nat.Prime ((two 97 0).value 0).toNat := by
  have h : (two 97 0).value 0 = 97 := by decide +kernel
  rw [h]; exact ⟨by decide, by show Nat.Prime 97; norm_num⟩
theorem witness_isprime_composite :
    ¬ Nat.Prime ((two 9 0).value 0).toNat ∧ ¬ StrongProbablePrimeBase2 ((two 9 0).value 0).toNat := by
  have h : (two 9 0).value 0 = 9 := by decide +kernel
  rw [h]; exact ⟨by show ¬ Nat.Prime 9; norm_num, not_strongProbablePrime_9⟩
theorem witness_isprime_pseudoprime :
    ¬ Nat.Prime ((two 2047 0).value 0).toNat ∧ StrongProbablePrimeBase2 ((two 2047 0).value 0).toNat := by
  have h : (two 2047 0).value 0 = 2047 := by decide +kernel
  rw [h]; exact ⟨by show ¬ Nat.Prime 2047; norm_num, strongProbablePrime_2047⟩
theorem witness_isprime_above : (tenTo309 : Int) < (two (tenTo309 + 1) 0).value 0 := by decide +kernel

theorem witness_error_code : ∃ t, exec (.divl 2 3 0 1) (two 5 0) = .next t ∧ t.code ≠ 0#8 ∧ t.code ≠ 4#8 :=
  ⟨_, rfl, by decide +kernel, by decide +kernel⟩
theorem witness_no_inverse_code : ∃ t, exec (.modinv 2 0 1) (two 4 8) = .next t ∧ t.code = 4#8 :=
  ⟨_, rfl, by decide +kernel⟩
theorem witness_ill_formed_code :
    (Instr.divl 2 3 0 1).wellFormed = true ∧ ∃ t, exec (.divl 2 3 0 1) (two 5 0) = .next t := ⟨by decide, _, rfl⟩
theorem witness_same_sources :
    (∀ r ∈ sourcesOf (.modinv 2 0 1), (two 4 8).value r = { two 4 8 with z := true }.value r) ∧
      ∃ t, exec (.modinv 2 0 1) (two 4 8) = .next t ∧ (t.code = 0#8 ∨ t.code = 4#8) :=
  ⟨fun _ _ => rfl, _, rfl, by decide +kernel⟩
theorem witness_step : (busyWith 0x41#32).busy = true ∧ (busyWith 0x41#32).agenda = [] ∧
    decode (busyWith 0x41#32).cmdw = .ok (.clr 1) := by decide +kernel
theorem witness_step_completion :
    { busyWith 0x41#32 with agenda := [.completion] }.agenda = .completion :: [] := rfl
theorem witness_step_illegal : (busyWith 0x0C800003#32).busy = true ∧ (busyWith 0x0C800003#32).agenda = [] ∧
    ¬ ∃ i, decode (busyWith 0x0C800003#32).cmdw = .ok i := ⟨rfl, rfl, witness_illegal_word⟩
theorem witness_idle : State.reset.busy = false ∧ State.reset.agenda = [] ∧
    { State.reset with agenda := [.completion] }.agenda = [.completion] := ⟨rfl, rfl, rfl⟩
theorem witness_outside : (Txn.read 0x5000 4).off ≥ 0x5000 ∧ (Txn.read 0x4FFC 4).off < 0x5000 := by decide
/-- The reset state meets the parts of the invariant, and a step runs from it. -/
theorem witness_invariant : State.reset.Inv ∧ ∃ t, step State.reset = .next t :=
  ⟨⟨State.reset_inRange, by decide, by decide, by decide, by decide, .inl ⟨rfl, rfl⟩, by decide⟩, _, rfl⟩
theorem witness_busy_in_block :
    (busyWith 0#32).busy = true ∧ Event.reset ∉ [Event.host (.read 0x4FFC 4)] ∧
      { busyWith 0#32 with agenda := [.host (.read 0x4FFC 4)] }.InBlock := by
  refine ⟨rfl, by decide, fun t ht => ?_⟩
  have h : Event.host t = .host (.read 0x4FFC 4) := by simpa using ht
  cases h; decide
theorem witness_agenda :
    State.reset.agenda = [] ∧ ∃ t, runEvents [.host (.read 0x00C 4), .reset] State.reset = .next t := ⟨rfl, _, rfl⟩
theorem witness_reset : { busyWith 0x41#32 with agenda := [.reset] }.agenda = .reset :: [] := rfl

theorem witness_reserved_offset : 0x01C ≤ 0xFFC ∧ 0xFFC < 0x1000 ∧ 0xFFC % 4 = 0 := by decide
theorem witness_ignored_write :
    (0x018 < 0x1000 ∧ 0x018 % 4 = 0 ∧ 0x018 ≠ 0x008 ∧ 0x018 ≠ 0x00C ∧ 0x018 ≠ 0x010) := by decide
theorem witness_cmd_write : State.reset.busy = false ∧ (busyWith 0#32).busy = true := ⟨rfl, rfl⟩
theorem witness_window_last_word : 511 < 512 ∧ 0x4FFC = 0x1000 + 0x800 * (7 : RegId).val + 4 * 511 ∧ 309 < 511 := by
  decide
theorem witness_window_sign_word : 0x14D4 = 0x1000 + 0x800 * (0 : RegId).val + 4 * 309 ∧ (1#32 : Word).toNat ≤ 1 := by
  decide
theorem witness_window_last_limb : 0x14D0 = 0x1000 + 0x800 * (0 : RegId).val + 4 * 308 ∧ 308 < 309 ∧
    (99#32 : Word).toNat ≤ 99 := by decide
theorem witness_window_malformed : 1 < (2#32 : Word).toNat ∧ 99 < (100#32 : Word).toNat := by decide
theorem witness_malformed : 0x4FFD < 0x5000 ∧ 0x4FFD % 4 ≠ 0 ∧ 2 ≠ 4 := by decide
theorem witness_well_formed : 0x4FFC < 0x5000 ∧ 0x4FFC % 4 = 0 := by decide
theorem witness_read_control : 0xFFC % 4 = 0 ∧ 0xFFC < 0x1000 ∧
    ∃ t, hostTransaction (.read 0xFFC 4) State.reset = .next t := ⟨by decide, by decide, _, rfl⟩
theorem witness_read_busy : (busyWith 0#32).busy = true ∧
    ∃ t, hostTransaction (.read 0x1000 4) (busyWith 0#32) = .next t := ⟨rfl, _, rfl⟩
theorem witness_read_beyond : 309 < (0x14D8 - 0x1000) % 0x800 / 4 ∧
    ∃ t, hostTransaction (.read 0x14D8 4) State.reset = .next t := ⟨by decide, _, rfl⟩
theorem witness_read_sign_word : (0x14D4 - 0x1000) % 0x800 / 4 ≤ 309 ∧
    ∃ t, hostTransaction (.read 0x14D4 4) State.reset = .next t := ⟨by decide, _, rfl⟩
theorem witness_write_twice : ∃ t u, hostTransaction (.write 0x00C 4 0xE#32) State.reset = .next t ∧
    hostTransaction (.write 0x00C 4 0xE#32) t = .next u := ⟨_, _, rfl, rfl⟩
theorem witness_running : (busyWith 0x41#32).busy = true ∧
    ∃ t, hostTransaction (.write 0x1000 4 1#32) (busyWith 0x41#32) = .next t := ⟨rfl, _, rfl⟩
theorem witness_irq_issue : State.reset.busy = false ∧ ∃ t, hostTransaction (.write 0x010 4 0x41#32) State.reset = .next t :=
  ⟨rfl, _, rfl⟩
theorem witness_irq_clear : (2#32 : Word).getLsbD 1 = true ∧
    ∃ t, hostTransaction (.write 0x00C 4 2#32) State.reset = .next t := ⟨by decide, _, rfl⟩
theorem witness_irq_window : 0x1000 ≤ (Txn.read 0x1000 4).off ∧
    ∃ t, hostTransaction (.read 0x1000 4) State.reset = .next t := ⟨by decide, _, rfl⟩
theorem witness_irq_cmd_rejected : (busyWith 0#32).busy = true ∧
    ∃ t, hostTransaction (.write 0x010 4 0x41#32) (busyWith 0#32) = .next t := ⟨rfl, _, rfl⟩
theorem witness_irq_changes : ∃ t,
    hostTransaction (.write 0x008 4 1#32) { State.reset with done := true } = .next t ∧
      irq t ≠ irq { State.reset with done := true } := ⟨_, rfl, by decide⟩
theorem witness_latency : State.reset.busy = false := rfl
theorem witness_early_read : State.reset.busy = false ∧ 308 < 309 ∧
    0x4CD0 = 0x1000 + 0x800 * (7 : RegId).val + 4 * 308 := by decide
theorem witness_ldn : CAP - 1 < CAP := by decide +kernel
theorem witness_pseudo : (two 5 3).LimbsInRange ∧ (99 : Nat) ≤ 99 ∧ (2 : RegId) ≠ 0 ∧ (two 5 3).value 1 ≠ 0 :=
  ⟨regs_inRange _, by decide +kernel⟩
theorem witness_datapath_fits :
    (pack (CAP - 1)).LimbsInRange ∧ (pack (-1)).LimbsInRange ∧ ((pack (CAP - 1)).val + (pack (-1)).val).natAbs < CAP :=
  ⟨pack_inRange _, pack_inRange _, by decide +kernel⟩
theorem witness_datapath_overflow : CAP ≤ ((pack (CAP - 1)).val + (pack 1).val).natAbs := by decide +kernel
theorem witness_datapath_difference :
    ((pack (CAP - 1)).val - (pack 1).val).natAbs < CAP ∧ CAP ≤ ((pack (CAP - 1)).val - (pack (-1)).val).natAbs := by
  decide +kernel
theorem witness_datapath_product :
    ((pack (CAP - 1)).val * (pack (-1)).val).natAbs < CAP ∧
      CAP ≤ ((pack tenTo309).val * (pack tenTo309).val).natAbs := by decide +kernel
theorem witness_long_division : (pack (CAP - 1)).LimbsInRange ∧ 0 < CAP - 1 ∧ CAP - 1 < CAP :=
  ⟨pack_inRange _, by decide +kernel⟩
theorem witness_small_step : 0 < 497 := by decide
theorem witness_normalization : (0 : Int) < 3120 ∧ (-367 : Int).natAbs + 1 ≤ 368 := by decide
theorem witness_lanes : 0x4FFC % 4 = 0 ∧ 0x4FFC < 0x5000 ∧ 3 < 4 := by decide

end Sys2Proof.Tests
end

section
/-! SUPPORT. The signs of truncated quotient and remainder (00_scope.md R7), and Obligation O10. -/

namespace Sys2Proof.Machine

theorem tquo_mul_add_trem (a b : Int) : tquo a b * b + trem a b = a := by
  rw [tquo_eq_tdiv, trem_eq_tmod, Int.tdiv_mul_add_tmod]

theorem trem_eq_zero_or_sign_eq (a b : Int) : trem a b = 0 ∨ (trem a b).sign = a.sign := by
  have hs : (trem a b).sign = if b ∣ a then 0 else a.sign := by rw [trem_eq_tmod, Int.sign_tmod]
  split at hs
  · exact .inl (Int.sign_eq_zero_iff_zero.mp hs)
  · exact .inr hs

theorem tquo_eq_zero_or_sign_eq (a b : Int) : tquo a b = 0 ∨ (tquo a b).sign = a.sign * b.sign := by
  have hs : (tquo a b).sign = if a.natAbs < b.natAbs then 0 else a.sign * b.sign := by
    rw [tquo_eq_tdiv, Int.sign_tdiv]
  split at hs
  · exact .inl (Int.sign_eq_zero_iff_zero.mp hs)
  · exact .inr hs

theorem natAbs_trem_lt (a : Int) {b : Int} (hb : b ≠ 0) : (trem a b).natAbs < b.natAbs := by
  rw [natAbs_trem]
  exact Nat.mod_lt _ (Int.natAbs_pos.mpr hb)

/-- Settles O10: `tquo` and `trem` are the library's truncated division, whose laws these are. -/
theorem truncatedDivisionLaws : Obligations.TruncatedDivisionLaws := by
  intro a b hb
  exact ⟨tquo_mul_add_trem a b, natAbs_trem_lt a hb, natAbs_trem a b, trem_eq_zero_or_sign_eq a b,
    natAbs_tquo a b, tquo_eq_zero_or_sign_eq a b⟩

end Sys2Proof.Machine
end

section
/-! SUPPORT. What each command computes as a function of its operands' values alone (00_scope.md R9, 10_state.md R52), the
destinations and flags such a result carries, and Obligation O31. -/

namespace Sys2Proof.Machine

/-! ### The result of a command as a function of register values -/

/-- The test of ISZERO asks about the value only: a negative zero counts as zero (10_state.md R33, 40_buffer.md R133). -/
theorem allLimbsZero_eq_decide_val (r : NumReg) : r.allLimbsZero = decide (r.val = 0) := by
  rw [Bool.eq_iff_iff, allLimbsZero_iff, decide_eq_true_eq, ← natAbs_val, Int.natAbs_eq_zero]

/-- `Exec(w, X)` of 10_state.md R52: the result of a command when `x` gives the values of the registers. -/
def resultOf (x : RegId → Int) : Instr → Result
  | .clr rd => Result.single rd 0
  | .copy rd rs1 => Result.single rd (x rs1)
  | .prepend rd rs1 imm =>
    if imm.toNat ≤ 99 then Result.ofChecked rd (prependValue (x rs1) imm.toNat) else Result.raised .illegalCommand
  | .iszero rs1 => { code := .ok, dests := [], flags := some (Flags.ofInt (x rs1)) }
  | .add rd rs1 rs2 => Result.ofChecked rd (chk (x rs1 + x rs2))
  | .sub rd rs1 rs2 => Result.ofChecked rd (chk (x rs1 - x rs2))
  | .mul rd rs1 rs2 => Result.ofChecked rd (mulValue (x rs1) (x rs2))
  | .divs rd re rs1 rs2 => if rd = re then Result.raised .illegalCommand else divsResult rd re (x rs1) (x rs2)
  | .divl rd re rs1 rs2 => if rd = re then Result.raised .illegalCommand else divlResult rd re (x rs1) (x rs2)
  | .modexp rd rs1 rs2 rs3 => Result.ofChecked rd (modExpValue (x rs1) (x rs2) (x rs3))
  | .modinv rd rs1 rs2 => modInvResult rd (x rs1) (x rs2)
  | .isprime rd rs1 => Result.ofChecked rd (isPrimeValue (x rs1))

/-- A command reads nothing of the state but the values of the registers. -/
theorem exec_eq_complete_resultOf (i : Instr) (s : State) : exec i s = .next (s.complete (resultOf s.value i)) := by
  cases i with
  | prepend rd rs1 imm => simp only [exec, execPrepend, resultOf, State.raise]; split <;> rfl
  | iszero rs1 =>
    simp only [exec, execIszero, resultOf, Flags.ofInt, allLimbsZero_eq_decide_val]
    rfl
  | divs rd re rs1 rs2 => simp only [exec, execDivs, resultOf, State.raise]; split <;> rfl
  | divl rd re rs1 rs2 => simp only [exec, execDivl, resultOf, State.raise]; split <;> rfl
  | _ => rfl

/-- Of the registers, a result depends on the sources only. -/
theorem resultOf_congr {i : Instr} {x y : RegId → Int} (h : ∀ r ∈ sourcesOf i, x r = y r) :
    resultOf x i = resultOf y i := by
  cases i with
  | clr rd => rfl
  | _ =>
    simp only [sourcesOf, List.forall_mem_cons] at h
    simp only [resultOf, h]

/-! ### Which destinations and flags a result carries -/

/-- The codes that write results, by their numbers (10_state.md R52). -/
theorem Code.writesResults_iff (c : Code) : c.writesResults = true ↔ c.byte = 0#8 ∨ c.byte = 4#8 := by
  cases c <;> decide

/-- A result that is written gives a value to each register of `ds` and carries flags. -/
def Result.Fills (ds : List RegId) (r : Result) : Prop :=
  r.code.writesResults = true → r.dests.map Prod.fst = ds ∧ ∃ f, r.flags = some f

theorem Result.fills_raised (ds : List RegId) {c : Code} (h : c.writesResults = false) :
    (Result.raised c).Fills ds := fun hw => absurd (h.symm.trans hw) (by decide)

theorem Result.fills_single (rd : RegId) (v : Int) : (Result.single rd v).Fills [rd] := fun _ => ⟨rfl, _, rfl⟩

theorem Result.fills_quotRem (rd re : RegId) (q r : Int) : (Result.quotRem rd re q r).Fills [rd, re] :=
  fun _ => ⟨rfl, _, rfl⟩

theorem Result.fills_noInverse (rd : RegId) : (Result.noInverse rd).Fills [rd] := fun _ => ⟨rfl, _, rfl⟩

theorem Result.fills_ofChecked (rd : RegId) {e : Except Code Int}
    (h : ErrorsIn [.capacityOverflow, .divisionByZero] e) : (Result.ofChecked rd e).Fills [rd] := by
  cases e with
  | ok v => exact Result.fills_single rd v
  | error c =>
    have hc : c = .capacityOverflow ∨ c = .divisionByZero := by simpa [ErrorsIn] using h
    rcases hc with rfl | rfl <;> exact Result.fills_raised _ rfl

/-- A check that chooses between two results keeps what both fill. -/
theorem Result.Fills.ite {ds : List RegId} {p : Prop} [Decidable p] {r q : Result} (hr : r.Fills ds) (hq : q.Fills ds) :
    (if p then r else q).Fills ds := by
  split
  · exact hr
  · exact hq

theorem divsResult_fills (rd re : RegId) (a b : Int) : (divsResult rd re a b).Fills [rd, re] :=
  .ite (Result.fills_raised _ rfl) (.ite (Result.fills_raised _ rfl) (Result.fills_quotRem rd re _ _))

theorem divlResult_fills (rd re : RegId) (a b : Int) : (divlResult rd re a b).Fills [rd, re] :=
  .ite (Result.fills_raised _ rfl) (Result.fills_quotRem rd re _ _)

theorem modInvResult_fills (rd : RegId) (v m : Int) : (modInvResult rd v m).Fills [rd] := by
  refine .ite (Result.fills_raised _ rfl) (.ite (Result.fills_raised _ rfl) ?_)
  split
  · next c hc =>
    rw [euclidLoop_errors _ _ _ _ _ c hc]
    exact Result.fills_raised _ rfl
  · exact Result.fills_noInverse rd
  · exact Result.fills_single rd _

theorem resultOf_fills (i : Instr) (x : RegId → Int) : (resultOf x i).Fills (destsOf i) := by
  have ill : ∀ ds, (Result.raised .illegalCommand).Fills ds := fun ds => Result.fills_raised ds rfl
  have ovf : ∀ rd e, ErrorsIn [.capacityOverflow] e → (Result.ofChecked rd e).Fills [rd] :=
    fun rd e h => Result.fills_ofChecked rd (h.mono (by simp))
  cases i with
  | clr rd => exact Result.fills_single rd 0
  | copy rd rs1 => exact Result.fills_single rd _
  | prepend rd rs1 imm => exact .ite (ovf rd _ (prependValue_errors _ _)) (ill _)
  | iszero rs1 => exact fun _ => ⟨rfl, _, rfl⟩
  | add rd rs1 rs2 => exact ovf rd _ (chk_errors _)
  | sub rd rs1 rs2 => exact ovf rd _ (chk_errors _)
  | mul rd rs1 rs2 => exact ovf rd _ (mulValue_errors _ _)
  | divs rd re rs1 rs2 => exact .ite (ill _) (divsResult_fills rd re _ _)
  | divl rd re rs1 rs2 => exact .ite (ill _) (divlResult_fills rd re _ _)
  | modexp rd rs1 rs2 rs3 => exact Result.fills_ofChecked rd (modExpValue_errors _ _ _)
  | modinv rd rs1 rs2 => exact modInvResult_fills rd _ _
  | isprime rd rs1 => exact ovf rd _ (isPrimeValue_errors _)

/-! ### One result completed on two states -/

/-- What a written register holds does not depend on the state it is written to. -/
theorem State.writeDests_reg_eq_of_mem (s t : State) (ds : List (RegId × Int)) {r : RegId}
    (h : r ∈ ds.map Prod.fst) : (s.writeDests ds).reg r = (t.writeDests ds).reg r := by
  induction ds generalizing s t with
  | nil => simp at h
  | cons d ds ih =>
    show ((s.writeValue d.1 d.2).writeDests ds).reg r = ((t.writeValue d.1 d.2).writeDests ds).reg r
    by_cases hr : r ∈ ds.map Prod.fst
    · exact ih _ _ hr
    · obtain rfl : r = d.1 := by simpa [hr] using h
      simp only [State.writeDests_reg_of_not_mem _ ds _ hr, State.reg_writeValue_same]

theorem State.complete_reg_of_writes (s : State) {r : Result} (h : r.code.writesResults = true) (q : RegId) :
    (s.complete r).reg q = (s.writeDests r.dests).reg q := by
  rw [State.complete_of_writes s r h, State.retire_reg, State.applyFlags_reg]

theorem State.complete_flags_of_writes (s : State) {r : Result} {f : Flags} (h : r.code.writesResults = true)
    (hf : r.flags = some f) : (s.complete r).z = f.z ∧ (s.complete r).n = f.n := by
  rw [State.complete_of_writes s r h, hf]
  exact ⟨rfl, rfl⟩

/-- Settles O31: equal source values give one result, and completing one result gives the same code, flags and
destinations on both states. -/
theorem commandsDependOnlyOnTheirSources : Obligations.CommandsDependOnlyOnTheirSources := by
  intro i s₁ s₂ t₁ t₂ hsrc h₁ h₂
  rw [exec_eq_complete_resultOf] at h₁ h₂
  rw [← resultOf_congr hsrc] at h₂
  cases h₁
  cases h₂
  refine ⟨rfl, fun hcode => ?_⟩
  have hw : (resultOf s₁.value i).code.writesResults = true := (Code.writesResults_iff _).mpr hcode
  obtain ⟨hdests, f, hf⟩ := resultOf_fills i s₁.value hw
  obtain ⟨hz₁, hn₁⟩ := State.complete_flags_of_writes s₁ hw hf
  obtain ⟨hz₂, hn₂⟩ := State.complete_flags_of_writes s₂ hw hf
  refine ⟨hz₁.trans hz₂.symm, hn₁.trans hn₂.symm, fun r hr => ?_⟩
  rw [State.complete_reg_of_writes s₁ hw, State.complete_reg_of_writes s₂ hw]
  exact State.writeDests_reg_eq_of_mem s₁ s₂ _ (hdests ▸ hr)

end Sys2Proof.Machine
end

section
/-! SUPPORT. The invariant of the machine under each named transition of the state, and Obligation O35. -/

namespace Sys2Proof.Machine

/-! ### The fields a completion may write -/

/-- A register after a completion is as before or holds a packed destination (10_state.md R34, R52). -/
theorem State.complete_reg_cases (s : State) (r : Result) (q : RegId) :
    (s.complete r).reg q = s.reg q ∨ ∃ d ∈ r.dests, (s.complete r).reg q = pack d.2 := by
  by_cases hw : r.code.writesResults = true
  · rw [State.complete_reg_of_writes s hw]
    rcases State.writeDests_reg_cases s r.dests q with e | ⟨d, hd, _, e⟩
    · exact .inl e
    · exact .inr ⟨d, hd, e⟩
  · rw [State.complete_of_not_writes s r (by simpa using hw)]
    exact .inl rfl

theorem State.complete_inRange {s : State} (h : s.LimbsInRange) (r : Result) : (s.complete r).LimbsInRange := by
  intro q
  rcases State.complete_reg_cases s r q with e | ⟨d, _, e⟩ <;> rw [e]
  · exact h q
  · exact pack_inRange d.2

/-- Z and N after a completion: as before, or the flags the result carries (10_state.md R54). -/
theorem State.complete_flags_cases (s : State) (r : Result) :
    ((s.complete r).z = s.z ∧ (s.complete r).n = s.n) ∨
      ∃ f, r.flags = some f ∧ (s.complete r).z = f.z ∧ (s.complete r).n = f.n := by
  by_cases hw : r.code.writesResults = true
  · cases hf : r.flags with
    | none =>
      rw [State.complete_of_writes s r hw, hf, State.writeDests_eq]
      exact .inl ⟨rfl, rfl⟩
    | some f => exact .inr ⟨f, rfl, State.complete_flags_of_writes s hw hf⟩
  · rw [State.complete_of_not_writes s r (by simpa using hw)]
    exact .inl ⟨rfl, rfl⟩

/-! ### The access record (10_state.md R47, R48) -/

/-- A code an access error can record (60_exceptions.md R210). -/
theorem Code.byte_mem_accessCodes {c : Code} (h : c ∈ [Code.busyAccess, .indexOutOfRange, .malformedInput]) :
    c.byte ∈ accessCodes ∧ c.byte ≠ 0#8 := by
  revert h; cases c <;> decide

/-- A word-aligned window offset fits the 15 bits of ACCADDR and is a legitimate record. -/
theorem accessRecordOk_window {code : BitVec 8} {off : Nat} (hc : code ≠ 0#8) (h4 : off % 4 = 0)
    (hw : windowStart ≤ off) (hb : off < blockSize) : AccessRecordOk code (BitVec.ofNat 15 off) := by
  have hlo : 0x1000 ≤ off := hw
  have hhi : off < 0x5000 := hb
  have htn : (BitVec.ofNat 15 off).toNat = off := by simp only [BitVec.toNat_ofNat]; omega
  exact .inr ⟨hc, by omega, .inr (by omega)⟩

theorem accessRecordOk_cmd : AccessRecordOk Code.busyAccess.byte (BitVec.ofNat 15 offCMD) := by decide

/-! ### The invariant under the named transitions -/

theorem State.reset_inv : State.reset.Inv where
  limbs := State.reset_inRange
  busyNotDone := by decide
  code := by decide
  acccode := by decide
  accerr := by decide
  record := by decide
  flags := by decide

namespace State.Inv

variable {s : State}

theorem setAgenda (h : s.Inv) (es : List Event) : State.Inv { s with agenda := es } :=
  ⟨h.limbs, h.busyNotDone, h.code, h.acccode, h.accerr, h.record, h.flags⟩

theorem setIe (h : s.Inv) (b : Bool) : State.Inv { s with ie := b } :=
  ⟨h.limbs, h.busyNotDone, h.code, h.acccode, h.accerr, h.record, h.flags⟩

theorem respond (h : s.Inv) (a : Response) : (s.respond a).Inv :=
  ⟨h.limbs, h.busyNotDone, h.code, h.acccode, h.accerr, h.record, h.flags⟩

theorem setReg (h : s.Inv) (r : RegId) {v : NumReg} (hv : v.LimbsInRange) : (s.setReg r v).Inv :=
  ⟨State.setReg_inRange h.limbs r hv, h.busyNotDone, h.code, h.acccode, h.accerr, h.record, h.flags⟩

theorem issue (h : s.Inv) (w : Word) : (s.issue w).Inv :=
  ⟨h.limbs, by simp, h.code, h.acccode, h.accerr, h.record, h.flags⟩

/-- An acknowledge only clears bits (10_state.md R45). -/
theorem acknowledge (h : s.Inv) (d : Word) : (s.acknowledge d).Inv where
  limbs := h.limbs
  busyNotDone := fun ⟨hb, hd⟩ => h.busyNotDone ⟨hb, (Bool.and_eq_true_iff.mp hd).1⟩
  code := h.code
  acccode := h.acccode
  accerr := fun ha => h.accerr (Bool.and_eq_true_iff.mp ha).1
  record := h.record
  flags := h.flags

theorem recordAccessError (h : s.Inv) {c : Code} {off : Nat}
    (hc : c ∈ [Code.busyAccess, .indexOutOfRange, .malformedInput])
    (hr : AccessRecordOk c.byte (BitVec.ofNat 15 off)) : (s.recordAccessError c off).Inv where
  limbs := h.limbs
  busyNotDone := h.busyNotDone
  code := h.code
  acccode := (Code.byte_mem_accessCodes hc).1
  accerr := fun _ => (Code.byte_mem_accessCodes hc).2
  record := hr
  flags := h.flags

theorem complete (h : s.Inv) {r : Result} (hr : r.Legit) : (s.complete r).Inv := by
  have same := State.complete_same s r
  refine ⟨State.complete_inRange h.limbs r, by simp [State.complete_busy], hr.code, ?_, ?_, ?_, ?_⟩
  · rw [same.acccode]; exact h.acccode
  · rw [same.accerr, same.acccode]; exact h.accerr
  · rw [same.acccode, same.accoff]; exact h.record
  · rcases State.complete_flags_cases s r with ⟨hz, hn⟩ | ⟨f, hf, hz, hn⟩ <;> rw [hz, hn]
    · exact h.flags
    · exact hr.flags f hf

theorem resetEvent (s : State) : s.resetEvent.Inv := State.reset_inv.setAgenda s.agenda

/-! ### The invariant under a transaction (20_memory.md R72 to R80) -/

theorem readWord (h : s.Inv) {off : Nat} (h4 : off % 4 = 0) (hb : off < blockSize) :
    (Machine.readWord off s).1.Inv := by
  rcases readWord_cases off s with ⟨d, e⟩ | ⟨hw, ⟨_, e⟩ | ⟨_, _, e⟩⟩ <;> rw [e]
  · exact h
  · exact h.recordAccessError (by simp) (accessRecordOk_window (by decide) h4 hw hb)
  · exact h.recordAccessError (by simp) (accessRecordOk_window (by decide) h4 hw hb)

theorem writeEffect (h : s.Inv) {off : Nat} {d : Word} {t : State} (he : WriteEffect off d s t) (h4 : off % 4 = 0)
    (hb : off < blockSize) : t.Inv := by
  cases he with
  | ignored => exact h
  | ctrl => exact h.setIe _
  | ack => exact h.acknowledge d
  | issued _ _ => exact h.issue d
  | cmdRejected _ _ => exact h.recordAccessError (by simp) accessRecordOk_cmd
  | winRejected c hw hc =>
    exact h.recordAccessError hc (accessRecordOk_window (Code.byte_mem_accessCodes hc).2 h4 hw hb)
  | sign _ _ => exact h.setReg _ (setSign_inRange (h.limbs _) _)
  | limb _ _ _ hd =>
    refine h.setReg _ (setLimb_inRange (h.limbs _) _ ?_)
    simp only [BitVec.toNat_setWidth]; omega

theorem perform (h : s.Inv) {x : Txn} (hb : x.off < blockSize) : (x.perform s).Inv := by
  rcases perform_cases x s with ⟨a, e⟩ | ⟨h4, a, e⟩ | ⟨h4, d, a, e⟩ <;> rw [e]
  · exact h.respond a
  · exact (h.readWord h4 hb).respond a
  · exact (h.writeEffect (writeWord_cases x.off d s) h4 hb).respond a

theorem stepEffect (h : s.Inv) {t : State} (he : StepEffect s t) : t.Inv := by
  cases he with
  | idle _ => exact h
  | completed r _ hr => exact h.complete hr
  | transaction x hb => exact h.perform hb
  | reset => exact resetEvent s

end State.Inv

/-- Settles O35: taking an event off the agenda keeps the invariant, and so does each effect a step can have. -/
theorem everyStepKeepsTheInvariant : Obligations.EveryStepKeepsTheInvariant := by
  intro s t h hstep
  rcases step_cases hstep with ⟨_, he⟩ | ⟨_, rest, _, _, he⟩
  · exact h.stepEffect he
  · exact (h.setAgenda rest).stepEffect he

end Sys2Proof.Machine
end

section
/-! SUPPORT. The base-100 numeral of a register, digit by digit, and the stored forms of an integer (10_state.md R32 to
R35); Obligations O6, O8 and O60. -/

namespace Sys2Proof.Machine

/-! ### Digits of a limb sequence -/

theorem limbsValue_eq_sum (ls : List Limb) :
    limbsValue ls = (Finset.range ls.length).sum (fun i => (ls.getD i 0#7).toNat * 100 ^ i) := by
  induction ls with
  | nil => rfl
  | cons l ls ih =>
    rw [limbsValue_cons, ih, List.length_cons, Finset.sum_range_succ', Finset.mul_sum, Nat.add_comm]
    congr 1
    · refine Finset.sum_congr rfl fun i _ => ?_
      rw [List.getD_cons_succ, Nat.pow_succ]; ring
    · simp

/-- `mag(X)` as R32 writes it. -/
theorem mag_eq_sum (r : NumReg) : r.mag = (Finset.range NLIMBS).sum (fun i => (r.limb i).toNat * 100 ^ i) := by
  have h := limbsValue_eq_sum r.limbs.val
  rwa [r.limbs.property] at h

/-- Two limb sequences of one length with limbs in range are equal when they stand for one number. -/
theorem limbs_eq_of_limbsValue_eq {as bs : List Limb} (hlen : as.length = bs.length)
    (ha : ∀ l ∈ as, l.toNat ≤ 99) (hb : ∀ l ∈ bs, l.toNat ≤ 99) (h : limbsValue as = limbsValue bs) :
    as = bs := by
  induction as generalizing bs with
  | nil => exact (List.length_eq_zero_iff.mp hlen.symm).symm
  | cons a as ih =>
    cases bs with
    | nil => cases hlen
    | cons b bs =>
      simp only [List.forall_mem_cons] at ha hb
      obtain ⟨ha, has⟩ := ha
      obtain ⟨hb, hbs⟩ := hb
      rw [limbsValue_cons, limbsValue_cons] at h
      have hab : a = b := BitVec.eq_of_toNat_eq (by omega)
      have htail : as = bs := ih (Nat.succ.inj hlen) has hbs (by omega)
      rw [hab, htail]

/-! ### Values of registers -/

theorem val_of_sign {r : NumReg} (h : r.sign = true) : r.val = -(r.mag : Int) := if_pos h

theorem val_of_not_sign {r : NumReg} (h : r.sign = false) : r.val = (r.mag : Int) := by simp [NumReg.val, h]

theorem natAbs_val_lt_cap {r : NumReg} (h : r.LimbsInRange) : r.val.natAbs < CAP :=
  natAbs_val r ▸ mag_lt_cap h

/-- Settles O6: the numeral is the digit sum, and its bound is the bound of 309 digits. -/
theorem magnitudeIsTheBase100Numeral : Obligations.MagnitudeIsTheBase100Numeral := by
  intro r
  refine ⟨mag_eq_sum r, val_of_sign, val_of_not_sign, fun h => ?_⟩
  have hm := mag_lt_cap h
  have hv := natAbs_val_lt_cap h
  omega

/-- Packing a value that fits and reading it back gives it (10_state.md R34). -/
theorem val_pack {v : Int} (h : v.natAbs < CAP) : (pack v).val = v := by
  have hm : (pack v).mag = v.natAbs := by rw [mag_pack, Nat.mod_eq_of_lt h]
  by_cases hv : v < 0
  · rw [val_of_sign (by simpa [pack] using hv), hm]; omega
  · rw [val_of_not_sign (by simpa [pack] using hv), hm]; omega

/-- A packed value that fits is zero or carries the sign of its value: it is no negative zero (10_state.md R33, R34). -/
theorem pack_not_negativeZero {v : Int} (h : v.natAbs < CAP) : ¬ (pack v).IsNegativeZero := by
  rintro ⟨hs, hz⟩
  have hneg : v < 0 := by simpa [pack] using hs
  have hzero : (pack v).val = 0 := by
    rw [allLimbsZero_eq_decide_val] at hz
    exact of_decide_eq_true hz
  rw [val_pack h] at hzero
  omega

theorem sign_eq_decide_val_neg {r : NumReg} (h : r.val ≠ 0) : r.sign = decide (r.val < 0) := by
  cases hs : r.sign with
  | true =>
    rw [val_of_sign hs] at h ⊢
    exact (decide_eq_true (by omega)).symm
  | false =>
    rw [val_of_not_sign hs]
    exact (decide_eq_false (by omega)).symm

/-- In range, a nonzero value has one stored form: its sign decides the sign bit and its magnitude the limbs. -/
theorem eq_of_val_eq {a b : NumReg} (ha : a.LimbsInRange) (hb : b.LimbsInRange) (h : a.val = b.val)
    (hne : a.val ≠ 0) : a = b := by
  have hmag : a.mag = b.mag := by rw [← natAbs_val, ← natAbs_val, h]
  have hlimbs : a.limbs = b.limbs :=
    Subtype.ext (limbs_eq_of_limbsValue_eq (a.limbs.property.trans b.limbs.property.symm) ha hb hmag)
  have hsign : a.sign = b.sign := by
    rw [sign_eq_decide_val_neg hne, sign_eq_decide_val_neg (h ▸ hne), h]
  exact congrArg₂ NumReg.mk hsign hlimbs

/-- All limbs 0 is one limb sequence, so it has two stored forms, one per sign bit (10_state.md R33). -/
theorem allLimbsZero_iff_eq (r : NumReg) :
    r.allLimbsZero = true ↔ r = NumReg.zero ∨ r = NumReg.zero.setSign true := by
  have hlimbs : r.allLimbsZero = true ↔ r.limbs = NumReg.zero.limbs := by
    rw [NumReg.allLimbsZero, List.all_eq_true, Subtype.ext_iff, NumReg.zero, List.eq_replicate_iff]
    simp [r.limbs.property]
  rw [hlimbs]
  obtain ⟨sign, limbs⟩ := r
  cases sign <;> simp [NumReg.zero, NumReg.setSign]

theorem val_eq_zero_iff (r : NumReg) : r.val = 0 ↔ r = NumReg.zero ∨ r = NumReg.zero.setSign true := by
  rw [← allLimbsZero_iff_eq, allLimbsZero_eq_decide_val, decide_eq_true_eq]

/-- Settles O8: packing is a right inverse of the value, and the value is injective away from zero. -/
theorem nonzeroIntegersHaveOneStoredForm : Obligations.NonzeroIntegersHaveOneStoredForm :=
  ⟨fun v h => ⟨val_pack h, pack_inRange v⟩, fun _ _ => eq_of_val_eq, val_eq_zero_iff⟩

/-- Settles O60: the fields of the two constants, and the capacity. -/
theorem capabilityWordSpellsTheParameters : Obligations.CapabilityWordSpellsTheParameters :=
  ⟨by decide, by decide, by decide, cap_eq, by decide⟩

end Sys2Proof.Machine
end

section
/-! SUPPORT. Every value a command writes fits its register, so it is stored exactly and is no negative zero
(10_state.md R33, R34; 41_arith.md R157); Obligations O7 and O28. -/

namespace Sys2Proof.Machine

/-! ### Values that fit -/

/-- The value a checked computation ends with, if any, fits a register. -/
def ValueFits (e : Except Code Int) : Prop := ∀ v, e = .ok v → v.natAbs < CAP

theorem valueFits_ok {v : Int} (h : v.natAbs < CAP) : ValueFits (.ok v) := by
  rintro _ ⟨⟩; exact h

theorem valueFits_error (c : Code) : ValueFits (.error c) := nofun

theorem valueFits_chk (v : Int) : ValueFits (chk v) := by
  rcases chk_cases v with ⟨h, e⟩ | ⟨_, e⟩ <;> rw [e]
  · exact valueFits_ok h
  · exact valueFits_error _

theorem natAbs_zero_lt_cap : (0 : Int).natAbs < CAP := cap_pos

theorem natAbs_one_lt_cap : (1 : Int).natAbs < CAP := one_lt_cap

theorem natAbs_trem_lt_cap {a : Int} (h : a.natAbs < CAP) (b : Int) : (trem a b).natAbs < CAP := by
  rw [natAbs_trem]
  exact lt_of_le_of_lt (Nat.mod_le _ _) h

theorem natAbs_tquo_lt_cap {a : Int} (h : a.natAbs < CAP) (b : Int) : (tquo a b).natAbs < CAP := by
  rw [natAbs_tquo]
  exact lt_of_le_of_lt (Nat.div_le_self _ _) h

theorem prependValue_fits (v : Int) (k : Nat) : ValueFits (prependValue v k) := by
  unfold prependValue
  split
  · exact valueFits_error _
  · exact valueFits_ok (by split <;> omega)

theorem mulValue_fits (a b : Int) : ValueFits (mulValue a b) := by
  unfold mulValue
  split
  · exact valueFits_ok natAbs_zero_lt_cap
  · exact valueFits_chk _

theorem modExpAcc_fits {acc : Int} (h : acc.natAbs < CAP) (base e m : Int) : ValueFits (modExpAcc base acc e m) := by
  unfold modExpAcc
  split
  · exact valueFits_ok h
  · split
    next p hp => exact valueFits_ok (natAbs_trem_lt_cap (valueFits_chk _ p hp) m)
    · exact valueFits_error _

theorem modExpLoop_fits (fuel : Nat) {acc : Int} (h : acc.natAbs < CAP) (base e m : Int) :
    ValueFits (modExpLoop fuel base acc e m) := by
  induction fuel generalizing base acc e with
  | zero => exact valueFits_ok h
  | succ fuel ih =>
    unfold modExpLoop
    split
    · exact valueFits_ok h
    split
    · exact valueFits_error _
    next acc' hacc =>
      split
      · exact valueFits_error _
      · exact ih (modExpAcc_fits h base e m acc' hacc) _ _

theorem modExpValue_fits (b e m : Int) : ValueFits (modExpValue b e m) := by
  unfold modExpValue
  split
  · exact valueFits_error _
  split
  · exact valueFits_ok natAbs_one_lt_cap
  split
  · exact valueFits_ok natAbs_zero_lt_cap
  · exact modExpLoop_fits _ natAbs_one_lt_cap _ _ _

theorem squareLoop_fits (left : Nat) (y n : Int) : ValueFits (squareLoop left y n) := by
  induction left generalizing y with
  | zero => exact valueFits_ok natAbs_zero_lt_cap
  | succ left ih =>
    unfold squareLoop
    split
    · exact valueFits_error _
    split
    · exact valueFits_ok natAbs_one_lt_cap
    split
    · exact valueFits_ok natAbs_zero_lt_cap
    · exact ih _

theorem witnessTest_fits (d : Int) (k : Nat) (n : Int) : ValueFits (witnessTest d k n) := by
  unfold witnessTest
  split
  · exact valueFits_error _
  split
  · exact valueFits_ok natAbs_one_lt_cap
  · exact squareLoop_fits _ _ _

theorem isPrimeValue_fits (n : Int) : ValueFits (isPrimeValue n) := by
  unfold isPrimeValue
  split
  · exact valueFits_ok natAbs_zero_lt_cap
  split
  · exact valueFits_ok natAbs_one_lt_cap
  split
  · exact valueFits_ok natAbs_zero_lt_cap
  · exact witnessTest_fits _ _ _

/-! ### Results whose destinations fit -/

/-- Every value a result writes fits a register. -/
def Result.Fits (r : Result) : Prop := ∀ d ∈ r.dests, d.2.natAbs < CAP

theorem Result.fits_raised (c : Code) : (Result.raised c).Fits := nofun

theorem Result.fits_single (rd : RegId) {v : Int} (h : v.natAbs < CAP) : (Result.single rd v).Fits := by
  simpa [Result.Fits, Result.single] using h

theorem Result.fits_quotRem (rd re : RegId) {a : Int} (h : a.natAbs < CAP) (b : Int) :
    (Result.quotRem rd re (tquo a b) (trem a b)).Fits := by
  simpa [Result.Fits, Result.quotRem] using ⟨natAbs_tquo_lt_cap h b, natAbs_trem_lt_cap h b⟩

theorem Result.fits_noInverse (rd : RegId) : (Result.noInverse rd).Fits := by
  simpa [Result.Fits, Result.noInverse] using one_lt_cap

theorem Result.fits_ofChecked (rd : RegId) {e : Except Code Int} (h : ValueFits e) : (Result.ofChecked rd e).Fits := by
  cases e with
  | ok v => exact Result.fits_single rd (h v rfl)
  | error c => exact Result.fits_raised c

theorem Result.Fits.ite {p : Prop} [Decidable p] {r q : Result} (hr : r.Fits) (hq : q.Fits) :
    (if p then r else q).Fits := by
  split
  · exact hr
  · exact hq

theorem divsResult_fits (rd re : RegId) {a : Int} (h : a.natAbs < CAP) (b : Int) : (divsResult rd re a b).Fits :=
  .ite (Result.fits_raised _) (.ite (Result.fits_raised _) (Result.fits_quotRem rd re h b))

theorem divlResult_fits (rd re : RegId) {a : Int} (h : a.natAbs < CAP) (b : Int) : (divlResult rd re a b).Fits :=
  .ite (Result.fits_raised _) (Result.fits_quotRem rd re h b)

/-- The inverse lies in `[0, m)`, and the modulus fits (42_numtheory.md R182). -/
theorem modInvResult_fits (rd : RegId) (v : Int) {m : Int} (h : m.natAbs < CAP) : (modInvResult rd v m).Fits := by
  unfold modInvResult
  split
  · exact Result.fits_raised _
  next hm0 =>
    split
    · exact Result.fits_raised _
    split
    · exact Result.fits_raised _
    · exact Result.fits_noInverse rd
    next b2 _ =>
      have hlo := Int.emod_nonneg b2 hm0
      have hhi := Int.emod_lt_of_pos b2 (show 0 < m by omega)
      exact Result.fits_single rd (by omega)

/-- On values that registers hold, every command writes values that registers hold. -/
theorem resultOf_fits {x : RegId → Int} (h : ∀ r, (x r).natAbs < CAP) (i : Instr) : (resultOf x i).Fits := by
  cases i with
  | clr rd => exact Result.fits_single rd natAbs_zero_lt_cap
  | copy rd rs1 => exact Result.fits_single rd (h rs1)
  | prepend rd rs1 imm => exact .ite (Result.fits_ofChecked rd (prependValue_fits _ _)) (Result.fits_raised _)
  | iszero rs1 => exact nofun
  | add rd rs1 rs2 => exact Result.fits_ofChecked rd (valueFits_chk _)
  | sub rd rs1 rs2 => exact Result.fits_ofChecked rd (valueFits_chk _)
  | mul rd rs1 rs2 => exact Result.fits_ofChecked rd (mulValue_fits _ _)
  | divs rd re rs1 rs2 => exact .ite (Result.fits_raised _) (divsResult_fits rd re (h rs1) _)
  | divl rd re rs1 rs2 => exact .ite (Result.fits_raised _) (divlResult_fits rd re (h rs1) _)
  | modexp rd rs1 rs2 rs3 => exact Result.fits_ofChecked rd (modExpValue_fits _ _ _)
  | modinv rd rs1 rs2 => exact modInvResult_fits rd _ (h rs2)
  | isprime rd rs1 => exact Result.fits_ofChecked rd (isPrimeValue_fits _)

/-! ### What a completion leaves in a register -/

/-- Outside its destinations a command's completion changes only Z, N, CODE, SERR, DONE and BUSY (10_state.md R52). -/
theorem complete_resultOf_same (i : Instr) (s : State) :
    SameButCompletion (destsOf i) s (s.complete (resultOf s.value i)) := by
  have frame := State.complete_same s (resultOf s.value i)
  refine { frame with regs := fun q hq => ?_ }
  by_cases hw : (resultOf s.value i).code.writesResults = true
  · exact frame.regs q ((resultOf_fills i s.value hw).1 ▸ hq)
  · rw [State.complete_of_not_writes s _ (by simpa using hw), State.retire_reg]

/-- Settles O28: a command is the completion of its result, and the frame of that completion is the frame of its
destinations. -/
theorem everyCommandIsOneCompletion : Obligations.EveryCommandIsOneCompletion := fun i s =>
  ⟨_, exec_eq_complete_resultOf i s, State.complete_completedAs s _, complete_resultOf_same i s⟩

/-- On an in-range state, a register after a command is as before or holds a packed value that fits. -/
theorem exec_reg_cases {i : Instr} {s t : State} (hs : s.LimbsInRange) (h : exec i s = .next t) (q : RegId) :
    t.reg q = s.reg q ∨ ∃ v : Int, v.natAbs < CAP ∧ t.reg q = pack v := by
  rw [exec_eq_complete_resultOf] at h
  cases h
  refine (State.complete_reg_cases s _ q).imp_right ?_
  rintro ⟨d, hd, e⟩
  exact ⟨d.2, resultOf_fits (fun r => natAbs_val_lt_cap (hs r)) i d hd, e⟩

/-- Limb `i` of a packed magnitude is its base-100 digit `i` (10_state.md R34). -/
theorem packLimbs_getD {k i : Nat} (h : i < k) (m : Nat) :
    ((packLimbs k m).getD i 0#7).toNat = m / 100 ^ i % 100 := by
  induction k generalizing i m with
  | zero => omega
  | succ k ih =>
    cases i with
    | zero => simp [packLimbs]; omega
    | succ i =>
      rw [packLimbs, List.getD_cons_succ, ih (Nat.lt_of_succ_lt_succ h), Nat.pow_succ', Nat.div_div_eq_div_mul]

/-- Settles O7: outside the destinations the frame holds, and a destination that changed holds a packed value that
fits. -/
theorem commandsWriteThroughPack : Obligations.CommandsWriteThroughPack := by
  refine ⟨fun v i _ hi => ⟨packLimbs_getD hi v.natAbs, rfl⟩,
    fun r => (State.reg_reset r).trans zero_eq_pack, fun i s t r hs hexec => ?_⟩
  by_cases hr : r ∈ destsOf i
  · rcases exec_reg_cases hs hexec r with e | ⟨v, hv, e⟩
    · exact .inl e
    · exact .inr ⟨hr, v, hv, e, e ▸ pack_not_negativeZero hv⟩
  · rw [exec_eq_complete_resultOf] at hexec
    cases hexec
    exact .inl ((complete_resultOf_same i s).regs r hr)

end Sys2Proof.Machine
end

section
/-! SUPPORT. The step at which the completion is due, the idle block, and where a negative zero can come from;
Obligations O32, O33 and O9. -/

namespace Sys2Proof.Machine

/-! ### The step by the head of the agenda -/

theorem step_of_agenda_nil {s : State} (h : s.agenda = []) : step s = completionTurn s := by
  simp only [step, advance, h]

theorem step_of_agenda_cons {s : State} {e : Event} {rest : List Event} (h : s.agenda = e :: rest) :
    step s = takeEvent e { s with agenda := rest } := by
  simp only [step, advance, h]

theorem completionTurn_of_idle {s : State} (h : s.busy = false) : completionTurn s = .next s := by
  simp [completionTurn, h]

/-- The turn of a busy block with a legal word is its command. -/
theorem completionTurn_of_decode {s : State} {i : Instr} (hb : s.busy = true) (hd : decode s.cmdw = .ok i) :
    completionTurn s = exec i s := (completionTurn_of_busy hb).trans (completion_of_decode hd)

/-- The turn of a busy block with an illegal word is IllegalCommand (30_encoding.md R105). -/
theorem completionTurn_of_undecodable {s : State} (hb : s.busy = true) (hd : ¬ ∃ i, decode s.cmdw = .ok i) :
    completionTurn s = .next (erred 6#8 s) := by
  rw [completionTurn_of_busy hb, completion_of_undecodable hd, State.raise_eq_erred s .illegalCommand rfl,
    Code.byte_illegalCommand]

/-- Settles O32: an empty agenda and a completion next both give the busy block its turn. -/
theorem stepRunsTheDecodedCommand : Obligations.StepRunsTheDecodedCommand :=
  ⟨fun _ _ hb hd =>
      ⟨fun h => (step_of_agenda_nil h).trans (completionTurn_of_decode hb hd),
        fun _ h => (step_of_agenda_cons h).trans (completionTurn_of_decode hb hd)⟩,
    fun _ hb hd =>
      ⟨fun h => (step_of_agenda_nil h).trans (completionTurn_of_undecodable hb hd),
        fun _ h => (step_of_agenda_cons h).trans (completionTurn_of_undecodable hb hd)⟩⟩

/-- Settles O33: an idle block's turn changes nothing. -/
theorem idleBlockWaits : Obligations.IdleBlockWaits := fun _ hb =>
  ⟨fun h => (step_of_agenda_nil h).trans (completionTurn_of_idle hb),
    fun _ h => (step_of_agenda_cons h).trans (completionTurn_of_idle hb)⟩

/-! ### Which registers a write can change (20_memory.md R75, R77) -/

theorem readWord_reg (off : Nat) (s : State) (r : RegId) : (readWord off s).1.reg r = s.reg r := by
  rcases readWord_cases off s with ⟨_, e⟩ | ⟨_, ⟨_, e⟩ | ⟨_, _, e⟩⟩ <;> rw [e] <;> rfl

/-- A write beyond the sign word of a window changes no register. -/
theorem writeWord_reg_of_index_gt {off : Nat} (hw : windowStart ≤ off) (hi : 309 < windowIndex off) (d : Word)
    (s : State) (r : RegId) : (writeWord off d s).reg r = s.reg r := by
  rw [writeWord, if_neg (Nat.not_lt.mpr hw), writeWindow, if_pos hi]
  split <;> rfl

/-- A write changes at most the one register whose limb or sign word it names. -/
theorem writeWord_reg_cases (off : Nat) (d : Word) (s : State) (r : RegId) :
    (writeWord off d s).reg r = s.reg r ∨
      (windowStart ≤ off ∧ windowReg off = r ∧ windowIndex off ≤ 309) := by
  by_cases hw : windowStart ≤ off ∧ windowReg off = r
  · by_cases hi : 309 < windowIndex off
    · exact .inl (writeWord_reg_of_index_gt hw.1 hi d s r)
    · exact .inr ⟨hw.1, hw.2, Nat.not_lt.mp hi⟩
  · refine .inl ?_
    have heff := writeWord_cases off d s
    generalize writeWord off d s = t at heff
    cases heff with
    | sign _ h | limb _ h _ _ => exact State.reg_setReg_of_ne s _ fun e => hw ⟨h, e.symm⟩
    | ignored | ctrl | ack | issued _ _ | cmdRejected _ _ | winRejected _ _ _ => rfl

/-- An aligned offset of the block that names a limb or sign word of `Xr` lies in the words 0 to 309 of its window. -/
theorem windowBase_le_of_windowReg {off : Nat} {r : RegId} (hlo : windowStart ≤ off) (hhi : off < blockSize)
    (h4 : off % 4 = 0) (hr : windowReg off = r) (hi : windowIndex off ≤ 309) :
    windowBase r ≤ off ∧ off ≤ windowBase r + 4 * 309 := by
  subst hr
  simp only [windowStart, blockSize] at hlo hhi
  simp only [windowIndex] at hi
  simp only [windowBase, windowReg, Fin.ofNat]
  omega

/-- A transaction that changes a register is a 4-byte write to a limb or sign word of its window. -/
theorem perform_reg_cases {x : Txn} (hb : x.off < blockSize) (s : State) (r : RegId) :
    (x.perform s).reg r = s.reg r ∨
      ∃ off d, x = .write off 4 d ∧ windowBase r ≤ off ∧ off ≤ windowBase r + 4 * 309 := by
  cases x with
  | read off size =>
    refine .inl ?_
    rw [Txn.perform, hostRead]
    split
    · rw [State.respond_reg, readWord_reg]
    · rfl
  | write off size d =>
    rw [Txn.perform, hostWrite]
    split
    next hwf =>
      obtain ⟨rfl, h4⟩ : size = 4 ∧ off % 4 = 0 := by simpa [wellFormedAccess] using hwf
      rw [State.respond_reg]
      rcases writeWord_reg_cases off d s r with e | ⟨hlo, hr, hi⟩
      · exact .inl e
      · exact .inr ⟨off, d, rfl, windowBase_le_of_windowReg hlo hb h4 hr hi⟩
    · exact .inl rfl

/-! ### Where a negative zero comes from (10_state.md R33) -/

/-- A completion leaves no negative zero that was not there: a register it writes holds a packed value. -/
theorem completionTurn_negativeZero {s t : State} {r : RegId} (hs : s.LimbsInRange)
    (h : completionTurn s = .next t) (hz : (t.reg r).IsNegativeZero) : (s.reg r).IsNegativeZero := by
  have hreg : t.reg r = s.reg r ∨ ∃ v : Int, v.natAbs < CAP ∧ t.reg r = pack v := by
    unfold completionTurn completion at h
    split at h
    · split at h
      · exact exec_reg_cases hs h r
      · cases h
        rw [State.raise_eq_erred s .illegalCommand rfl]
        exact .inl rfl
    · cases h
      exact .inl rfl
  rcases hreg with e | ⟨v, hv, e⟩
  · exact e ▸ hz
  · exact absurd (e ▸ hz) (pack_not_negativeZero hv)

/-- The reset contents of a register are no negative zero. -/
theorem zero_not_negativeZero : ¬ NumReg.zero.IsNegativeZero := fun h => absurd h.1 (by decide)

/-- Settles O9: of the events of a step, only a host write to a limb or sign word changes a register other than through
`pack` or reset. -/
theorem negativeZeroComesOnlyFromWindowWrites : Obligations.NegativeZeroComesOnlyFromWindowWrites := by
  intro s t r hs hstep hz
  cases ha : s.agenda with
  | nil =>
    rw [step_of_agenda_nil ha] at hstep
    exact .inl (completionTurn_negativeZero hs hstep hz)
  | cons e rest =>
    rw [step_of_agenda_cons ha] at hstep
    cases e with
    | host x =>
      obtain ⟨hb, rfl⟩ := hostTransaction_next hstep
      rcases perform_reg_cases hb { s with agenda := rest } r with heq | ⟨off, d, rfl, hwin⟩
      · exact .inl (heq ▸ hz)
      · exact .inr ⟨off, d, rest, rfl, hwin⟩
    | completion => exact .inl (completionTurn_negativeZero (s := { s with agenda := rest }) hs hstep hz)
    | reset =>
      cases hstep
      exact absurd (State.resetEvent_reg _ r ▸ hz) zero_not_negativeZero

end Sys2Proof.Machine
end

section
/-! SUPPORT. What moves the interrupt line (10_state.md R49, 60_exceptions.md R230), and Obligation O48. -/

namespace Sys2Proof.Machine

/-! ### Completion -/

theorem irq_complete (s : State) (r : Result) : irq (s.complete r) = s.ie := by
  rw [irq, State.complete_done, Bool.and_true, (State.complete_same s r).ie]

/-! ### Transactions -/

theorem irq_respond (s : State) (a : Response) : irq (s.respond a) = irq s := rfl

theorem irq_issue (s : State) (w : Word) : irq (s.issue w) = false := Bool.and_false _

theorem irq_acknowledge (s : State) (d : Word) : irq (s.acknowledge d) = (irq s && !d.getLsbD 1) :=
  (Bool.and_assoc _ _ _).symm

theorem irq_writeWindow (off : Nat) (d : Word) (s : State) : irq (writeWindow off d s) = irq s := by
  unfold writeWindow
  split
  · rfl
  split
  · rfl
  split <;> split <;> rfl

/-- The words whose write can move the interrupt line. -/
def MovesIrq (s : State) (off : Nat) (d : Word) : Prop :=
  off = offCTRL ∨ (off = offSTATUS ∧ d.getLsbD 1 = true) ∨ (off = offCMD ∧ s.busy = false)

theorem movesIrq_of_writeControl {off : Nat} {d : Word} {s : State} (h : irq (writeControl off d s) ≠ irq s) :
    MovesIrq s off d := by
  unfold writeControl at h
  split at h
  next hoff => exact .inl hoff
  split at h
  next hoff =>
    refine .inr (.inl ⟨hoff, ?_⟩)
    by_contra hbit
    have hclear : d.getLsbD 1 = false := Bool.eq_false_iff.mpr hbit
    exact h (by rw [irq_acknowledge, hclear, Bool.not_false, Bool.and_true])
  split at h
  next hoff =>
    refine .inr (.inr ⟨hoff, ?_⟩)
    by_contra hbusy
    exact h (by simp [writeCmd, hbusy, irq])
  · exact absurd rfl h

theorem movesIrq_of_writeWord {off : Nat} {d : Word} {s : State} (h : irq (writeWord off d s) ≠ irq s) :
    MovesIrq s off d := by
  unfold writeWord at h
  split at h
  · exact movesIrq_of_writeControl h
  · exact absurd (irq_writeWindow off d s) h

/-- A transaction that moves the interrupt line is a 4-byte write of a word that can. -/
theorem movesIrq_of_perform {x : Txn} {s : State} (h : irq (x.perform s) ≠ irq s) :
    ∃ off d, x = .write off 4 d ∧ MovesIrq s off d := by
  cases x with
  | read off size =>
    rw [Txn.perform, hostRead] at h
    split at h
    · exact absurd (irq_readWord off s) h
    · exact absurd rfl h
  | write off size d =>
    rw [Txn.perform, hostWrite] at h
    split at h
    next hwf =>
      obtain ⟨rfl, _⟩ : size = 4 ∧ off % 4 = 0 := by simpa [wellFormedAccess] using hwf
      exact ⟨off, d, rfl, movesIrq_of_writeWord h⟩
    · exact absurd rfl h

theorem irq_write_cmd_of_idle {s : State} (hb : s.busy = false) (w : Word) :
    irq ((Txn.write offCMD 4 w).perform s) = false := by
  have heff : (Txn.write offCMD 4 w).perform s = (writeCmd w s).respond (.write .ok) := rfl
  simp only [heff, writeCmd, hb]
  exact irq_issue s w

theorem irq_write_status_of_done_bit {d : Word} (hd : d.getLsbD 1 = true) (s : State) :
    irq ((Txn.write offSTATUS 4 d).perform s) = false := by
  have heff : (Txn.write offSTATUS 4 d).perform s = (s.acknowledge d).respond (.write .ok) := rfl
  rw [heff, irq_respond, irq_acknowledge, hd, Bool.not_true, Bool.and_false]

/-- A window access leaves the interrupt line (20_memory.md R76, R77). -/
theorem irq_perform_of_window {x : Txn} (hw : windowStart ≤ x.off) (s : State) : irq (x.perform s) = irq s := by
  by_contra hne
  obtain ⟨off, d, rfl, hmoves⟩ := movesIrq_of_perform hne
  have hw : 0x1000 ≤ off := hw
  simp only [MovesIrq, offCTRL, offSTATUS, offCMD] at hmoves
  omega

/-- A CMD write rejected while busy leaves the interrupt line (20_memory.md R80). -/
theorem irq_write_cmd_of_busy {s : State} (hb : s.busy = true) (w : Word) :
    irq ((Txn.write offCMD 4 w).perform s) = irq s := by
  have heff : (Txn.write offCMD 4 w).perform s = (writeCmd w s).respond (.write .ok) := rfl
  simp only [heff, writeCmd, hb]
  rfl

/-- Settles O48: completion raises the line to IE, and of the transactions only the three kinds of writes in `MovesIrq`
change it. -/
theorem interruptFollowsCompletion : Obligations.InterruptFollowsCompletion := by
  refine ⟨fun _ => rfl, ?_, ?_, ?_, ?_, ?_, ?_⟩
  · intro i s t hexec
    rw [exec_eq_complete_resultOf] at hexec
    cases hexec
    exact irq_complete s _
  · intro s t w hb h
    rw [(hostTransaction_next h).2]
    exact irq_write_cmd_of_idle hb w
  · intro s t d hd h
    rw [(hostTransaction_next h).2]
    exact irq_write_status_of_done_bit hd s
  · intro s t x hw h
    rw [(hostTransaction_next h).2]
    exact irq_perform_of_window hw s
  · intro s t w hb h
    rw [(hostTransaction_next h).2]
    exact irq_write_cmd_of_busy hb w
  · intro s t x h hne
    rw [(hostTransaction_next h).2] at hne
    obtain ⟨off, d, rfl, rfl | ⟨rfl, hbit⟩ | ⟨rfl, hb⟩⟩ := movesIrq_of_perform hne
    · exact .inl ⟨d, rfl⟩
    · exact .inr (.inl ⟨d, rfl, hbit⟩)
    · exact .inr (.inr ⟨hb, d, rfl⟩)

end Sys2Proof.Machine
end

section
/-! SUPPORT. What a host transaction answers: malformed ones, and the control space offset by offset (20_memory.md R72,
R73, R78 to R80); Obligations O40, O41, O42 and O45. -/

namespace Sys2Proof.Machine

/-! ### Reaching the block -/

theorem hostTransaction_of_lt {x : Txn} (h : x.off < blockSize) (s : State) :
    hostTransaction x s = .next (x.perform s) := if_pos h

theorem hostTransaction_of_ge {x : Txn} (h : blockSize ≤ x.off) (s : State) :
    hostTransaction x s = .fault .outsideBlock := if_neg (Nat.not_lt.mpr h)

/-- A well-formed write answers OK (R72). -/
theorem perform_write_wellFormed {off : Nat} (h : off % 4 = 0) (d : Word) (s : State) :
    (Txn.write off 4 d).perform s = (writeWord off d s).respond (.write .ok) := by
  simp [Txn.perform, hostWrite, wellFormedAccess, h]

/-- A transaction of another size or alignment is not well-formed (R73). -/
theorem wellFormedAccess_eq_false {off size : Nat} (h : size ≠ 4 ∨ off % 4 ≠ 0) :
    wellFormedAccess off size = false := by
  rcases h with h | h <;> simp [wellFormedAccess, h]

theorem perform_read_malformed {off size : Nat} (h : size ≠ 4 ∨ off % 4 ≠ 0) (s : State) :
    (Txn.read off size).perform s = s.respond (.read 0#32 .err) := by
  rw [Txn.perform, hostRead, wellFormedAccess_eq_false h, if_neg Bool.false_ne_true]

theorem perform_write_malformed {off size : Nat} (h : size ≠ 4 ∨ off % 4 ≠ 0) (d : Word) (s : State) :
    (Txn.write off size d).perform s = s.respond (.write .err) := by
  rw [Txn.perform, hostWrite, wellFormedAccess_eq_false h, if_neg Bool.false_ne_true]

/-- Settles O45: malformed transactions keep the state, well-formed ones are answered after their effect. -/
theorem onlyMalformedTransactionsAnswerErr : Obligations.OnlyMalformedTransactionsAnswerErr := by
  intro s off size d hoff
  have hread := hostTransaction_of_lt (x := .read off size) hoff s
  have hwrite := hostTransaction_of_lt (x := .write off size d) hoff s
  rw [hread, hwrite]
  refine ⟨fun h => ?_, fun hsize h4 => ?_⟩
  · rw [perform_read_malformed h, perform_write_malformed h]
    exact ⟨rfl, rfl⟩
  · subst hsize
    rw [perform_read_wellFormed h4, perform_write_wellFormed h4]
    exact ⟨⟨_, _, rfl, rfl⟩, ⟨_, rfl, rfl⟩⟩

/-! ### The control space (R78 to R80) -/

theorem hostTransaction_read_control {off : Nat} (hc : off < windowStart) (h4 : off % 4 = 0) (s : State) :
    hostTransaction (.read off 4) s = .next (s.respond (.read (readControl off s) .ok)) := by
  have hb : (Txn.read off 4).off < blockSize := lt_trans hc (by decide)
  rw [hostTransaction_of_lt hb, perform_read_wellFormed h4, readWord, if_pos hc]

theorem hostTransaction_write_control {off : Nat} (hc : off < windowStart) (h4 : off % 4 = 0) (d : Word) (s : State) :
    hostTransaction (.write off 4 d) s = .next ((writeControl off d s).respond (.write .ok)) := by
  have hb : (Txn.write off 4 d).off < blockSize := lt_trans hc (by decide)
  rw [hostTransaction_of_lt hb, perform_write_wellFormed h4, writeWord, if_pos hc]

/-- Reserved offsets read 0 (R78). -/
theorem readControl_reserved {off : Nat} (h : 0x01C ≤ off) (s : State) : readControl off s = 0#32 := by
  have hne : ∀ reg, reg < 0x01C → off ≠ reg := fun reg hreg => by omega
  simp (disch := decide) only [readControl, hne, if_false]

/-- Read-only registers and reserved offsets ignore a write (R79). -/
theorem writeControl_ignored {off : Nat} (hctrl : off ≠ offCTRL) (hstatus : off ≠ offSTATUS) (hcmd : off ≠ offCMD)
    (d : Word) (s : State) : writeControl off d s = s := by
  rw [writeControl, if_neg hctrl, if_neg hstatus, if_neg hcmd]

/-- The word `x ++ y` as a number: `x` above the bits of `y`. -/
theorem toNat_append_eq_add {n m : Nat} (x : BitVec n) (y : BitVec m) :
    (x ++ y).toNat = x.toNat * 2 ^ m + y.toNat := by
  rw [BitVec.toNat_append, ← Nat.shiftLeft_add_eq_or_of_lt y.isLt, Nat.shiftLeft_eq]

/-- The STATUS word as the sum of its fields at their places (10_state.md R45). -/
theorem statusWord_eq (s : State) :
    statusWord s = BitVec.ofNat 32 (s.busy.toNat + 2 * s.done.toNat + 4 * s.serr.toNat + 8 * s.accerr.toNat
      + 256 * s.code.toNat + 65536 * s.z.toNat + 131072 * s.n.toNat) := by
  apply BitVec.eq_of_toNat_eq
  simp only [statusWord, BitVec.toNat_setWidth, toNat_append_eq_add, BitVec.toNat_ofBool, BitVec.toNat_ofNat]
  congr 1
  omega

theorem ctrlWord_eq (s : State) : ctrlWord s = BitVec.ofNat 32 s.ie.toNat := by
  cases h : s.ie <;> simp [ctrlWord, h]

/-- Settles O40: each offset's word, read through the one lemma about control reads. -/
theorem controlReadsReturnTheRegisters : Obligations.ControlReadsReturnTheRegisters := by
  intro s
  have read := fun off hc h4 => hostTransaction_read_control (off := off) hc h4 s
  refine ⟨read offID (by decide) rfl, read offCAPS (by decide) rfl, ?_, ?_, read offCMD (by decide) rfl, ?_, ?_,
    fun off hlo hhi h4 => ?_⟩
  · rw [← ctrlWord_eq]; exact read offCTRL (by decide) rfl
  · rw [← statusWord_eq]; exact read offSTATUS (by decide) rfl
  · rw [BitVec.ofNat_toNat]; exact read offACCINFO (by decide) rfl
  · rw [BitVec.ofNat_toNat]; exact read offACCADDR (by decide) rfl
  · rw [read off hhi h4, readControl_reserved hlo]

/-- Clearing a bit where `b` is 1 (10_state.md R45). -/
theorem and_not_eq_ite (a b : Bool) : (a && !b) = if b then false else a := by cases a <;> cases b <;> rfl

/-- Settles O41: CTRL and STATUS by their own lemmas, every other offset ignores the write. -/
theorem controlWritesActOnCtrlAndStatusOnly : Obligations.ControlWritesActOnCtrlAndStatusOnly := by
  intro s d
  have write := fun off hc h4 => hostTransaction_write_control (off := off) hc h4 d s
  refine ⟨write offCTRL (by decide) rfl, ?_, fun off hc h4 hctrl hstatus hcmd => ?_⟩
  · simp only [← and_not_eq_ite]
    exact write offSTATUS (by decide) rfl
  · rw [write off hc h4, writeControl_ignored hctrl hstatus hcmd]

theorem writeCmd_of_idle {s : State} (h : s.busy = false) (w : Word) : writeCmd w s = s.issue w := by
  simp [writeCmd, h]

theorem writeCmd_of_busy {s : State} (h : s.busy = true) (w : Word) :
    writeCmd w s = rejected 7#8 0x010#15 s := by
  rw [writeCmd, if_pos h]; rfl

theorem hostTransaction_write_cmd (w : Word) (s : State) :
    hostTransaction (.write offCMD 4 w) s = .next ((writeCmd w s).respond (.write .ok)) :=
  hostTransaction_write_control (by decide) rfl w s

/-- Settles O42: a CMD write is `writeCmd`, which issues or rejects. -/
theorem cmdWriteIssuesOnlyWhenIdle : Obligations.CmdWriteIssuesOnlyWhenIdle := by
  refine fun s w => ⟨fun h => ?_, fun h => ?_⟩
  · exact (hostTransaction_write_cmd w s).trans (by rw [writeCmd_of_idle h]; rfl)
  · exact (hostTransaction_write_cmd w s).trans (by rw [writeCmd_of_busy h])

end Sys2Proof.Machine
end

section
/-! SUPPORT. The register windows, word by word (20_memory.md R75 to R77); Obligations O43 and O44. -/

namespace Sys2Proof.Machine

theorem hostTransaction_read_window {off : Nat} (hlo : windowStart ≤ off) (hhi : off < blockSize) (h4 : off % 4 = 0)
    (s : State) :
    hostTransaction (.read off 4) s = .next ((readWindow off s).1.respond (.read (readWindow off s).2 .ok)) := by
  rw [hostTransaction_of_lt (x := .read off 4) hhi, perform_read_wellFormed h4, readWord, if_neg (Nat.not_lt.mpr hlo)]

theorem hostTransaction_write_window {off : Nat} (hlo : windowStart ≤ off) (hhi : off < blockSize) (h4 : off % 4 = 0)
    (d : Word) (s : State) :
    hostTransaction (.write off 4 d) s = .next ((writeWindow off d s).respond (.write .ok)) := by
  rw [hostTransaction_of_lt (x := .write off 4 d) hhi, perform_write_wellFormed h4, writeWord,
    if_neg (Nat.not_lt.mpr hlo)]

/-- Word `i` of the window of `Xr` lies in the window space, aligned. -/
theorem windowBase_bounds (r : RegId) {i : Nat} (hi : i < 512) :
    windowStart ≤ windowBase r + 4 * i ∧ windowBase r + 4 * i < blockSize ∧ (windowBase r + 4 * i) % 4 = 0 := by
  have hr := r.isLt
  simp only [windowStart, windowBase, blockSize]
  omega

section
variable {s : State} {off : Nat} {d : Word}

theorem readWindow_of_busy (hb : s.busy = true) :
    readWindow off s = (rejected 7#8 (BitVec.ofNat 15 off) s, 0#32) := if_pos hb

theorem readWindow_of_index_gt (hb : s.busy = false) (hi : 309 < windowIndex off) :
    readWindow off s = (rejected 5#8 (BitVec.ofNat 15 off) s, 0#32) := by
  rw [readWindow, if_neg (ne_true_of_eq_false hb), if_pos hi]; rfl

theorem readWindow_sign (hb : s.busy = false) (hi : windowIndex off = 309) :
    readWindow off s = (s, BitVec.ofNat 32 (s.reg (windowReg off)).sign.toNat) := by
  rw [readWindow, if_neg (ne_true_of_eq_false hb), if_neg (by omega), if_pos hi]
  cases (s.reg (windowReg off)).sign <;> rfl

theorem readWindow_limb (hb : s.busy = false) (hi : windowIndex off < 309) :
    readWindow off s = (s, BitVec.ofNat 32 ((s.reg (windowReg off)).limb (windowIndex off)).toNat) := by
  rw [readWindow, if_neg (ne_true_of_eq_false hb), if_neg (by omega), if_neg (by omega), BitVec.ofNat_toNat]

theorem writeWindow_of_busy (hb : s.busy = true) :
    writeWindow off d s = rejected 7#8 (BitVec.ofNat 15 off) s := if_pos hb

theorem writeWindow_of_index_gt (hb : s.busy = false) (hi : 309 < windowIndex off) :
    writeWindow off d s = rejected 5#8 (BitVec.ofNat 15 off) s := by
  rw [writeWindow, if_neg (ne_true_of_eq_false hb), if_pos hi]; rfl

/-- A word of a window that cannot hold the data rejects it (R77). -/
theorem writeWindow_of_malformed (hb : s.busy = false)
    (h : windowIndex off = 309 ∧ 1 < d.toNat ∨ windowIndex off < 309 ∧ 99 < d.toNat) :
    writeWindow off d s = rejected 1#8 (BitVec.ofNat 15 off) s := by
  rw [writeWindow, if_neg (ne_true_of_eq_false hb), if_neg (by omega)]
  rcases h with ⟨hi, hd⟩ | ⟨hi, hd⟩
  · rw [if_pos hi, if_neg (Nat.not_le.mpr hd)]; rfl
  · rw [if_neg (Nat.ne_of_lt hi), if_neg (Nat.not_le.mpr hd)]; rfl

theorem writeWindow_sign (hb : s.busy = false) (hi : windowIndex off = 309) (hd : d.toNat ≤ 1) :
    writeWindow off d s = s.setReg (windowReg off) ((s.reg (windowReg off)).setSign (d.getLsbD 0)) := by
  rw [writeWindow, if_neg (ne_true_of_eq_false hb), if_neg (by omega), if_pos hi, if_pos hd]

theorem writeWindow_limb (hb : s.busy = false) (hi : windowIndex off < 309) (hd : d.toNat ≤ 99) :
    writeWindow off d s
      = s.setReg (windowReg off) ((s.reg (windowReg off)).setLimb (windowIndex off) (d.setWidth 7)) := by
  rw [writeWindow, if_neg (ne_true_of_eq_false hb), if_neg (by omega), if_neg (by omega), if_pos hd]

end

/-- Settles O43: the four cases of `readWindow` at the offset of word `i` of `Xr`. -/
theorem windowReadReturnsTheStoredWord : Obligations.WindowReadReturnsTheStoredWord := by
  rintro s r i _ hi rfl
  obtain ⟨hlo, hhi, h4⟩ := windowBase_bounds r hi
  obtain ⟨hreg, hidx⟩ := window_of_base r i hi
  have read := hostTransaction_read_window hlo hhi h4 s
  refine ⟨fun hb => ?_, fun hb h => ?_, fun hb h => ?_, fun hb h => ?_⟩
  · exact read.trans (by rw [readWindow_of_busy hb]; rfl)
  · exact read.trans (by rw [readWindow_of_index_gt hb (h.trans_eq hidx.symm)]; rfl)
  · exact read.trans (by rw [readWindow_sign hb (hidx.trans h), hreg])
  · exact read.trans (by rw [readWindow_limb hb (hidx.trans_lt h), hreg, hidx])

/-- Data 0 or 1 is its bit 0. -/
theorem getLsbD_zero_of_le_one {d : Word} (h : d.toNat ≤ 1) : d.getLsbD 0 = decide (d.toNat = 1) := by
  rw [BitVec.getLsbD, Nat.testBit_zero]
  congr 1
  simp only [eq_iff_iff]
  omega

/-- A write that changes one register changes no other, and no field outside the register file. -/
theorem setReg_respond_frame (s : State) (r : RegId) (v : NumReg) (a : Response) :
    (∀ q, q ≠ r → ((s.setReg r v).respond a).reg q = s.reg q) ∧
      { (s.setReg r v).respond a with x := s.x } = s.respond a :=
  ⟨fun _ h => State.reg_setReg_of_ne s v h, rfl⟩

/-- Settles O44: the five cases of `writeWindow` at the offset of word `i` of `Xr`. -/
theorem windowWriteStoresOneWord : Obligations.WindowWriteStoresOneWord := by
  rintro s r i _ d hi rfl
  obtain ⟨hlo, hhi, h4⟩ := windowBase_bounds r hi
  obtain ⟨hreg, hidx⟩ := window_of_base r i hi
  have write := hostTransaction_write_window hlo hhi h4 d s
  refine ⟨fun hb => ?_, fun hb h => ?_, fun hb h => ?_, fun hb h hd => ?_, fun hb h hd => ?_⟩
  · exact write.trans (by rw [writeWindow_of_busy hb]; rfl)
  · exact write.trans (by rw [writeWindow_of_index_gt hb (h.trans_eq hidx.symm)]; rfl)
  · exact write.trans (by rw [writeWindow_of_malformed hb (by rwa [hidx])]; rfl)
  · rw [writeWindow_sign hb (hidx.trans h) hd, hreg] at write
    obtain ⟨hother, hframe⟩ := setReg_respond_frame s r ((s.reg r).setSign (d.getLsbD 0)) (.write .ok)
    refine ⟨_, write, ?_, ?_, hother, hframe⟩
    · rw [State.respond_reg, State.reg_setReg_same, ← getLsbD_zero_of_le_one hd]; rfl
    · rw [State.respond_reg, State.reg_setReg_same]; rfl
  · rw [writeWindow_limb hb (hidx.trans_lt h) hd, hreg, hidx] at write
    obtain ⟨hother, hframe⟩ := setReg_respond_frame s r ((s.reg r).setLimb i (d.setWidth 7)) (.write .ok)
    refine ⟨_, write, ?_, ?_, fun j hj => ?_, hother, hframe⟩
    · rw [State.respond_reg, State.reg_setReg_same, limb_setLimb_same h, BitVec.toNat_setWidth]
      omega
    · rw [State.respond_reg, State.reg_setReg_same]; rfl
    · rw [State.respond_reg, State.reg_setReg_same, limb_setLimb_of_ne hj]

end Sys2Proof.Machine
end

section
/-! SUPPORT. What a transaction leaves of the state (20_memory.md R74, R87); Obligations O46 and O47. -/

namespace Sys2Proof.Machine

theorem readWord_response (off : Nat) (s : State) : (readWord off s).1.response = s.response := by
  rcases readWord_cases off s with ⟨_, e⟩ | ⟨_, ⟨_, e⟩ | ⟨_, _, e⟩⟩ <;> rw [e] <;> rfl

/-- But for its answer, a well-formed read leaves the state that `readWord` gives. -/
theorem read_leaves {s t : State} {off : Nat} (h4 : off % 4 = 0) (h : hostTransaction (.read off 4) s = .next t) :
    { t with response := s.response } = (readWord off s).1 := by
  rw [(hostTransaction_next h).2, perform_read_wellFormed h4, ← readWord_response off s]
  rfl

theorem hostTransaction_write_status (d : Word) (s : State) :
    hostTransaction (.write offSTATUS 4 d) s = .next ((s.acknowledge d).respond (.write .ok)) :=
  hostTransaction_write_control (by decide) rfl d s

/-- Settles O46: the branches of `readWord_state`, and an acknowledge repeated. -/
theorem readsHaveNoSideEffects : Obligations.ReadsHaveNoSideEffects := by
  refine ⟨fun s t off h4 h => ?_, fun s t u d ht hu => ?_⟩
  · rw [read_leaves h4 h, readWord_state]
    refine ⟨fun hc => ?_, fun hw hb => ?_, fun hw hb hi => ?_, fun hw hb hi => ?_⟩
    · exact if_neg (Nat.not_le.mpr hc)
    · exact (if_pos hw).trans (if_pos hb)
    · exact (if_pos hw).trans ((if_neg (ne_true_of_eq_false hb)).trans (if_pos hi))
    · exact (if_pos hw).trans ((if_neg (ne_true_of_eq_false hb)).trans (if_neg (Nat.not_lt.mpr hi)))
  · cases (hostTransaction_write_status d s).symm.trans ht
    cases (hostTransaction_write_status d _).symm.trans hu
    rw [State.acknowledge_respond_acknowledge]
    rfl

/-- Z, N and CODE kept, DONE and SERR not set: what every transaction leaves of STATUS (10_state.md R54). -/
structure KeepsOutcome (s t : State) : Prop where
  z : t.z = s.z
  n : t.n = s.n
  code : t.code = s.code
  done : t.done = true → s.done = true
  serr : t.serr = true → s.serr = true

theorem KeepsOutcome.refl (s : State) : KeepsOutcome s s := ⟨rfl, rfl, rfl, id, id⟩

theorem KeepsOutcome.recordAccessError (s : State) (c : Code) (off : Nat) :
    KeepsOutcome s (s.recordAccessError c off) := ⟨rfl, rfl, rfl, id, id⟩

theorem KeepsOutcome.respond {s t : State} (h : KeepsOutcome s t) (a : Response) : KeepsOutcome s (t.respond a) :=
  ⟨h.z, h.n, h.code, h.done, h.serr⟩

theorem readWord_keepsOutcome (off : Nat) (s : State) : KeepsOutcome s (readWord off s).1 := by
  rcases readWord_cases off s with ⟨_, e⟩ | ⟨_, ⟨_, e⟩ | ⟨_, _, e⟩⟩ <;> rw [e]
  · exact .refl s
  · exact .recordAccessError s _ off
  · exact .recordAccessError s _ off

theorem WriteEffect.keepsOutcome {off : Nat} {d : Word} {s t : State} (h : WriteEffect off d s t) :
    KeepsOutcome s t := by
  cases h with
  | ack => exact ⟨rfl, rfl, rfl, fun hd => (Bool.and_eq_true_iff.mp hd).1, fun hs => (Bool.and_eq_true_iff.mp hs).1⟩
  | issued _ _ => exact ⟨rfl, rfl, rfl, fun hd => absurd hd Bool.false_ne_true, id⟩
  | ignored | ctrl | cmdRejected _ _ | winRejected _ _ _ | sign _ _ | limb _ _ _ _ => exact ⟨rfl, rfl, rfl, id, id⟩

theorem perform_keepsOutcome (x : Txn) (s : State) : KeepsOutcome s (x.perform s) := by
  rcases perform_cases x s with ⟨a, e⟩ | ⟨_, a, e⟩ | ⟨_, d, a, e⟩ <;> rw [e]
  · exact (KeepsOutcome.refl s).respond a
  · exact (readWord_keepsOutcome x.off s).respond a
  · exact (writeWord_cases x.off d s).keepsOutcome.respond a

/-- Settles O47: the frame of STATUS under every transaction, and the frame of a running command. -/
theorem hostCannotChangeARunningCommand : Obligations.HostCannotChangeARunningCommand := by
  intro s t x h
  obtain rfl := (hostTransaction_next h).2
  obtain ⟨hz, hn, hcode, hdone, hserr⟩ := perform_keepsOutcome x s
  refine ⟨⟨hz, hn, hcode, hdone, hserr⟩, fun hb => ?_⟩
  obtain ⟨hbusy, hcmdw, hx, _⟩ := perform_busy x hb
  exact ⟨hx, hcmdw, hbusy⟩

end Sys2Proof.Machine
end

section
/-! SUPPORT. The byte lanes of a bus word (20_memory.md R81); Obligation O59. -/

namespace Sys2Proof

/-- Lane `k` is base-256 digit `k` of the word. -/
theorem laneByte_toNat (w : Word) (k : Nat) : (laneByte w k).toNat = w.toNat / 256 ^ k % 256 := by
  have hpow : 2 ^ (8 * k) = 256 ^ k := Nat.pow_mul 2 8 k
  rw [laneByte, BitVec.extractLsb'_toNat, Nat.shiftRight_eq_div_pow, hpow]

theorem wordOfLanes_toNat (b0 b1 b2 b3 : BitVec 8) :
    (wordOfLanes b0 b1 b2 b3).toNat
      = b0.toNat + 256 * b1.toNat + 256 ^ 2 * b2.toNat + 256 ^ 3 * b3.toNat := by
  simp only [wordOfLanes, Machine.toNat_append_eq_add]
  omega

theorem wordOfLanes_laneByte (w : Word) :
    wordOfLanes (laneByte w 0) (laneByte w 1) (laneByte w 2) (laneByte w 3) = w := by
  apply BitVec.eq_of_toNat_eq
  have hw : w.toNat < 2 ^ 32 := w.isLt
  simp only [wordOfLanes_toNat, laneByte_toNat]
  omega

/-- A lane of an aligned word in the block has its own offset in the block, wherever the block sits (R70). -/
theorem blockOffset_laneAddress (base : Nat) {off k : Nat} (h4 : off % 4 = 0) (hoff : off < Machine.blockSize)
    (hk : k < 4) : Machine.blockOffset base (Machine.laneAddress base off k) = some (off + k) := by
  simp only [Machine.blockSize] at hoff
  have hin : base ≤ base + off + k ∧ base + off + k < base + 0x5000 := by omega
  have hsub : base + off + k - base = off + k := by omega
  exact (if_pos hin).trans (congrArg some hsub)

/-- Settles O59: base-256 digits, and addresses within the block. -/
theorem byteLanesAreLittleEndian : Obligations.ByteLanesAreLittleEndian :=
  ⟨wordOfLanes_laneByte, fun w k _ => laneByte_toNat w k,
    fun base _ _ h4 hoff hk => blockOffset_laneAddress base h4 hoff hk⟩

end Sys2Proof
end

section
/-! SUPPORT. The events of an interleaving one after another (20_memory.md R84, 70_reset_and_hazards.md R258): which of
them stop the machine, and that none but a transaction reads or writes what lies outside the block; Obligations O34, O38
and O49. -/

namespace Sys2Proof.Machine

/-! ### The two fields outside the block -/

/-- A state with the model's own two fields replaced: the events to come and the last answer (log entries 2 and 4). -/
def State.setOutside (s : State) (es : List Event) (a : Option Response) : State :=
  { s with agenda := es, response := a }

theorem State.writeDests_setOutside (s : State) (ds : List (RegId × Int)) (es : List Event) (a : Option Response) :
    (s.setOutside es a).writeDests ds = (s.writeDests ds).setOutside es a := by
  induction ds generalizing s with
  | nil => rfl
  | cons d ds ih => exact ih (s.writeValue d.1 d.2)

theorem State.complete_setOutside (s : State) (r : Result) (es : List Event) (a : Option Response) :
    (s.setOutside es a).complete r = (s.complete r).setOutside es a := by
  by_cases hw : r.code.writesResults = true
  · rw [State.complete_of_writes _ r hw, State.complete_of_writes _ r hw, State.writeDests_setOutside]
    cases r.flags <;> rfl
  · have hw : r.code.writesResults = false := Bool.eq_false_iff.mpr hw
    rw [State.complete_of_not_writes _ r hw, State.complete_of_not_writes _ r hw]
    rfl

/-- The completion neither reads nor writes what lies outside the block. -/
theorem completion_setOutside {s t : State} (h : completion s = .next t) (es : List Event) (a : Option Response) :
    completion (s.setOutside es a) = .next (t.setOutside es a) := by
  by_cases hd : ∃ i, decode s.cmdw = .ok i
  · obtain ⟨i, hi⟩ := hd
    have hi' : decode (s.setOutside es a).cmdw = .ok i := hi
    rw [completion_of_decode hi, exec_eq_complete_resultOf] at h
    rw [completion_of_decode hi', exec_eq_complete_resultOf, State.complete_setOutside]
    cases h
    rfl
  · have hd' : ¬ ∃ i, decode (s.setOutside es a).cmdw = .ok i := hd
    rw [completion_of_undecodable hd] at h
    rw [completion_of_undecodable hd', State.raise, State.complete_setOutside]
    cases h
    rfl

/-- A completion leaves the events to come and the last answer. -/
theorem completion_outside {s t : State} (h : completion s = .next t) :
    t.agenda = s.agenda ∧ t.response = s.response := by
  obtain ⟨r, _, hr⟩ := completion_eq_complete s
  cases hr.symm.trans h
  have same := State.complete_same s r
  exact ⟨same.agenda, same.response⟩

theorem completion_withAgenda {s t : State} (h : completion s = .next t) (es : List Event) :
    completion { s with agenda := es } = .next { t with agenda := es } := by
  have hc := completion_setOutside h es s.response
  have ht : t.setOutside es s.response = { t with agenda := es } := by rw [← (completion_outside h).2]; rfl
  exact ht ▸ hc

theorem completion_respond {s t : State} (h : completion s = .next t) (a : Response) :
    completion (s.respond a) = .next (t.respond a) := by
  have hc := completion_setOutside h s.agenda (some a)
  have ht : t.setOutside s.agenda (some a) = t.respond a := by rw [← (completion_outside h).1]; rfl
  exact ht ▸ hc

/-! ### Where the machine stops (R71) -/

theorem completionTurn_next (s : State) : ∃ t, completionTurn s = .next t := by
  rcases completionTurn_cases s with ⟨_, h⟩ | ⟨_, _, _, h⟩
  · exact ⟨_, h⟩
  · exact ⟨_, h⟩

theorem takeEvent_next {e : Event} (h : ∀ x, e = .host x → x.off < blockSize) (s : State) :
    ∃ t, takeEvent e s = .next t := by
  cases e with
  | host x => exact ⟨_, hostTransaction_of_lt (h x rfl) s⟩
  | completion => exact completionTurn_next s
  | reset => exact ⟨_, rfl⟩

/-- Settles O34: of the events only a transaction can stop the machine, and it does exactly outside the block. -/
theorem onlyAccessesOutsideTheBlockStop : Obligations.OnlyAccessesOutsideTheBlockStop := by
  intro s
  refine ⟨?_, fun h => ?_⟩
  · rintro ⟨x, rest, ha, hoff⟩
    rw [step_of_agenda_cons ha]
    exact hostTransaction_of_ge hoff _
  · cases ha : s.agenda with
    | nil =>
      rw [step_of_agenda_nil ha]
      exact completionTurn_next s
    | cons e rest =>
      rw [step_of_agenda_cons ha]
      refine takeEvent_next (fun x hx => Nat.lt_of_not_le fun hoff => h ⟨x, rest, ?_, hoff⟩) _
      rw [ha, hx]

/-! ### Events under another agenda -/

theorem readWord_withAgenda (off : Nat) (s : State) (es : List Event) :
    readWord off { s with agenda := es } = ({ (readWord off s).1 with agenda := es }, (readWord off s).2) := by
  unfold readWord
  split
  · rfl
  · unfold readWindow
    dsimp only
    split
    · rfl
    split
    · rfl
    split <;> rfl

theorem writeWord_withAgenda (off : Nat) (d : Word) (s : State) (es : List Event) :
    writeWord off d { s with agenda := es } = { writeWord off d s with agenda := es } := by
  unfold writeWord
  split
  · unfold writeControl writeCmd
    dsimp only
    split
    · rfl
    split
    · rfl
    split
    · split <;> rfl
    · rfl
  · unfold writeWindow
    dsimp only
    split
    · rfl
    split
    · rfl
    split <;> split <;> rfl

/-- A transaction neither reads nor writes the events to come. -/
theorem perform_withAgenda (x : Txn) (s : State) (es : List Event) :
    x.perform { s with agenda := es } = { x.perform s with agenda := es } := by
  cases x with
  | read off size =>
    simp only [Txn.perform, hostRead, readWord_withAgenda]
    split <;> rfl
  | write off size d =>
    simp only [Txn.perform, hostWrite, writeWord_withAgenda]
    split <;> rfl

theorem completionTurn_withAgenda {s t : State} (h : completionTurn s = .next t) (es : List Event) :
    completionTurn { s with agenda := es } = .next { t with agenda := es } := by
  by_cases hb : s.busy = true
  · rw [completionTurn_of_busy hb] at h
    have hb' : State.busy { s with agenda := es } = true := hb
    exact (completionTurn_of_busy hb').trans (completion_withAgenda h es)
  · have hb : s.busy = false := Bool.eq_false_iff.mpr hb
    rw [completionTurn_of_idle hb] at h
    cases h
    have hb' : State.busy { s with agenda := es } = false := hb
    exact completionTurn_of_idle hb'

/-- An event has the same effect whatever is to come after it. -/
theorem takeEvent_withAgenda {e : Event} {s t : State} (h : takeEvent e s = .next t) (es : List Event) :
    takeEvent e { s with agenda := es } = .next { t with agenda := es } := by
  cases e with
  | host x =>
    obtain ⟨hoff, rfl⟩ := hostTransaction_next h
    rw [← perform_withAgenda]
    exact hostTransaction_of_lt hoff _
  | completion => exact completionTurn_withAgenda h es
  | reset =>
    cases h
    rfl

/-- An event leaves the events to come. -/
theorem takeEvent_agenda {e : Event} {s t : State} (h : takeEvent e s = .next t) : t.agenda = s.agenda := by
  have hself : takeEvent e s = .next { t with agenda := s.agenda } := takeEvent_withAgenda h s.agenda
  have ht := Host.Outcome.next.inj (h.symm.trans hself)
  rw [ht]

/-! ### Running a list of events -/

theorem runEvents_cons_of_next {e : Event} {s u : State} (h : takeEvent e s = .next u) (es : List Event) :
    runEvents (e :: es) s = runEvents es u := by
  rw [runEvents, h]

/-- A run of events that answers took its first event. -/
theorem runEvents_cons_next {e : Event} {es : List Event} {s t : State} (h : runEvents (e :: es) s = .next t) :
    ∃ u, takeEvent e s = .next u ∧ runEvents es u = .next t := by
  rw [runEvents] at h
  split at h
  next u hu => exact ⟨u, hu, h⟩
  · cases h
  · cases h

/-- Settles O38, by induction on the events: a step takes the first of them, with the effect of the event
alone. -/
theorem agendaRunsInOrder : Obligations.AgendaRunsInOrder := by
  intro es
  induction es with
  | nil =>
    rintro s t ha h
    cases h
    have hs : { s with agenda := [] } = s := by rw [← ha]
    exact congrArg Host.Outcome.next hs
  | cons e es ih =>
    rintro s t ha h
    obtain ⟨u, hu, hes⟩ := runEvents_cons_next h
    have hstep : step { s with agenda := e :: es } = .next { u with agenda := es } := takeEvent_withAgenda hu es
    rw [List.length_cons, core_run_next _ hstep]
    exact ih u t ((takeEvent_agenda hu).trans ha) hes

/-! ### The wait loop (30_encoding.md R112) -/

/-- A poll changes nothing but the answer. -/
theorem takeEvent_pollStatus (s : State) :
    takeEvent pollStatus s = .next (s.respond (.read (statusWord s) .ok)) :=
  hostTransaction_read_control (by decide) rfl s

/-- However many polls come before the completion, the wait ends with the completion and the poll that sees it. -/
theorem runEvents_waitEvents {s t : State} (hb : s.busy = true) (h : completion s = .next t) (lat : Nat) :
    ∀ a, runEvents (waitEvents lat) (s.respond a) = .next (t.respond (.read (statusWord t) .ok)) := by
  induction lat with
  | zero =>
    intro a
    have hb' : (s.respond a).busy = true := hb
    have hturn : takeEvent .completion (s.respond a) = .next (t.respond a) :=
      (completionTurn_of_busy hb').trans (completion_respond h a)
    show runEvents [.completion, pollStatus] (s.respond a) = _
    rw [runEvents_cons_of_next hturn, runEvents_cons_of_next (takeEvent_pollStatus _)]
    rfl
  | succ lat ih =>
    intro a
    have hcons : waitEvents (lat + 1) = pollStatus :: waitEvents lat := rfl
    rw [hcons, runEvents_cons_of_next (takeEvent_pollStatus _)]
    exact ih _

/-- Settles O49: the issue, then the wait from the state it leaves. -/
theorem latencyDoesNotChangeTheResult : Obligations.LatencyDoesNotChangeTheResult := by
  intro s w lat hb
  obtain ⟨r, _, hr⟩ := completion_eq_complete (s.issue w)
  have hissue : takeEvent (.host (.write offCMD 4 w)) s = .next ((s.issue w).respond (.write .ok)) :=
    (hostTransaction_write_cmd w s).trans (by rw [writeCmd_of_idle hb])
  refine ⟨_, hr, State.complete_done _ r, State.complete_busy _ r, ?_⟩
  rw [issueAndWait, runEvents_cons_of_next hissue]
  exact runEvents_waitEvents (State.issue_busy s w) hr lat _

end Sys2Proof.Machine
end

section
/-! SUPPORT. The command word and the command it stands for, both ways (30_encoding.md R100 to R106); Obligations O1
to O4. -/

namespace Sys2Proof

open Machine

/-! ### The row of a word (R103) -/

theorem matchesRow_iff (w : Word) (o : Op) : matchesRow w o = true ↔ w &&& opMask o = opMatch o := by
  rw [matchesRow, beq_iff_eq]

theorem mem_allOps (o : Op) : o ∈ allOps := by cases o <;> decide

theorem opNumber_inj {o p : Op} (h : BitVec.ofNat 6 (opNumber o) = BitVec.ofNat 6 (opNumber p)) : o = p := by
  revert h; cases o <;> cases p <;> decide

/-- Every mask covers the whole OP field, so a word's row is fixed by its opcode. -/
theorem fieldOP_of_matchesRow {w : Word} {o : Op} (h : matchesRow w o = true) :
    fieldOP w = BitVec.ofNat 6 (opNumber o) := by
  have hmask : fieldOP (opMask o) = BitVec.allOnes 6 := by cases o <;> decide
  have hmatch : fieldOP (opMatch o) = BitVec.ofNat 6 (opNumber o) := by cases o <;> decide
  calc fieldOP w = fieldOP w &&& fieldOP (opMask o) := by rw [hmask, BitVec.and_allOnes]
    _ = fieldOP (w &&& opMask o) := BitVec.extractLsb'_and.symm
    _ = BitVec.ofNat 6 (opNumber o) := by rw [(matchesRow_iff w o).mp h, hmatch]

theorem find?_matchesRow {w : Word} {o : Op} (h : matchesRow w o = true) :
    allOps.find? (matchesRow w) = some o := by
  cases hfind : allOps.find? (matchesRow w) with
  | none => exact absurd h (List.find?_eq_none.mp hfind o (mem_allOps o))
  | some p =>
    have hp := fieldOP_of_matchesRow (List.find?_some hfind)
    rw [opNumber_inj (hp.symm.trans (fieldOP_of_matchesRow h))]

/-! ### The decoder by rows (R105) -/

/-- A word decodes exactly to the operands of the row it matches, when they are well-formed. -/
theorem decode_eq_ok_iff (w : Word) (i : Instr) :
    decode w = .ok i ↔ ∃ o, matchesRow w o = true ∧ operandsOf o w = i ∧ i.wellFormed = true := by
  constructor
  · intro h
    unfold decode at h
    split at h
    · split at h <;> cases h
    next o hfind =>
      split at h
      next hwf => cases h; exact ⟨o, List.find?_some hfind, rfl, hwf⟩
      · split at h <;> cases h
  · rintro ⟨o, hrow, rfl, hwf⟩
    simp only [decode, find?_matchesRow hrow, hwf, if_true]

/-! ### Operands survive encoding (R100) -/

/-- A field placed above the bits of a word adds to it. -/
theorem toNat_or_shiftLeft {x y : Word} {a b k : Nat} (hx : x.toNat = a) (hy : y.toNat = b) (ha : a < 2 ^ k)
    (hb : b * 2 ^ k < 2 ^ 32) : (x ||| y <<< k).toNat = a + b * 2 ^ k := by
  rw [BitVec.toNat_or, BitVec.toNat_shiftLeft, hx, hy, Nat.shiftLeft_eq, Nat.mod_eq_of_lt hb, ← Nat.shiftLeft_eq,
    Nat.or_comm, ← Nat.shiftLeft_add_eq_or_of_lt ha, Nat.add_comm]

theorem opNumber_lt (o : Op) : opNumber o < 2 ^ 6 := by cases o <;> decide

section
variable (o : Op) (rd re rs1 rs2 rs3 : RegId) (imm : BitVec 7)

/-- The assembled word as the sum of its fields at their places. -/
theorem assembleWord_toNat :
    (assembleWord o rd re rs1 rs2 rs3 imm).toNat
      = opNumber o + rd.val * 2 ^ 6 + re.val * 2 ^ 9 + rs1.val * 2 ^ 12 + rs2.val * 2 ^ 15 + rs3.val * 2 ^ 18
        + imm.toNat * 2 ^ 21 := by
  have ho := opNumber_lt o
  have himm := imm.isLt
  have hop : (BitVec.ofNat 32 (opNumber o)).toNat = opNumber o := Nat.mod_eq_of_lt (by omega)
  have hreg : ∀ r : RegId, (BitVec.ofNat 32 r.val).toNat = r.val := fun r => Nat.mod_eq_of_lt (by omega)
  have h1 := toNat_or_shiftLeft (k := 6) hop (hreg rd) (by omega) (by omega)
  have h2 := toNat_or_shiftLeft (k := 9) h1 (hreg re) (by omega) (by omega)
  have h3 := toNat_or_shiftLeft (k := 12) h2 (hreg rs1) (by omega) (by omega)
  have h4 := toNat_or_shiftLeft (k := 15) h3 (hreg rs2) (by omega) (by omega)
  have h5 := toNat_or_shiftLeft (k := 18) h4 (hreg rs3) (by omega) (by omega)
  exact toNat_or_shiftLeft h5 (BitVec.toNat_setWidth_of_le (by decide)) (by omega) (by omega)

/-- Each operand is read back from its field, whatever the others hold. -/
theorem fields_assembleWord :
    fieldRD (assembleWord o rd re rs1 rs2 rs3 imm) = rd ∧ fieldRE (assembleWord o rd re rs1 rs2 rs3 imm) = re ∧
      fieldRS1 (assembleWord o rd re rs1 rs2 rs3 imm) = rs1 ∧ fieldRS2 (assembleWord o rd re rs1 rs2 rs3 imm) = rs2 ∧
      fieldRS3 (assembleWord o rd re rs1 rs2 rs3 imm) = rs3 ∧
      fieldIMM7 (assembleWord o rd re rs1 rs2 rs3 imm) = imm := by
  have ho := opNumber_lt o
  have himm := imm.isLt
  refine ⟨Fin.ext ?_, Fin.ext ?_, Fin.ext ?_, Fin.ext ?_, Fin.ext ?_, BitVec.eq_of_toNat_eq ?_⟩ <;>
    simp only [fieldRD, fieldRE, fieldRS1, fieldRS2, fieldRS3, fieldIMM7, BitVec.val_toFin,
      BitVec.extractLsb'_toNat, Nat.shiftRight_eq_div_pow, assembleWord_toNat] <;>
    omega

end

theorem operandsOf_encode (i : Instr) : operandsOf i.op (encode i) = i := by
  cases i <;> simp only [Instr.op, operandsOf, encode, fields_assembleWord]

/-- The word of a command matches the row of its opcode (R103). -/
theorem matchesRow_encode (i : Instr) : matchesRow (encode i) i.op = true := by
  cases i with
  | clr rd => exact Laws.EncodingFits.clr rd
  | copy rd rs1 => exact Laws.EncodingFits.copy rd rs1
  | prepend rd rs1 imm => exact Laws.EncodingFits.prepend rd rs1 imm
  | iszero rs1 => exact Laws.EncodingFits.iszero rs1
  | add rd rs1 rs2 => exact Laws.EncodingFits.add rd rs1 rs2
  | sub rd rs1 rs2 => exact Laws.EncodingFits.sub rd rs1 rs2
  | mul rd rs1 rs2 => exact Laws.EncodingFits.mul rd rs1 rs2
  | divs rd re rs1 rs2 => exact Laws.EncodingFits.divs rd re rs1 rs2
  | divl rd re rs1 rs2 => exact Laws.EncodingFits.divl rd re rs1 rs2
  | modexp rd rs1 rs2 rs3 => exact Laws.EncodingFits.modexp rd rs1 rs2 rs3
  | modinv rd rs1 rs2 => exact Laws.EncodingFits.modinv rd rs1 rs2
  | isprime rd rs1 => exact Laws.EncodingFits.isprime rd rs1

/-- Settles O2: the word matches the command's row, and that row's operands are read back from their fields. -/
theorem decodeOfEncodeIsTheCommand : Obligations.DecodeOfEncodeIsTheCommand := fun i hwf =>
  (decode_eq_ok_iff _ i).mpr ⟨i.op, matchesRow_encode i, operandsOf_encode i, hwf⟩

/-! ### No bit of a legal word is ignored (R104) -/

/-- A field put back where it was read from keeps exactly its bits of the word. -/
theorem ofNat_field_shiftLeft (w : Word) (k n : Nat) :
    BitVec.ofNat 32 (w.extractLsb' k n).toNat <<< k = w &&& (BitVec.allOnes n).setWidth 32 <<< k := by
  ext j hj
  rw [BitVec.ofNat_toNat]
  by_cases hk : j < k
  · simp [hk]
  · simp [hk, Nat.add_sub_cancel' (Nat.not_lt.mp hk), BitVec.getLsbD_eq_getElem hj, Bool.and_comm]

/-- The command read from the fields of a row encodes to the row's fixed bits and the word's own used fields. -/
theorem encode_operandsOf (o : Op) (w : Word) : encode (operandsOf o w) = opMatch o ||| (w &&& ~~~ opMask o) := by
  have hrd : BitVec.ofNat 32 (fieldRD w).val <<< 6 = w &&& 0x000001C0#32 := ofNat_field_shiftLeft w 6 3
  have hre : BitVec.ofNat 32 (fieldRE w).val <<< 9 = w &&& 0x00000E00#32 := ofNat_field_shiftLeft w 9 3
  have hrs1 : BitVec.ofNat 32 (fieldRS1 w).val <<< 12 = w &&& 0x00007000#32 := ofNat_field_shiftLeft w 12 3
  have hrs2 : BitVec.ofNat 32 (fieldRS2 w).val <<< 15 = w &&& 0x00038000#32 := ofNat_field_shiftLeft w 15 3
  have hrs3 : BitVec.ofNat 32 (fieldRS3 w).val <<< 18 = w &&& 0x001C0000#32 := ofNat_field_shiftLeft w 18 3
  have himm : (fieldIMM7 w).setWidth 32 <<< 21 = w &&& 0x0FE00000#32 :=
    (BitVec.ofNat_toNat .. ▸ ofNat_field_shiftLeft w 21 7 :)
  cases o <;>
    simp [operandsOf, encode, assembleWord, hrd, hre, hrs1, hrs2, hrs3, himm, opNumber, opMatch, opMask,
      BitVec.or_assoc, ← BitVec.and_or_distrib_left]

/-- Settles O3: the bits of a legal word outside its used fields are the row's fixed bits. -/
theorem encodeOfDecodeIsTheWord : Obligations.EncodeOfDecodeIsTheWord := by
  intro w i h
  obtain ⟨o, hrow, rfl, hwf⟩ := (decode_eq_ok_iff w i).mp h
  refine ⟨hwf, ?_⟩
  rw [encode_operandsOf, ← (matchesRow_iff w o).mp hrow, ← BitVec.and_or_distrib_left, BitVec.or_not_self,
    BitVec.and_allOnes]

/-! ### Illegal words (R105) -/

theorem fieldRD_eq_fieldRE_iff (w : Word) : fieldRD w = fieldRE w ↔ w.extractLsb' 6 3 = w.extractLsb' 9 3 :=
  BitVec.toFin_inj

/-- Beyond mask and match, legality asks for well-formed operands. -/
theorem wellFormed_operandsOf {w : Word} {o : Op} (h : matchesRow w o = true) :
    (operandsOf o w).wellFormed = true ↔
      ¬ ((fieldOP w = 0x0B#6 ∨ fieldOP w = 0x0C#6) ∧ fieldRD w = fieldRE w) ∧
        ¬ (fieldOP w = 0x03#6 ∧ 99 < (fieldIMM7 w).toNat) := by
  rw [fieldOP_of_matchesRow h]
  cases o <;> simp [operandsOf, Instr.wellFormed, opNumber]

/-- Settles O4: a word decodes through the row it matches, and one that does not decode completes with an error. -/
theorem illegalWordsCompleteWithIllegalCommand : Obligations.IllegalWordsCompleteWithIllegalCommand := by
  intro w
  rw [← fieldRD_eq_fieldRE_iff]
  refine ⟨⟨?_, ?_⟩, fun h s hs => ?_, ?_⟩
  · rintro ⟨i, h⟩
    obtain ⟨o, hrow, rfl, hwf⟩ := (decode_eq_ok_iff w i).mp h
    exact ⟨⟨o, mem_allOps o, (matchesRow_iff w o).mp hrow⟩, (wellFormed_operandsOf hrow).mp hwf⟩
  · rintro ⟨⟨o, -, hmatch⟩, hcond⟩
    have hrow := (matchesRow_iff w o).mpr hmatch
    exact ⟨_, (decode_eq_ok_iff w _).mpr ⟨o, hrow, rfl, (wellFormed_operandsOf hrow).mpr hcond⟩⟩
  · rw [completion_of_undecodable (hs ▸ h), State.raise_eq_erred s .illegalCommand rfl, Code.byte_illegalCommand]
  · have hzero : decode 0#32 = .error .unassignedOpcode := by decide +kernel
    rintro ⟨i, h⟩
    exact nomatch hzero.symm.trans h

/-- Settles O1: the sixteen printed words, each decoded. -/
theorem printedWordsDecodeAsPrinted : Obligations.PrintedWordsDecodeAsPrinted := by
  unfold Obligations.PrintedWordsDecodeAsPrinted
  decide +kernel

end Sys2Proof
end

section
/-! SUPPORT. The assembler's two directions (30_encoding.md R110); Obligation O5. -/

namespace Sys2Proof.Machine

/-- A well-formed command is assembled back from the operands R110 prints for it. -/
theorem assembleCommand_asmOperands {i : Instr} (h : i.wellFormed = true) :
    assembleCommand i.op (asmOperands i) = .ok i := by
  cases i with
  | prepend rd rs1 imm => simp [Instr.op, asmOperands, assembleCommand, of_decide_eq_true h]
  | divs rd re rs1 rs2 => exact if_neg (of_decide_eq_true h)
  | divl rd re rs1 rs2 => exact if_neg (of_decide_eq_true h)
  | _ => rfl

/-- Everything the assembler accepts. -/
theorem assembleCommand_eq_ok {o : Op} {ops : List AsmOperand} {i : Instr} (h : assembleCommand o ops = .ok i) :
    i.op = o ∧ ops = asmOperands i ∧ i.wellFormed = true := by
  unfold assembleCommand at h
  split at h
  case h_3 rd rs1 k =>
    split at h
    next hk =>
      cases h
      have himm : (BitVec.ofNat 7 k).toNat = k := Nat.mod_eq_of_lt (by omega)
      simp [Instr.op, asmOperands, Instr.wellFormed, himm, hk]
    · cases h
  case h_8 | h_9 =>
    split at h
    · cases h
    next hne => cases h; exact ⟨rfl, rfl, decide_eq_true hne⟩
  all_goals cases h
  all_goals exact ⟨rfl, rfl, rfl⟩

/-- Settles O5, by the two directions. -/
theorem assemblerAcceptsExactlyWellFormedCommands : Obligations.AssemblerAcceptsExactlyWellFormedCommands := by
  refine fun o ops i => ⟨assembleCommand_eq_ok, ?_⟩
  rintro ⟨rfl, rfl, hwf⟩
  exact assembleCommand_asmOperands hwf

end Sys2Proof.Machine
end

section
/-! SUPPORT. Commands that succeed, from their results, and lists of them completed one after another: the
pseudo-instructions (30_encoding.md R111); Obligations O51 and O52. -/

namespace Sys2Proof.Machine

/-! ### Successful commands -/

/-- A command whose result is one value that fits writes that value and nothing else. -/
theorem writesOne_of_resultOf {i : Instr} {s : State} {rd : RegId} {v : Int}
    (h : resultOf s.value i = Result.single rd v) (hv : v.natAbs < CAP) : WritesOne i s rd v := by
  have hreg : (s.complete (Result.single rd v)).reg rd = pack v := State.reg_writeValue_same s rd v
  exact ⟨s.complete (Result.single rd v), h ▸ exec_eq_complete_resultOf i s,
    (congrArg NumReg.val hreg).trans (val_pack hv), hreg, ⟨rfl, rfl⟩, State.complete_completedAs s (Result.single rd v),
    State.complete_same s (Result.single rd v)⟩

/-- A command whose result is a quotient and a remainder that fit writes both and nothing else. -/
theorem writesQuotRem_of_resultOf {i : Instr} {s : State} {rd re : RegId} {q r : Int} (hne : rd ≠ re)
    (h : resultOf s.value i = Result.quotRem rd re q r) (hq : q.natAbs < CAP) (hr : r.natAbs < CAP) :
    WritesQuotRem i s rd re q r := by
  have hre : (s.complete (Result.quotRem rd re q r)).reg re = pack r := State.reg_writeValue_same _ re r
  have hrd : (s.complete (Result.quotRem rd re q r)).reg rd = pack q :=
    (State.reg_writeValue_of_ne _ r hne).trans (State.reg_writeValue_same s rd q)
  exact ⟨s.complete (Result.quotRem rd re q r), h ▸ exec_eq_complete_resultOf i s,
    (congrArg NumReg.val hrd).trans (val_pack hq), (congrArg NumReg.val hre).trans (val_pack hr), hrd, hre, ⟨rfl, rfl⟩,
    State.complete_completedAs s (Result.quotRem rd re q r), State.complete_same s (Result.quotRem rd re q r)⟩

theorem ninetynine_lt_cap : 99 < CAP := by decide +kernel

theorem clr_writesOne (rd : RegId) (s : State) : WritesOne (.clr rd) s rd 0 :=
  writesOne_of_resultOf rfl natAbs_zero_lt_cap

theorem prependValue_natCast {m c : Nat} (h : m * 100 + c < CAP) :
    prependValue m c = .ok ((m * 100 + c : Nat) : Int) := by
  rw [prependValue, Int.natAbs_natCast, if_neg (Nat.not_le.mpr h), if_neg (Int.not_lt.mpr (Int.natCast_nonneg m))]

/-- PREPEND of a digit onto a number takes the number to the next longer numeral (40_buffer.md R132). -/
theorem prependDigit_writesOne {rd : RegId} {s : State} {m c : Nat} (hm : s.value rd = m) (hc : c ≤ 99)
    (hfits : m * 100 + c < CAP) : WritesOne (prependDigit rd c) s rd ((m * 100 + c : Nat) : Int) := by
  have himm : (BitVec.ofNat 7 c).toNat = c := Nat.mod_eq_of_lt (by omega)
  have hresult : resultOf s.value (prependDigit rd c) = Result.single rd ((m * 100 + c : Nat) : Int) := by
    rw [prependDigit, resultOf, himm, if_pos hc, hm, prependValue_natCast hfits]
    rfl
  exact writesOne_of_resultOf hresult hfits

/-! ### Lists of commands (70_reset_and_hazards.md R253) -/

theorem runCommands_cons_of_next {i : Instr} {s t : State} (h : exec i s = .next t) (is : List Instr) :
    runCommands (i :: is) s = runCommands is t := by
  simp only [runCommands, h]

theorem runCommands_append_of_next {is : List Instr} {s t : State} (h : runCommands is s = .next t)
    (js : List Instr) : runCommands (is ++ js) s = runCommands js t := by
  induction is generalizing s with
  | nil => cases h; rfl
  | cons i is ih =>
    have hexec := exec_eq_complete_resultOf i s
    rw [runCommands_cons_of_next hexec] at h
    rw [List.cons_append, runCommands_cons_of_next hexec]
    exact ih h

/-- The commands complete one after another with code OK, and load `rd` with `v`, leaving the other registers alone. -/
def Loads (is : List Instr) (s : State) (rd : RegId) (v : Int) : Prop :=
  ∃ t, runCommands is s = .next t ∧ t.value rd = v ∧ t.code = 0#8 ∧ ∀ q, q ≠ rd → t.reg q = s.reg q

theorem WritesOne.loads {i : Instr} {s : State} {rd : RegId} {v : Int} (h : WritesOne i s rd v) :
    Loads [i] s rd v := by
  obtain ⟨t, hexec, hv, -, -, hcompleted, hsame⟩ := h
  exact ⟨t, runCommands_cons_of_next hexec [], hv, hcompleted.code, fun q hq => hsame.regs q (by simpa using hq)⟩

/-- A command that loads `rd` from whatever the commands before it leave there. -/
theorem Loads.snoc {is : List Instr} {i : Instr} {s : State} {rd : RegId} {v w : Int} (h : Loads is s rd v)
    (hi : ∀ t : State, t.value rd = v → (∀ q, q ≠ rd → t.reg q = s.reg q) → WritesOne i t rd w) :
    Loads (is ++ [i]) s rd w := by
  obtain ⟨t, hrun, hv, -, hframe⟩ := h
  obtain ⟨u, hrun', hw, hcode, hframe'⟩ := (hi t hv hframe).loads
  exact ⟨u, (runCommands_append_of_next hrun [i]).trans hrun', hw, hcode,
    fun q hq => (hframe' q hq).trans (hframe q hq)⟩

/-! ### Loading a number digit by digit -/

/-- The commands of LDN: `CLR rd`, then one PREPEND per significant digit, the most significant first. -/
theorem significantDigits_loads (rd : RegId) (s : State) {fuel k : Nat} (hfuel : k < 100 ^ fuel) (hk : k < CAP) :
    Loads (.clr rd :: (significantDigits fuel k).reverse.map (prependDigit rd)) s rd k := by
  have hclr := (clr_writesOne rd s).loads
  induction fuel generalizing k with
  | zero =>
    obtain rfl : k = 0 := by simpa using hfuel
    exact hclr
  | succ fuel ih =>
    rcases Nat.eq_zero_or_pos k with rfl | hpos
    · exact hclr
    have hsplit : k / 100 * 100 + k % 100 = k := Nat.div_add_mod' k 100
    have hhigh := ih (k := k / 100) (by omega) (by omega)
    rw [significantDigits, if_neg (by omega), List.reverse_cons, List.map_append, ← List.cons_append]
    refine hhigh.snoc fun t ht _ => ?_
    have hdigit := prependDigit_writesOne ht (c := k % 100) (by omega) (by omega)
    rwa [hsplit] at hdigit

/-- Settles O51, by induction on the digits of the number. -/
theorem ldnLoadsTheNumber : Obligations.LdnLoadsTheNumber := by
  intro s rd k hk
  obtain ⟨t, ht⟩ := significantDigits_loads rd s (cap_eq ▸ hk) hk
  exact ⟨_, t, if_pos hk, ht⟩

/-! ### MOV, LDI, NEG and MOD -/

theorem neg_loads {s : State} (hs : s.LimbsInRange) {rd rs : RegId} (hne : rd ≠ rs) :
    Loads [.clr rd, .sub rd rd rs] s rd (-s.value rs) := by
  have hfits : (-s.value rs).natAbs < CAP := (Int.natAbs_neg _).trans_lt (natAbs_val_lt_cap (hs rs))
  refine (clr_writesOne rd s).loads.snoc fun t hzero hframe => ?_
  have hrs : t.value rs = s.value rs := congrArg NumReg.val (hframe rs hne.symm)
  refine writesOne_of_resultOf ?_ hfits
  rw [resultOf, hzero, hrs, Int.zero_sub, chk_of_lt hfits]
  rfl

theorem divl_writesQuotRem {s : State} (hs : s.LimbsInRange) {rd re rs1 rs2 : RegId} (hne : rd ≠ re)
    (hb : s.value rs2 ≠ 0) :
    WritesQuotRem (.divl rd re rs1 rs2) s rd re (tquo (s.value rs1) (s.value rs2))
      (trem (s.value rs1) (s.value rs2)) := by
  have ha := natAbs_val_lt_cap (hs rs1)
  refine writesQuotRem_of_resultOf hne ?_ (natAbs_tquo_lt_cap ha _) (natAbs_trem_lt_cap ha _)
  rw [resultOf, if_neg hne, divlResult, if_neg hb]

/-- Settles O52: each expansion completes command by command. -/
theorem pseudoInstructionsMeanWhatTheyExpandTo : Obligations.PseudoInstructionsMeanWhatTheyExpandTo := by
  refine fun s hs => ⟨fun rd rs => ?mov, fun rd k hk => ?ldi, fun rd rs hne => ?neg, fun rd rt rs1 rs2 hne hb => ?mod⟩
  case mov =>
    have hcopy : WritesOne (.copy rd rs) s rd (s.value rs) := writesOne_of_resultOf rfl (natAbs_val_lt_cap (hs rs))
    obtain ⟨t, hrun, hv, -⟩ := hcopy.loads
    exact ⟨_, t, rfl, hrun, hv⟩
  case ldi =>
    have hfits : 0 * 100 + k < CAP := by
      have := ninetynine_lt_cap
      omega
    have hload : Loads [.clr rd, prependDigit rd k] s rd k :=
      (clr_writesOne rd s).loads.snoc fun t hzero _ => (by simpa using prependDigit_writesOne hzero hk hfits)
    obtain ⟨t, hrun, hv, -⟩ := hload
    exact ⟨_, t, if_pos hk, hrun, hv⟩
  case neg =>
    obtain ⟨t, hrun, hv, -⟩ := neg_loads hs hne
    exact ⟨_, t, if_neg hne, hrun, hv⟩
  case mod =>
    obtain ⟨t, hexec, hq, hr, -⟩ := divl_writesQuotRem hs hne hb
    exact ⟨_, t, if_neg hne, runCommands_cons_of_next hexec [],
      hr.trans (trem_eq_tmod _ _), hq.trans (tquo_eq_tdiv _ _)⟩

end Sys2Proof.Machine
end

section
/-! SUPPORT. The limb-buffer commands (40_buffer.md R130 to R133), and what a shift by one limb does to a register's
digits; Obligations O11 to O15. -/

namespace Sys2Proof.Machine

/-! ### Digits read back from the limbs -/

/-- In range, limb `i` is base-100 digit `i` of the number the limbs stand for (10_state.md R32). -/
theorem getD_toNat_eq_digit {ls : List Limb} (h : ∀ l ∈ ls, l.toNat ≤ 99) (i : Nat) :
    (ls.getD i 0#7).toNat = limbsValue ls / 100 ^ i % 100 := by
  induction ls generalizing i with
  | nil => simp [limbsValue]
  | cons l ls ih =>
    simp only [List.forall_mem_cons] at h
    obtain ⟨hl, hls⟩ := h
    rw [limbsValue_cons]
    cases i with
    | zero => rw [List.getD_cons_zero]; omega
    | succ i =>
      have htail : (l.toNat + 100 * limbsValue ls) / 100 = limbsValue ls := by omega
      rw [List.getD_cons_succ, ih hls, Nat.pow_succ', ← Nat.div_div_eq_div_mul, htail]

theorem limb_toNat_eq_digit {r : NumReg} (h : r.LimbsInRange) (i : Nat) :
    (r.limb i).toNat = r.mag / 100 ^ i % 100 := getD_toNat_eq_digit h i

/-- The last limb is zero exactly when the number leaves room for one more digit below it. -/
theorem append_digit_lt_pow_iff {ls : List Limb} {k c : Nat} (hlen : ls.length = k + 1)
    (h : ∀ l ∈ ls, l.toNat ≤ 99) (hc : c ≤ 99) :
    limbsValue ls * 100 + c < 100 ^ (k + 1) ↔ ls.getD k 0#7 = 0#7 := by
  have hval : limbsValue ls < 100 ^ (k + 1) := hlen ▸ limbsValue_lt h
  rw [Nat.pow_succ] at hval ⊢
  have hdigit : limbsValue ls / 100 ^ k < 100 := Nat.div_lt_of_lt_mul hval
  have hzero : ls.getD k 0#7 = 0#7 ↔ limbsValue ls < 100 ^ k := by
    rw [← BitVec.toNat_inj, getD_toNat_eq_digit h, Nat.mod_eq_of_lt hdigit]
    exact Nat.div_eq_zero_iff_lt (Nat.pow_pos (by decide))
  rw [hzero]
  omega

/-- A digit appended below fits a register exactly when the top limb is zero (40_buffer.md R132). -/
theorem append_digit_lt_cap_iff {r : NumReg} (h : r.LimbsInRange) {c : Nat} (hc : c ≤ 99) :
    r.val.natAbs * 100 + c < CAP ↔ r.limb 308 = 0#7 := by
  rw [natAbs_val, cap_eq]
  exact append_digit_lt_pow_iff (k := 308) r.limbs.property h hc

theorem all_eq_zero_iff_getD (ls : List Limb) :
    ls.all (fun l => l == 0#7) = true ↔ ∀ i, i < ls.length → ls.getD i 0#7 = 0#7 := by
  rw [List.all_eq_true, List.forall_mem_iff_getElem]
  refine forall₂_congr fun i hi => ?_
  rw [beq_iff_eq, List.getD_eq_getElem _ _ hi]

/-- The test of ISZERO, limb by limb (40_buffer.md R133). -/
theorem allLimbsZero_iff_limb (r : NumReg) : r.allLimbsZero = true ↔ ∀ i, i < NLIMBS → r.limb i = 0#7 := by
  have h := all_eq_zero_iff_getD r.limbs.val
  rwa [r.limbs.property] at h

/-! ### Commands that end with an error -/

/-- A command whose result is an error writes only CODE, SERR, DONE and BUSY (60_exceptions.md R211). -/
theorem endsWith_of_resultOf {i : Instr} {s : State} {c : Code} (h : resultOf s.value i = Result.raised c)
    (hc : c.writesResults = false) : EndsWith i s c.byte := by
  rw [EndsWith, exec_eq_complete_resultOf, h, State.complete_raised s c hc]

/-! ### PREPEND -/

/-- What PREPEND writes where it fits: `|v| * 100 + c` under the sign of `v` (40_buffer.md R132). -/
def appendDigit (v : Int) (c : Nat) : Int :=
  if v < 0 then -((v.natAbs * 100 + c : Nat) : Int) else ((v.natAbs * 100 + c : Nat) : Int)

theorem natAbs_appendDigit (v : Int) (c : Nat) : (appendDigit v c).natAbs = v.natAbs * 100 + c := by
  unfold appendDigit
  split <;> omega

theorem prependValue_of_lt {v : Int} {c : Nat} (h : v.natAbs * 100 + c < CAP) :
    prependValue v c = .ok (appendDigit v c) := if_neg (Nat.not_le.mpr h)

theorem prependValue_of_ge {v : Int} {c : Nat} (h : CAP ≤ v.natAbs * 100 + c) :
    prependValue v c = .error .capacityOverflow := if_pos h

section
variable {s : State} {rs1 : RegId} {imm : BitVec 7}

theorem prepend_writesOne (rd : RegId) (hs : s.LimbsInRange) (himm : imm.toNat ≤ 99)
    (htop : (s.reg rs1).limb 308 = 0#7) :
    WritesOne (.prepend rd rs1 imm) s rd (appendDigit (s.value rs1) imm.toNat) := by
  have hfits : (s.value rs1).natAbs * 100 + imm.toNat < CAP := (append_digit_lt_cap_iff (hs rs1) himm).mpr htop
  refine writesOne_of_resultOf ?_ ((natAbs_appendDigit _ _).trans_lt hfits)
  rw [resultOf, if_pos himm, prependValue_of_lt hfits, Result.ofChecked]

theorem prepend_overflows (rd : RegId) (hs : s.LimbsInRange) (himm : imm.toNat ≤ 99)
    (htop : (s.reg rs1).limb 308 ≠ 0#7) : EndsWith (.prepend rd rs1 imm) s 2#8 := by
  have hbig : CAP ≤ (s.value rs1).natAbs * 100 + imm.toNat :=
    Nat.not_lt.mp fun hfits => htop ((append_digit_lt_cap_iff (hs rs1) himm).mp hfits)
  refine endsWith_of_resultOf (c := .capacityOverflow) ?_ rfl
  rw [resultOf, if_pos himm, prependValue_of_ge hbig, Result.ofChecked]

theorem prepend_illegal (rd : RegId) (himm : 99 < imm.toNat) : EndsWith (.prepend rd rs1 imm) s 6#8 :=
  endsWith_of_resultOf (c := .illegalCommand) (if_neg (Nat.not_le.mpr himm)) rfl

end

/-- Appending a digit moves every digit up by one and puts the new one at the bottom (40_buffer.md R132). -/
theorem limb_pack_appendDigit {r : NumReg} (h : r.LimbsInRange) {c : BitVec 7} (hc : c.toNat ≤ 99) :
    (pack (appendDigit r.val c.toNat)).limb 0 = c ∧
      ∀ i, i < 308 → (pack (appendDigit r.val c.toNat)).limb (i + 1) = r.limb i := by
  have digit : ∀ i, i < NLIMBS →
      ((pack (appendDigit r.val c.toNat)).limb i).toNat = (r.mag * 100 + c.toNat) / 100 ^ i % 100 := fun i hi =>
    (packLimbs_getD hi _).trans (by rw [natAbs_appendDigit, natAbs_val])
  refine ⟨BitVec.eq_of_toNat_eq ?_, fun i hi => BitVec.eq_of_toNat_eq ?_⟩
  · rw [digit 0 (by decide)]
    omega
  · have hshift : (r.mag * 100 + c.toNat) / 100 = r.mag := by omega
    rw [digit (i + 1) (Nat.succ_lt_succ hi), limb_toNat_eq_digit h, Nat.pow_succ', ← Nat.div_div_eq_div_mul, hshift]

/-! ### The obligations -/

/-- Settles O11: zero fits, so CLR writes it. -/
theorem clrWritesZero : Obligations.ClrWritesZero :=
  ⟨by decide +kernel, fun s rd => clr_writesOne rd s⟩

/-- Settles O12: the value of an in-range register fits, so its packed copy reads back as it. -/
theorem copyWritesTheSourceValue : Obligations.CopyWritesTheSourceValue :=
  ⟨by decide +kernel, fun _ _ rs1 hs => writesOne_of_resultOf rfl (natAbs_val_lt_cap (hs rs1))⟩

/-- Settles O13: the appended digit fits exactly when the top limb is zero, and the immediate is checked first. -/
theorem prependAppendsALowLimb : Obligations.PrependAppendsALowLimb :=
  ⟨by decide +kernel, fun _ rd _ _ hs => ⟨prepend_writesOne rd hs, prepend_overflows rd hs, prepend_illegal rd⟩⟩

/-- Settles O14: the register holds the packed result, whose digits are the source's moved up by one. -/
theorem prependShiftsTheLimbs : Obligations.PrependShiftsTheLimbs := by
  intro s t rd rs1 imm hs himm htop hexec
  obtain ⟨u, hu, -, hreg, -⟩ := prepend_writesOne rd hs himm htop
  obtain rfl := Host.Outcome.next.inj (hexec.symm.trans hu)
  obtain ⟨hlow, hhigh⟩ := limb_pack_appendDigit (hs rs1) himm
  rw [hreg]
  refine ⟨hlow, fun i hlo hhi => ?_⟩
  obtain ⟨j, rfl⟩ := Nat.exists_eq_add_of_le' hlo
  exact hhigh j hhi

/-- Settles O15: the flags are those of the value, which is zero exactly when all limbs are; the result has no
destination. -/
theorem iszeroWritesOnlyFlags : Obligations.IszeroWritesOnlyFlags := by
  refine ⟨by decide +kernel, fun s rs1 => ⟨_, exec_eq_complete_resultOf (.iszero rs1) s, ?_, ⟨rfl, rfl⟩,
    State.complete_completedAs s (resultOf s.value (.iszero rs1)), complete_resultOf_same (.iszero rs1) s⟩⟩
  rw [← allLimbsZero_iff_limb, allLimbsZero_eq_decide_val]
  rfl

end Sys2Proof.Machine
end

section
/-! SUPPORT. The arithmetic commands (41_arith.md R150 to R155): one outcome lemma for the checked commands, one per outcome
of a division; Obligations O16 to O20. -/

namespace Sys2Proof.Machine

/-! ### Commands that check one exact value (R157) -/

/-- A command whose result is a checked value writes it where it fits and ends with CapacityOverflow where it does not. -/
theorem outcome_of_resultOf_chk {i : Instr} {s : State} {rd : RegId} {v : Int}
    (h : resultOf s.value i = Result.ofChecked rd (chk v)) :
    (v.natAbs < CAP → WritesOne i s rd v) ∧ (CAP ≤ v.natAbs → EndsWith i s 2#8) := by
  refine ⟨fun hfits => writesOne_of_resultOf ?_ hfits,
    fun hbig => endsWith_of_resultOf (c := .capacityOverflow) ?_ rfl⟩
  · rw [h, chk_of_lt hfits, Result.ofChecked]
  · rw [h, chk_of_ge hbig, Result.ofChecked]

/-- The zero shortcut of MUL answers what the check of the product answers (R153). -/
theorem mulValue_eq_chk (a b : Int) : mulValue a b = chk (a * b) := by
  unfold mulValue
  split
  next hzero => rw [Int.mul_eq_zero.mpr hzero, chk_of_lt natAbs_zero_lt_cap]
  next => rfl

/-! ### Divisions -/

section
variable {s : State} {rd re rs1 rs2 : RegId}

theorem divs_illegal (h : rd = re) : EndsWith (.divs rd re rs1 rs2) s 6#8 :=
  endsWith_of_resultOf (c := .illegalCommand) (if_pos h) rfl

theorem divl_illegal (h : rd = re) : EndsWith (.divl rd re rs1 rs2) s 6#8 :=
  endsWith_of_resultOf (c := .illegalCommand) (if_pos h) rfl

theorem divs_by_zero (hne : rd ≠ re) (hb : s.value rs2 = 0) : EndsWith (.divs rd re rs1 rs2) s 3#8 :=
  endsWith_of_resultOf (c := .divisionByZero) (by rw [resultOf, if_neg hne, divsResult, if_pos hb]) rfl

theorem divl_by_zero (hne : rd ≠ re) (hb : s.value rs2 = 0) : EndsWith (.divl rd re rs1 rs2) s 3#8 :=
  endsWith_of_resultOf (c := .divisionByZero) (by rw [resultOf, if_neg hne, divlResult, if_pos hb]) rfl

/-- The quotient of DIVS exceeds one limb exactly when the dividend reaches a hundred divisors (R154). -/
theorem quotient_exceeds_limb_iff {a b : Int} (hb : b ≠ 0) : 99 < (tquo a b).natAbs ↔ 100 * b.natAbs ≤ a.natAbs := by
  rw [natAbs_tquo]
  exact Nat.le_div_iff_mul_le (Int.natAbs_pos.mpr hb)

theorem divs_overflows (hne : rd ≠ re) (hb : s.value rs2 ≠ 0)
    (hbig : 100 * (s.value rs2).natAbs ≤ (s.value rs1).natAbs) : EndsWith (.divs rd re rs1 rs2) s 2#8 := by
  refine endsWith_of_resultOf (c := .capacityOverflow) ?_ rfl
  rw [resultOf, if_neg hne, divsResult, if_neg hb, if_pos ((quotient_exceeds_limb_iff hb).mpr hbig)]

theorem divs_writesQuotRem (hs : s.LimbsInRange) (hne : rd ≠ re) (hb : s.value rs2 ≠ 0)
    (hsmall : (s.value rs1).natAbs < 100 * (s.value rs2).natAbs) :
    WritesQuotRem (.divs rd re rs1 rs2) s rd re (tquo (s.value rs1) (s.value rs2))
      (trem (s.value rs1) (s.value rs2)) := by
  have ha := natAbs_val_lt_cap (hs rs1)
  have hlimb : ¬ 99 < (tquo (s.value rs1) (s.value rs2)).natAbs := fun h =>
    Nat.not_le.mpr hsmall ((quotient_exceeds_limb_iff hb).mp h)
  refine writesQuotRem_of_resultOf hne ?_ (natAbs_tquo_lt_cap ha _) (natAbs_trem_lt_cap ha _)
  rw [resultOf, if_neg hne, divsResult, if_neg hb, if_neg hlimb]

end

/-! ### The obligations -/

/-- Settles O16: ADD is the check of the exact sum. -/
theorem addIsExactOrOverflows : Obligations.AddIsExactOrOverflows :=
  ⟨by decide +kernel, fun _ _ _ _ => outcome_of_resultOf_chk rfl⟩

/-- Settles O17: SUB is the check of the exact difference. -/
theorem subIsExactOrOverflows : Obligations.SubIsExactOrOverflows :=
  ⟨by decide +kernel, fun _ _ _ _ => outcome_of_resultOf_chk rfl⟩

/-- Settles O18: MUL is the check of the exact product, its zero shortcut included. -/
theorem mulIsExactOrOverflows : Obligations.MulIsExactOrOverflows :=
  ⟨by decide +kernel, fun _ _ _ _ => outcome_of_resultOf_chk (by rw [resultOf, mulValue_eq_chk])⟩

/-- Settles O19: the checks of DIVS in R154's order, and a quotient of one limb otherwise. -/
theorem divsIsOneLimbDivision : Obligations.DivsIsOneLimbDivision := by
  refine ⟨by decide +kernel, fun s rd re rs1 rs2 hs =>
    ⟨divs_illegal, divs_by_zero, divs_overflows, fun hne hb hsmall => ?_⟩⟩
  rw [← tquo_eq_tdiv, ← trem_eq_tmod]
  exact divs_writesQuotRem hs hne hb hsmall

/-- Settles O20: quotient and remainder are no longer than the dividend, so DIVL cannot overflow. -/
theorem divlIsTruncatedDivision : Obligations.DivlIsTruncatedDivision := by
  refine ⟨by decide +kernel, fun s rd re rs1 rs2 hs => ⟨divl_illegal, divl_by_zero, fun hne hb => ?_⟩⟩
  rw [← tquo_eq_tdiv, ← trem_eq_tmod]
  exact divl_writesQuotRem hs hne hb

end Sys2Proof.Machine
end

section
/-! SUPPORT. Digit lists of the reference datapaths (41_arith.md R151 to R158): the number a list stands for, its bound, and
how it splits. -/

namespace Sys2Proof.Machine

/-- Every digit of a list is a base-100 digit. -/
abbrev DigitsInRange (ds : List Nat) : Prop := ∀ d ∈ ds, d ≤ 99

@[simp] theorem digitsValue_nil : digitsValue [] = 0 := rfl

@[simp] theorem digitsValue_cons (d : Nat) (ds : List Nat) : digitsValue (d :: ds) = d + 100 * digitsValue ds := rfl

theorem digitsValue_append (as bs : List Nat) :
    digitsValue (as ++ bs) = digitsValue as + 100 ^ as.length * digitsValue bs := by
  induction as with
  | nil => simp
  | cons a as ih =>
    rw [List.cons_append, digitsValue_cons, digitsValue_cons, ih, List.length_cons, Nat.pow_succ']
    ring

theorem digitsValue_append_single (ds : List Nat) (e : Nat) :
    digitsValue (ds ++ [e]) = digitsValue ds + 100 ^ ds.length * e := by
  rw [digitsValue_append, digitsValue_cons, digitsValue_nil, Nat.mul_zero, Nat.add_zero]

/-- A list splits at any position into the digits below it and the digits from it on. -/
theorem digitsValue_take_add_drop (k : Nat) (ds : List Nat) :
    digitsValue (ds.take k) + 100 ^ k * digitsValue (ds.drop k) = digitsValue ds := by
  induction k generalizing ds with
  | zero => simp
  | succ k ih =>
    cases ds with
    | nil => simp
    | cons d ds =>
      rw [List.take_succ_cons, List.drop_succ_cons, digitsValue_cons, digitsValue_cons, ← ih ds, Nat.pow_succ']
      ring

theorem digitsValue_lt {ds : List Nat} (h : DigitsInRange ds) : digitsValue ds < 100 ^ ds.length := by
  induction ds with
  | nil => simp
  | cons d ds ih =>
    rw [DigitsInRange, List.forall_mem_cons] at h
    have hrest := ih h.2
    rw [digitsValue_cons, List.length_cons, Nat.pow_succ']
    omega

/-- Digits that fit a register stand for a number below the capacity. -/
theorem digitsValue_lt_cap {ds : List Nat} (h : DigitsInRange ds) (hlen : ds.length ≤ NLIMBS) : digitsValue ds < CAP :=
  cap_eq ▸ (digitsValue_lt h).trans_le (Nat.pow_le_pow_right (by decide) hlen)

theorem digitsValue_eq_zero_iff (ds : List Nat) : digitsValue ds = 0 ↔ ∀ d ∈ ds, d = 0 := by
  induction ds with
  | nil => simp
  | cons d ds ih => simp [ih]

/-! ### The digits of a register (10_state.md R30, R32) -/

@[simp] theorem digits_length (r : NumReg) : r.digits.length = NLIMBS :=
  (List.length_map _).trans r.limbs.property

theorem digits_length_eq (x y : NumReg) : x.digits.length = y.digits.length :=
  (digits_length x).trans (digits_length y).symm

@[simp] theorem digitsValue_digits (r : NumReg) : digitsValue r.digits = r.mag := List.foldr_map

theorem digits_inRange {r : NumReg} (h : r.LimbsInRange) : DigitsInRange r.digits := List.forall_mem_map.mpr h

/-! ### Signed digit lists -/

theorem signedValue_negative (ds : List Nat) : signedValue (true, ds) = -(digitsValue ds : Int) := rfl

theorem signedValue_positive (ds : List Nat) : signedValue (false, ds) = digitsValue ds := rfl

theorem signedValue_sign_digits (r : NumReg) : signedValue (r.sign, r.digits) = r.val := by
  rw [signedValue, digitsValue_digits, NumReg.val]

theorem natAbs_signedValue (p : Bool × List Nat) : (signedValue p).natAbs = digitsValue p.2 := by
  unfold signedValue
  split <;> simp

end Sys2Proof.Machine
end

section
/-! SUPPORT. The limb-wise adder and subtractor with their dispatch by zero operands and signs (41_arith.md R151);
Obligation O53. -/

namespace Sys2Proof.Machine

/-! ### The adder -/

theorem addLimbs_value {as bs : List Nat} (hlen : as.length = bs.length) (c : Nat) :
    digitsValue (addLimbs as bs c).1 + 100 ^ as.length * (addLimbs as bs c).2
      = digitsValue as + digitsValue bs + c := by
  induction as generalizing bs c with
  | nil => obtain rfl := List.length_eq_zero_iff.mp hlen.symm; simp [addLimbs]
  | cons a as ih =>
    obtain ⟨b, bs, rfl⟩ := List.exists_cons_of_length_eq_add_one hlen.symm
    have hrest := ih (Nat.succ.inj hlen) ((a + b + c) / 100)
    simp only [addLimbs, digitsValue_cons, List.length_cons, Nat.pow_succ', Nat.mul_assoc]
    omega

theorem addLimbs_length {as bs : List Nat} (hlen : as.length = bs.length) (c : Nat) :
    (addLimbs as bs c).1.length = as.length := by
  induction as generalizing bs c with
  | nil => rfl
  | cons a as ih =>
    obtain ⟨b, bs, rfl⟩ := List.exists_cons_of_length_eq_add_one hlen.symm
    exact congrArg Nat.succ (ih (Nat.succ.inj hlen) _)

theorem addLimbs_inRange (as bs : List Nat) (c : Nat) : DigitsInRange (addLimbs as bs c).1 := by
  induction as generalizing bs c with
  | nil => exact nofun
  | cons a as ih =>
    cases bs with
    | nil => exact nofun
    | cons b bs => exact List.forall_mem_cons.mpr ⟨by omega, ih bs _⟩

/-! ### The subtractor -/

/-- One position of the subtractor: the digit, and what the borrow took, make up the difference. -/
theorem subDigit_spec {a b br : Nat} (ha : a ≤ 99) (hb : b ≤ 99) (hbr : br ≤ 1) :
    subDigit a b br + b + br = a + 100 * subBorrow a b br ∧ subDigit a b br ≤ 99 ∧ subBorrow a b br ≤ 1 := by
  unfold subDigit subBorrow
  split <;> omega

theorem subLimbs_spec {as bs : List Nat} (hlen : as.length = bs.length) (has : DigitsInRange as)
    (hbs : DigitsInRange bs) {br : Nat} (hbr : br ≤ 1) :
    digitsValue (subLimbs as bs br).1 + digitsValue bs + br
        = digitsValue as + 100 ^ as.length * (subLimbs as bs br).2 ∧
      (subLimbs as bs br).2 ≤ 1 ∧ (subLimbs as bs br).1.length = as.length ∧ DigitsInRange (subLimbs as bs br).1 := by
  induction as generalizing bs br with
  | nil => obtain rfl := List.length_eq_zero_iff.mp hlen.symm; simp [subLimbs, hbr, DigitsInRange]
  | cons a as ih =>
    obtain ⟨b, bs, rfl⟩ := List.exists_cons_of_length_eq_add_one hlen.symm
    simp only [DigitsInRange, List.forall_mem_cons] at has hbs
    obtain ⟨hdigit, hdigit_le, hborrow⟩ := subDigit_spec has.1 hbs.1 hbr
    obtain ⟨hvalue, hout, hlength, hrange⟩ := ih (Nat.succ.inj hlen) has.2 hbs.2 hborrow
    refine ⟨?_, hout, congrArg Nat.succ hlength, List.forall_mem_cons.mpr ⟨hdigit_le, hrange⟩⟩
    simp only [subLimbs, digitsValue_cons, List.length_cons, Nat.pow_succ', Nat.mul_assoc]
    omega

/-! ### Results of a register's width -/

/-- A signed digit list stands for `v` with the 309 in-range digits of a register. -/
structure StandsFor (p : Bool × List Nat) (v : Int) : Prop where
  value : signedValue p = v
  length : p.2.length = NLIMBS
  digits : DigitsInRange p.2

/-- A datapath result is exact: digits of `v` where it fits, CapacityOverflow where it does not. -/
def IsExact (e : Except Code (Bool × List Nat)) (v : Int) : Prop :=
  (v.natAbs < CAP → ∃ p, e = .ok p ∧ StandsFor p v) ∧ (CAP ≤ v.natAbs → e = .error .capacityOverflow)

/-- What 309 digits stand for always fits. -/
theorem StandsFor.isExact {p : Bool × List Nat} {v : Int} (h : StandsFor p v) : IsExact (.ok p) v := by
  have hfits : v.natAbs < CAP := by
    rw [← h.value, natAbs_signedValue]
    exact digitsValue_lt_cap h.digits h.length.le
  exact ⟨fun _ => ⟨p, rfl, h⟩, fun hbig => absurd hfits (Nat.not_lt.mpr hbig)⟩

/-! ### Magnitudes -/

section
variable {x y : NumReg}

/-- Magnitude addition under a sign; the carry out of limb 308 is the overflow. -/
theorem addMagnitudes_isExact (neg : Bool) : IsExact (addMagnitudes x y neg)
    (if neg then -((x.mag + y.mag : Nat) : Int) else ((x.mag + y.mag : Nat) : Int)) := by
  have hlen := digits_length_eq x y
  have hvalue := addLimbs_value hlen 0
  have hlength : (addLimbs x.digits y.digits 0).1.length = NLIMBS := by rw [addLimbs_length hlen, digits_length]
  have hrange := addLimbs_inRange x.digits y.digits 0
  rw [digits_length, digitsValue_digits, digitsValue_digits, ← cap_eq] at hvalue
  unfold addMagnitudes
  split
  next hcarry =>
    rw [hcarry] at hvalue
    have hsum : digitsValue (addLimbs x.digits y.digits 0).1 = x.mag + y.mag := by omega
    exact StandsFor.isExact ⟨by rw [signedValue, hsum], hlength, hrange⟩
  next hcarry =>
    have hbig : CAP ≤ CAP * (addLimbs x.digits y.digits 0).2 := Nat.le_mul_of_pos_right _ (Nat.pos_of_ne_zero hcarry)
    exact ⟨fun hfits => by split at hfits <;> omega, fun _ => rfl⟩

/-- The subtractor on two registers: the difference, with a borrow worth CAP out of limb 308. -/
theorem subLimbs_digits_spec (hx : x.LimbsInRange) (hy : y.LimbsInRange) :
    digitsValue (subLimbs x.digits y.digits 0).1 + y.mag = x.mag + CAP * (subLimbs x.digits y.digits 0).2 ∧
      (subLimbs x.digits y.digits 0).2 ≤ 1 ∧ (subLimbs x.digits y.digits 0).1.length = NLIMBS ∧
      DigitsInRange (subLimbs x.digits y.digits 0).1 := by
  have h := subLimbs_spec (digits_length_eq x y) (digits_inRange hx) (digits_inRange hy) zero_le_one
  rwa [digits_length, digitsValue_digits, digitsValue_digits, ← cap_eq] at h

/-- A borrow out of limb 308 says that `|x| < |y|`, so that the swapped subtraction leaves none. -/
theorem subMagnitudes_standsFor (hx : x.LimbsInRange) (hy : y.LimbsInRange) :
    StandsFor (subMagnitudes x y) ((x.mag : Int) - y.mag) := by
  obtain ⟨hvalue, hborrow, hlength, hrange⟩ := subLimbs_digits_spec hx hy
  obtain ⟨hvalue', hborrow', hlength', hrange'⟩ := subLimbs_digits_spec hy hx
  have hlt := digitsValue_lt_cap hrange hlength.le
  have hlt' := digitsValue_lt_cap hrange' hlength'.le
  unfold subMagnitudes
  split
  next hzero =>
    refine ⟨?_, hlength, hrange⟩
    rw [hzero] at hvalue
    rw [signedValue_positive]
    omega
  next hnonzero =>
    refine ⟨?_, hlength', hrange'⟩
    have hout : (subLimbs x.digits y.digits 0).2 = 1 := by omega
    rw [hout] at hvalue
    rw [signedValue_negative]
    rcases Nat.le_one_iff_eq_zero_or_eq_one.mp hborrow' with hout' | hout' <;> rw [hout'] at hvalue' <;> omega

/-! ### The dispatch -/

theorem standsFor_digits {r : NumReg} (h : r.LimbsInRange) : StandsFor (r.sign, r.digits) r.val :=
  ⟨signedValue_sign_digits r, digits_length r, digits_inRange h⟩

/-- The digits of an operand under its sign, a negative zero read as zero (10_state.md R33). -/
theorem standsFor_digits_normalized {r : NumReg} (h : r.LimbsInRange) :
    StandsFor (r.sign && !r.allLimbsZero, r.digits) r.val := by
  refine ⟨?_, digits_length r, digits_inRange h⟩
  cases hzero : r.allLimbsZero with
  | true =>
    have hmag := (allLimbsZero_iff r).mp hzero
    simp [signedValue, NumReg.val, hmag]
  | false => rw [Bool.not_false, Bool.and_true, signedValue_sign_digits]

theorem val_of_allLimbsZero {r : NumReg} (h : r.allLimbsZero = true) : r.val = 0 :=
  of_decide_eq_true (allLimbsZero_eq_decide_val r ▸ h)

theorem addDispatch_isExact (hx : x.LimbsInRange) (hy : y.LimbsInRange) : IsExact (addDispatch x y) (x.val + y.val) := by
  unfold addDispatch
  split
  next hzero =>
    rw [val_of_allLimbsZero hzero, Int.add_zero]
    exact (standsFor_digits_normalized hx).isExact
  next =>
    split
    next hzero =>
      rw [val_of_allLimbsZero hzero, Int.zero_add]
      exact (standsFor_digits hy).isExact
    next =>
      split
      next hxs hys =>
        rw [val_of_sign hxs, val_of_sign hys, ← Int.neg_add, ← Int.natCast_add]
        exact addMagnitudes_isExact true
      next hxs hys =>
        rw [val_of_sign hxs, val_of_not_sign hys, Int.add_comm, ← Int.sub_eq_add_neg]
        exact (subMagnitudes_standsFor hy hx).isExact
      next hxs hys =>
        rw [val_of_not_sign hxs, val_of_sign hys, ← Int.sub_eq_add_neg]
        exact (subMagnitudes_standsFor hx hy).isExact
      next hxs hys =>
        rw [val_of_not_sign hxs, val_of_not_sign hys, ← Int.natCast_add]
        exact addMagnitudes_isExact false

end

/-- Subtract dispatches as Add does with the sign of the second operand turned round. -/
theorem subDispatch_eq_addDispatch (x y : NumReg) : subDispatch x y = addDispatch x (y.setSign (!y.sign)) := by
  unfold subDispatch addDispatch
  cases hx : x.sign <;> cases hy : y.sign <;> rfl

theorem val_setSign_not (r : NumReg) : (r.setSign (!r.sign)).val = -r.val := by
  cases h : r.sign <;> simp [NumReg.val, NumReg.setSign, h, NumReg.mag]

/-- Settles O53: the adder and the subtractor are exact digit by digit, and subtraction is addition of the opposite. -/
theorem adderAndSubtractorDatapathsAreExact : Obligations.AdderAndSubtractorDatapathsAreExact := by
  intro x y hx hy
  have hsub : IsExact (subDispatch x y) (x.val - y.val) := by
    rw [subDispatch_eq_addDispatch, Int.sub_eq_add_neg, ← val_setSign_not]
    exact addDispatch_isExact hx (setSign_inRange hy _)
  obtain ⟨haddFits, haddOverflows⟩ := addDispatch_isExact hx hy
  obtain ⟨hsubFits, hsubOverflows⟩ := hsub
  refine ⟨fun h => ?_, haddOverflows, fun h => ?_, hsubOverflows⟩
  · obtain ⟨p, hp, hv, hlen, hdigits⟩ := haddFits h
    exact ⟨p, hp, hv, hlen, hdigits⟩
  · obtain ⟨p, hp, hv, hlen, hdigits⟩ := hsubFits h
    exact ⟨p, hp, hv, hlen, hdigits⟩

end Sys2Proof.Machine
end

section
/-! SUPPORT. The schoolbook multiplier (41_arith.md R153); Obligation O54. -/

namespace Sys2Proof.Machine

/-! ### The number a row, a carry and a sum stand for -/

theorem mulRow_value (as : List Nat) (b c : Nat) : digitsValue (mulRow as b c) = digitsValue as * b + c := by
  induction as generalizing c with
  | nil => simp [mulRow]
  | cons a as ih =>
    have hsplit := Nat.mod_add_div (a * b + c) 100
    rw [mulRow, digitsValue_cons, digitsValue_cons, ih, Nat.add_mul, Nat.mul_assoc]
    omega

theorem carryInto_value (bs : List Nat) (c : Nat) : digitsValue (carryInto bs c) = digitsValue bs + c := by
  induction bs generalizing c with
  | nil =>
    unfold carryInto
    split
    next hzero => rw [hzero]; rfl
    next => rw [digitsValue_cons, digitsValue_nil]; omega
  | cons b bs ih =>
    rw [carryInto, digitsValue_cons, digitsValue_cons, ih]
    omega

theorem digitsValue_headD_add_tail (ds : List Nat) : ds.headD 0 + 100 * digitsValue ds.tail = digitsValue ds := by
  cases ds <;> rfl

theorem addWide_value (as ys : List Nat) (c : Nat) :
    digitsValue (addWide as ys c) = digitsValue as + digitsValue ys + c := by
  induction as generalizing ys c with
  | nil => rw [addWide, carryInto_value, digitsValue_nil, Nat.zero_add]
  | cons a as ih =>
    have hys := digitsValue_headD_add_tail ys
    rw [addWide, digitsValue_cons, digitsValue_cons, ih]
    omega

theorem schoolbook_value (as bs : List Nat) : digitsValue (schoolbook as bs) = digitsValue as * digitsValue bs := by
  induction bs with
  | nil => rfl
  | cons b bs ih =>
    rw [schoolbook, addWide_value, mulRow_value, digitsValue_cons, digitsValue_cons, ih]
    ring

/-! ### The digits stay in range -/

/-- The carry out of one position of a row is a digit again. -/
theorem mulRow_inRange {as : List Nat} (has : DigitsInRange as) {b c : Nat} (hb : b ≤ 99) (hc : c ≤ 99) :
    DigitsInRange (mulRow as b c) := by
  induction as generalizing c with
  | nil => exact List.forall_mem_singleton.mpr hc
  | cons a as ih =>
    rw [DigitsInRange, List.forall_mem_cons] at has
    have hprod : a * b ≤ 99 * 99 := Nat.mul_le_mul has.1 hb
    exact List.forall_mem_cons.mpr ⟨by omega, ih has.2 (by omega)⟩

theorem carryInto_inRange {bs : List Nat} (hbs : DigitsInRange bs) {c : Nat} (hc : c ≤ 1) :
    DigitsInRange (carryInto bs c) := by
  induction bs generalizing c with
  | nil =>
    unfold carryInto
    split
    · exact nofun
    · exact List.forall_mem_singleton.mpr (by omega)
  | cons b bs ih =>
    rw [DigitsInRange, List.forall_mem_cons] at hbs
    exact List.forall_mem_cons.mpr ⟨by omega, ih hbs.2 (by omega)⟩

theorem addWide_inRange {as ys : List Nat} (has : DigitsInRange as) (hys : DigitsInRange ys) {c : Nat} (hc : c ≤ 1) :
    DigitsInRange (addWide as ys c) := by
  induction as generalizing ys c with
  | nil => exact carryInto_inRange hys hc
  | cons a as ih =>
    rw [DigitsInRange, List.forall_mem_cons] at has
    have hhead : ys.headD 0 ≤ 99 := by
      cases ys with
      | nil => exact Nat.zero_le _
      | cons y ys => exact hys y List.mem_cons_self
    exact List.forall_mem_cons.mpr
      ⟨by omega, ih has.2 (fun d hd => hys d (List.mem_of_mem_tail hd)) (by omega)⟩

theorem schoolbook_inRange {as bs : List Nat} (has : DigitsInRange as) (hbs : DigitsInRange bs) :
    DigitsInRange (schoolbook as bs) := by
  induction bs with
  | nil => exact nofun
  | cons b bs ih =>
    rw [DigitsInRange, List.forall_mem_cons] at hbs
    exact addWide_inRange (mulRow_inRange has hbs.1 (Nat.zero_le _))
      (List.forall_mem_cons.mpr ⟨Nat.zero_le _, ih hbs.2⟩) (Nat.zero_le _)

/-! ### Overflow and sign -/

/-- A digit above limb 308 is nonzero exactly when the digits stand for CAP or more; otherwise the low 309 stand for all. -/
theorem high_digits_cases {ds : List Nat} (h : DigitsInRange ds) :
    ((ds.drop NLIMBS).any (fun d => d != 0) = true ∧ CAP ≤ digitsValue ds) ∨
      ((ds.drop NLIMBS).any (fun d => d != 0) = false ∧ digitsValue ds < CAP ∧
        digitsValue (ds.take NLIMBS) = digitsValue ds) := by
  have hlow := digitsValue_lt_cap (fun d hd => h d (List.mem_of_mem_take hd)) (List.length_take_le NLIMBS ds)
  have hsplit := digitsValue_take_add_drop NLIMBS ds
  rw [← cap_eq] at hsplit
  cases hany : (ds.drop NLIMBS).any (fun d => d != 0) with
  | true =>
    have hpos : digitsValue (ds.drop NLIMBS) ≠ 0 := by
      rw [Ne, digitsValue_eq_zero_iff]
      simpa using hany
    have hbig : CAP ≤ CAP * digitsValue (ds.drop NLIMBS) := Nat.le_mul_of_pos_right _ (Nat.pos_of_ne_zero hpos)
    exact .inl ⟨rfl, by omega⟩
  | false =>
    have hzero : digitsValue (ds.drop NLIMBS) = 0 := by
      rw [digitsValue_eq_zero_iff]
      simpa using hany
    rw [hzero] at hsplit
    exact .inr ⟨rfl, by omega, by omega⟩

theorem signedValue_mul (x y : NumReg) {ds : List Nat} (h : digitsValue ds = x.mag * y.mag) :
    signedValue (x.sign != y.sign, ds) = x.val * y.val := by
  cases hx : x.sign <;> cases hy : y.sign <;> simp [signedValue, NumReg.val, hx, hy, h]

/-- Settles O54: the low 309 digits are the whole product exactly when no digit above is nonzero. -/
theorem schoolbookMultiplierGivesTheProduct : Obligations.SchoolbookMultiplierGivesTheProduct := by
  intro x y hx hy
  unfold mulDispatch
  split
  next hzero =>
    have hprod : x.val * y.val = 0 := by
      rcases (Bool.or_eq_true _ _).mp hzero with h | h
      · rw [val_of_allLimbsZero h, Int.zero_mul]
      · rw [val_of_allLimbsZero h, Int.mul_zero]
    rw [hprod]
    exact ⟨fun _ => ⟨_, rfl, rfl⟩, fun hbig => absurd natAbs_zero_lt_cap (Nat.not_lt.mpr hbig)⟩
  next =>
    have hvalue : digitsValue (schoolbook x.digits y.digits) = x.mag * y.mag := by
      rw [schoolbook_value, digitsValue_digits, digitsValue_digits]
    rw [Int.natAbs_mul, natAbs_val, natAbs_val, ← hvalue]
    rcases high_digits_cases (schoolbook_inRange (digits_inRange hx) (digits_inRange hy)) with
      ⟨hany, hbig⟩ | ⟨hany, hsmall, htake⟩
    · rw [if_pos hany]
      exact ⟨fun hfits => absurd hfits (Nat.not_lt.mpr hbig), fun _ => rfl⟩
    · rw [if_neg (Bool.eq_false_iff.mp hany)]
      exact ⟨fun _ => ⟨_, rfl, signedValue_mul x y (htake.trans hvalue)⟩,
        fun hbig => absurd hsmall (Nat.not_lt.mpr hbig)⟩

end Sys2Proof.Machine
end

section
/-! SUPPORT. The division step and the long-division unit (41_arith.md R156, R158); Obligations O55 and O56. -/

namespace Sys2Proof.Machine

/-! ### The division step -/

/-- Each pass subtracts the divisor once; the pass that goes negative is taken back. -/
theorem divSmallLoop_eq {fuel p b : Nat} (hfuel : p < fuel) (hb : 0 < b) (c : Nat) :
    divSmallLoop fuel p b c = (c + p / b, ((p % b : Nat) : Int)) := by
  induction fuel generalizing p c with
  | zero => exact absurd hfuel (Nat.not_lt_zero p)
  | succ fuel ih =>
    rw [divSmallLoop]
    rcases Nat.lt_or_ge p b with hlt | hge
    · rw [if_neg (by omega), Nat.div_eq_of_lt hlt, Nat.mod_eq_of_lt hlt, Int.sub_add_cancel]
      rfl
    · have hstep : (p : Int) - b = ((p - b : Nat) : Int) := (Int.ofNat_sub hge).symm
      rw [if_pos (by omega), hstep, ih (by omega), Nat.div_eq_sub_div hb hge, ← Nat.mod_eq_sub_mod hge, Nat.add_assoc,
        Nat.add_comm 1]

/-- Settles O56: one pass more than the dividend is enough for the subtractions of the quotient. -/
theorem divSmallStepDivides : Obligations.DivSmallStepDivides := fun p b hb =>
  (divSmallLoop_eq (Nat.lt_succ_self p) hb 0).trans (by rw [Nat.zero_add])

/-! ### The walk over the digits -/

/-- Where nothing leaves the top of the accumulator, a step of the walk divides the extended remainder. -/
theorem longDivLoop_cons {p b d : Nat} (hfits : p * 100 + d < CAP) (hb : 0 < b) (ds : List Nat) :
    longDivLoop (d :: ds) p b =
      ((p * 100 + d) / b :: (longDivLoop ds ((p * 100 + d) % b : Nat) b).1,
        (longDivLoop ds ((p * 100 + d) % b : Nat) b).2) := by
  have hacc : accPrepend p d = ((p * 100 + d : Nat) : Int) :=
    Int.emod_eq_of_lt (by omega) (by omega)
  rw [longDivLoop, hacc, divSmallStepDivides _ _ hb]

theorem longDivLoop_length (ds : List Nat) (p b : Int) : (longDivLoop ds p b).1.length = ds.length := by
  induction ds generalizing p with
  | nil => rfl
  | cons d ds ih => exact congrArg Nat.succ (ih _)

/-- Taking the next digit down to the remainder above it leaves the numeral the same. -/
theorem digitsValue_take_digit_down (ds : List Nat) (d p : Nat) :
    digitsValue ((d :: ds).reverse ++ [p]) = digitsValue (ds.reverse ++ [p * 100 + d]) := by
  rw [List.reverse_cons, digitsValue_append_single, digitsValue_append_single, digitsValue_append_single,
    List.length_append, List.length_singleton, Nat.pow_succ]
  ring

/-- Dividing the part above the digits divides the numeral, up to what the digits and the remainder make. -/
theorem digitsValue_append_div_add_mod (ds : List Nat) (e b : Nat) :
    digitsValue (ds ++ [e]) = digitsValue (ds ++ [e % b]) + b * (100 ^ ds.length * (e / b)) := by
  rw [digitsValue_append_single, digitsValue_append_single]
  nth_rewrite 1 [← Nat.mod_add_div e b]
  ring

/-- The walk from a remainder `p` divides the numeral with `p` above the digits. The accumulator never exceeds that numeral,
so nothing leaves its top while the numeral fits (R156). -/
theorem longDivLoop_spec {ds : List Nat} (hds : DigitsInRange ds) {p b : Nat} (hp : p < b)
    (hfits : digitsValue (ds.reverse ++ [p]) < CAP) :
    digitsValue (longDivLoop ds p b).1.reverse = digitsValue (ds.reverse ++ [p]) / b ∧
      (longDivLoop ds p b).2 = (digitsValue (ds.reverse ++ [p]) % b : Nat) ∧ DigitsInRange (longDivLoop ds p b).1 := by
  have hb : 0 < b := Nat.zero_lt_of_lt hp
  induction ds generalizing p with
  | nil => simp [longDivLoop, Nat.div_eq_of_lt hp, Nat.mod_eq_of_lt hp, DigitsInRange]
  | cons d ds ih =>
    rw [DigitsInRange, List.forall_mem_cons] at hds
    rw [digitsValue_take_digit_down] at hfits ⊢
    have hacc : p * 100 + d < CAP := by
      have hpos : p * 100 + d ≤ 100 ^ ds.reverse.length * (p * 100 + d) :=
        Nat.le_mul_of_pos_left _ (Nat.pow_pos (by decide))
      rw [digitsValue_append_single] at hfits
      omega
    have hdigit : (p * 100 + d) / b < 100 := Nat.div_lt_of_lt_mul (by omega)
    have hsplit := digitsValue_append_div_add_mod ds.reverse (p * 100 + d) b
    obtain ⟨hquotient, hremainder, hrange⟩ := ih hds.2 (Nat.mod_lt (p * 100 + d) hb) (by omega)
    rw [longDivLoop_cons hacc hb, hsplit, Nat.add_mul_div_left _ _ hb, Nat.add_mul_mod_self_left]
    refine ⟨?_, hremainder, List.forall_mem_cons.mpr ⟨Nat.le_of_lt_succ hdigit, hrange⟩⟩
    rw [List.reverse_cons, digitsValue_append_single, hquotient, List.length_reverse, longDivLoop_length,
      List.length_reverse]

/-- Settles O55: the walk starts from remainder 0, where the numeral is the magnitude. -/
theorem longDivisionUnitIsExact : Obligations.LongDivisionUnitIsExact := by
  intro x b hx hb _
  have hnumeral : digitsValue (x.digits.reverse.reverse ++ [0]) = x.mag := by
    rw [List.reverse_reverse, digitsValue_append_single, Nat.mul_zero, Nat.add_zero, digitsValue_digits]
  have hdigits : DigitsInRange x.digits.reverse := fun d hd => digits_inRange hx d (List.mem_reverse.mp hd)
  obtain ⟨hquotient, hremainder, hrange⟩ := longDivLoop_spec hdigits hb (hnumeral.trans_lt (mag_lt_cap hx))
  rw [hnumeral] at hquotient hremainder
  refine ⟨hquotient, hremainder, ?_, fun d hd => hrange d (List.mem_reverse.mp hd)⟩
  rw [longDivide, List.length_reverse, longDivLoop_length, List.length_reverse, digits_length]

end Sys2Proof.Machine
end

section
/-! SUPPORT. The truncated power that MODEXP computes and where its products fit (42_numtheory.md R180, R181); Obligations
O21 and O22. -/

namespace Sys2Proof.Machine

/-! ### Checked values -/

theorem chk_eq_ok_iff {v w : Int} : chk v = .ok w ↔ v.natAbs < CAP ∧ v = w := by
  rcases chk_cases v with ⟨h, e⟩ | ⟨h, e⟩ <;> rw [e]
  · simp [h]
  · simp [Nat.not_lt.mpr h]

/-- Products of residues below `10^309` fit (42_numtheory.md R180). -/
theorem natAbs_mul_lt_cap {a b : Int} (ha : a.natAbs < tenTo309) (hb : b.natAbs < tenTo309) : (a * b).natAbs < CAP := by
  have hsquare : tenTo309 * tenTo309 = CAP := by decide +kernel
  rw [Int.natAbs_mul, ← hsquare]
  exact Nat.mul_lt_mul'' ha hb

theorem natAbs_trem_lt_tenTo309 (a : Int) {m : Int} (hm : m ≠ 0) (hbound : m.natAbs ≤ tenTo309) :
    (trem a m).natAbs < tenTo309 := (natAbs_trem_lt a hm).trans_le hbound

theorem one_lt_tenTo309 : 1 < tenTo309 := by decide +kernel

/-! ### Truncated remainders of products -/

theorem trem_trem (a m : Int) : trem (trem a m) m = trem a m := by
  simp only [trem_eq_tmod, Int.tmod_tmod]

theorem trem_trem_mul (a b m : Int) : trem (trem a m * b) m = trem (a * b) m := by
  simp only [trem_eq_tmod]
  rw [Int.mul_tmod, Int.tmod_tmod, ← Int.mul_tmod]

theorem trem_mul_trem_pow (a b m : Int) (k : Nat) : trem (a * trem b m ^ k) m = trem (a * b ^ k) m := by
  induction k generalizing a with
  | zero => rw [pow_zero, pow_zero]
  | succ k ih =>
    calc trem (a * trem b m ^ (k + 1)) m = trem (a * trem b m * trem b m ^ k) m := by rw [pow_succ', mul_assoc]
      _ = trem (trem b m * (a * b ^ k)) m := by rw [ih, mul_right_comm, mul_comm]
      _ = trem (a * b ^ (k + 1)) m := by rw [trem_trem_mul, mul_left_comm, ← pow_succ']

/-! ### The loop of ModExpPipe (R181) -/

/-- The accumulator after the multiply of one iteration. -/
def stepAcc (base acc e m : Int) : Int := if evenVal e then acc else trem (acc * base) m

theorem modExpAcc_eq_ok_iff {base acc e m a : Int} :
    modExpAcc base acc e m = .ok a ↔
      (evenVal e = false → (acc * base).natAbs < CAP) ∧ stepAcc base acc e m = a := by
  unfold modExpAcc stepAcc
  cases evenVal e with
  | true => simp
  | false =>
    rcases chk_cases (acc * base) with ⟨hfits, hchk⟩ | ⟨hbig, hchk⟩
    · simp [hchk, hfits]
    · simp [hchk, Nat.not_lt.mpr hbig]

/-- One iteration: its two products fit, and the loop goes on with the halved exponent. -/
theorem modExpLoop_succ_eq_ok_iff {fuel : Nat} {base acc e m r : Int} (he : e ≠ 0) :
    modExpLoop (fuel + 1) base acc e m = .ok r ↔
      (evenVal e = false → (acc * base).natAbs < CAP) ∧ (base * base).natAbs < CAP ∧
        modExpLoop fuel (trem (base * base) m) (stepAcc base acc e m) (tquo e 2) m = .ok r := by
  rw [modExpLoop, if_neg he]
  cases h : modExpAcc base acc e m with
  | error c =>
    have hbig : ¬ (evenVal e = false → (acc * base).natAbs < CAP) := fun hfits =>
      nomatch h.symm.trans (modExpAcc_eq_ok_iff.mpr ⟨hfits, rfl⟩)
    simp [hbig]
  | ok a =>
    obtain ⟨hfits, rfl⟩ := modExpAcc_eq_ok_iff.mp h
    rw [iff_true_intro hfits, true_and]
    rcases chk_cases (base * base) with ⟨hsq, hchk⟩ | ⟨hsq, hchk⟩
    · simp [hchk, hsq]
    · simp [hchk, Nat.not_lt.mpr hsq]

theorem natAbs_tquo_two (e : Int) : (tquo e 2).natAbs = e.natAbs / 2 := natAbs_tquo e 2

/-- Folding one factor of an odd exponent into the accumulator and squaring the base leaves the power the same. -/
theorem trem_stepAcc_mul_pow (base acc e m : Int) :
    trem (stepAcc base acc e m * (base * base) ^ (e.natAbs / 2)) m = trem (acc * base ^ e.natAbs) m := by
  have hsplit : base ^ e.natAbs = base ^ (e.natAbs % 2) * (base * base) ^ (e.natAbs / 2) := by
    rw [← pow_two, ← pow_mul, ← pow_add, Nat.mod_add_div]
  rw [hsplit, ← mul_assoc]
  unfold stepAcc
  split
  next heven => rw [(evenVal_iff e).mp heven, pow_zero, mul_one]
  next hodd =>
    have hone : e.natAbs % 2 = 1 := Nat.mod_two_ne_zero.mp fun h => hodd ((evenVal_iff e).mpr h)
    rw [trem_trem_mul, hone, pow_one]

/-- What the loop leaves in the accumulator: nothing is reduced when no iteration runs (R181). -/
theorem modExpLoop_eq_of_ok {fuel : Nat} {base acc e m r : Int} (hfuel : e.natAbs < 2 ^ fuel)
    (h : modExpLoop fuel base acc e m = .ok r) : r = if e = 0 then acc else trem (acc * base ^ e.natAbs) m := by
  induction fuel generalizing base acc e with
  | zero =>
    cases h
    exact (if_pos (Int.natAbs_eq_zero.mp (Nat.lt_one_iff.mp hfuel))).symm
  | succ fuel ih =>
    by_cases he : e = 0
    · rw [modExpLoop, if_pos he] at h
      cases h
      exact (if_pos he).symm
    rw [if_neg he, ← trem_stepAcc_mul_pow]
    obtain ⟨-, -, hrest⟩ := (modExpLoop_succ_eq_ok_iff he).mp h
    have hr := ih (by rw [natAbs_tquo_two]; omega) hrest
    by_cases hlast : tquo e 2 = 0
    · have hone : e.natAbs / 2 = 0 := by rw [← natAbs_tquo_two, hlast]; rfl
      have hodd : ¬ evenVal e = true := fun heven => by have := (evenVal_iff e).mp heven; omega
      rw [hr, if_pos hlast, hone, pow_zero, mul_one, stepAcc, if_neg hodd, trem_trem]
    · rw [hr, if_neg hlast, natAbs_tquo_two, trem_mul_trem_pow]

/-- No product of the loop overflows on residues below `10^309` (R180). -/
theorem modExpLoop_ok_of_residues (fuel : Nat) {base acc m : Int} (e : Int) (hm : m ≠ 0)
    (hbound : m.natAbs ≤ tenTo309) (hbase : base.natAbs < tenTo309) (hacc : acc.natAbs < tenTo309) :
    ∃ r, modExpLoop fuel base acc e m = .ok r := by
  induction fuel generalizing base acc e with
  | zero => exact ⟨acc, rfl⟩
  | succ fuel ih =>
    by_cases he : e = 0
    · exact ⟨acc, by rw [modExpLoop, if_pos he]⟩
    have hacc' : (stepAcc base acc e m).natAbs < tenTo309 := by
      unfold stepAcc
      split
      · exact hacc
      · exact natAbs_trem_lt_tenTo309 _ hm hbound
    obtain ⟨r, hr⟩ := ih (tquo e 2) (natAbs_trem_lt_tenTo309 (base * base) hm hbound) hacc'
    exact ⟨r, (modExpLoop_succ_eq_ok_iff he).mpr
      ⟨fun _ => natAbs_mul_lt_cap hacc hbase, natAbs_mul_lt_cap hbase hbase, hr⟩⟩

/-! ### The pipeline and the command -/

/-- The closed form of ModExpPipe where it does not overflow (R180). -/
theorem modExpPipe_eq_of_ok {b e m r : Int} (he : e ≠ 0) (h : modExpPipe b e m = .ok r) :
    r = trem (b ^ e.natAbs) m := by
  have hr := modExpLoop_eq_of_ok (lt_two_pow_bitLength _) h
  rwa [if_neg he, trem_mul_trem_pow, one_mul] at hr

theorem modExpPipe_ok_of_le (b e : Int) {m : Int} (hm : m ≠ 0) (hbound : m.natAbs ≤ tenTo309) :
    ∃ r, modExpPipe b e m = .ok r :=
  modExpLoop_ok_of_residues _ e hm hbound (natAbs_trem_lt_tenTo309 b hm hbound) one_lt_tenTo309

theorem modExpValue_eq_of_ok {b e m r : Int} (hm : m ≠ 0) (h : modExpValue b e m = .ok r) :
    r = if e = 0 then 1 else (b ^ e.natAbs).tmod m := by
  rw [modExpValue, if_neg hm] at h
  split at h
  next he => cases h; exact (if_pos he).symm
  next he =>
    rw [if_neg he]
    split at h
    next hb =>
      cases h
      rw [hb, zero_pow (Int.natAbs_ne_zero.mpr he), Int.zero_tmod]
    next => rw [modExpPipe_eq_of_ok he h, trem_eq_tmod]

theorem modExpValue_ok_of_le (b e : Int) {m : Int} (hm : m ≠ 0) (hbound : m.natAbs ≤ tenTo309) :
    ∃ r, modExpValue b e m = .ok r := by
  rw [modExpValue, if_neg hm]
  split
  · exact ⟨1, rfl⟩
  split
  · exact ⟨0, rfl⟩
  · exact modExpPipe_ok_of_le b e hm hbound

theorem modExpValue_errors_of_ne (b e : Int) {m : Int} (hm : m ≠ 0) :
    ErrorsIn [.capacityOverflow] (modExpValue b e m) := by
  rw [modExpValue, if_neg hm]
  split
  · trivial
  split
  · trivial
  · exact modExpPipe_errors b e m

/-! ### Commands that compute one checked value -/

section
variable {i : Instr} {s : State} {rd : RegId} {x : Except Code Int}

theorem writesOne_of_resultOf_ofChecked (h : resultOf s.value i = Result.ofChecked rd x) (hfits : ValueFits x) {r : Int}
    (hx : x = .ok r) : WritesOne i s rd r :=
  writesOne_of_resultOf (by rw [h, hx, Result.ofChecked]) (hfits r hx)

/-- A computation whose only error is CapacityOverflow ends the command with code 2 when it fails. -/
theorem endsWith_of_resultOf_ofChecked (h : resultOf s.value i = Result.ofChecked rd x)
    (herr : ErrorsIn [.capacityOverflow] x) {c : Code} (hx : x = .error c) : EndsWith i s 2#8 := by
  subst hx
  obtain rfl : c = .capacityOverflow := List.mem_singleton.mp herr
  exact endsWith_of_resultOf (c := .capacityOverflow) h rfl

end

section
variable {s : State} {rd rs1 rs2 rs3 : RegId}

theorem modexp_writesOne {r : Int} (h : modExpValue (s.value rs1) (s.value rs2) (s.value rs3) = .ok r) :
    WritesOne (.modexp rd rs1 rs2 rs3) s rd r :=
  writesOne_of_resultOf_ofChecked rfl (modExpValue_fits _ _ _) h

theorem modexp_overflows (hm : s.value rs3 ≠ 0) {c : Code}
    (h : modExpValue (s.value rs1) (s.value rs2) (s.value rs3) = .error c) :
    EndsWith (.modexp rd rs1 rs2 rs3) s 2#8 :=
  endsWith_of_resultOf_ofChecked rfl (modExpValue_errors_of_ne _ _ hm) h

theorem modexp_divisionByZero (hm : s.value rs3 = 0) : EndsWith (.modexp rd rs1 rs2 rs3) s 3#8 :=
  endsWith_of_resultOf (c := .divisionByZero) (by rw [resultOf, modExpValue, if_pos hm, Result.ofChecked]) rfl

end

/-- Settles O21: each check of MODEXP decides the value it gives. -/
theorem modexpFollowsItsChecksInOrder : Obligations.ModexpFollowsItsChecksInOrder := by
  refine ⟨by decide +kernel, fun s rd rs1 rs2 rs3 _ => ⟨modexp_divisionByZero, fun hm he => ?exponent,
    fun hm he hb => ?base, fun hm he hb => ?pipeline⟩⟩
  case exponent => exact modexp_writesOne (by rw [modExpValue, if_neg hm, if_pos he])
  case base => exact modexp_writesOne (by rw [modExpValue, if_neg hm, if_neg he, if_pos hb])
  case pipeline =>
    have hpipe : modExpValue (s.value rs1) (s.value rs2) (s.value rs3) =
        modExpPipe (s.value rs1) (s.value rs2) (s.value rs3) := by
      rw [modExpValue, if_neg hm, if_neg he, if_neg hb]
    exact ⟨fun r hr => modexp_writesOne (hpipe.trans hr), fun c hc => modexp_overflows hm (hpipe.trans hc)⟩

/-- Settles O22: a value that MODEXP computes is the truncated power, and up to `10^309` it computes one. -/
theorem modexpIsTheTruncatedModularPower : Obligations.ModexpIsTheTruncatedModularPower := by
  intro s rd rs1 rs2 rs3 _ hm
  have hwrites : ∀ r, modExpValue (s.value rs1) (s.value rs2) (s.value rs3) = .ok r →
      WritesOne (.modexp rd rs1 rs2 rs3) s rd
        (if s.value rs2 = 0 then 1 else (s.value rs1 ^ (s.value rs2).natAbs).tmod (s.value rs3)) := fun r hr =>
    modExpValue_eq_of_ok hm hr ▸ modexp_writesOne hr
  refine ⟨?_, fun hbound => ?_⟩
  · cases h : modExpValue (s.value rs1) (s.value rs2) (s.value rs3) with
    | ok r => exact .inl (hwrites r h)
    | error c => exact .inr (modexp_overflows hm h)
  · obtain ⟨r, hr⟩ := modExpValue_ok_of_le (s.value rs1) (s.value rs2) hm hbound
    exact hwrites r hr

end Sys2Proof.Machine
end

section
/-! SUPPORT. The normalization of MODINV (42_numtheory.md R182); Obligation O57. -/

namespace Sys2Proof.Machine

/-- A residue stays as it is. -/
theorem normalizeLoop_of_residue (fuel : Nat) {r m : Int} (h0 : 0 ≤ r) (hm : r < m) : normalizeLoop fuel r m = r := by
  cases fuel with
  | zero => rfl
  | succ fuel => rw [normalizeLoop, if_neg (by omega), if_neg (by omega)]

/-- Settles O57: until `r` is a residue, each pass brings it nearer to zero and keeps it modulo `m`. -/
theorem normalizationEndsAtTheResidue : Obligations.NormalizationEndsAtTheResidue := by
  intro r m fuel hm hfuel
  induction fuel generalizing r with
  | zero => omega
  | succ fuel ih =>
    rw [normalizeLoop]
    split
    next hneg =>
      rw [← Int.add_emod_right r m]
      rcases lt_or_ge (r + m) 0 with h | h
      · exact ih _ (by omega)
      · rw [normalizeLoop_of_residue fuel h (by omega), Int.emod_eq_of_lt h (by omega)]
    next hnonneg =>
      split
      next hge =>
        rw [← Int.sub_emod_right r m]
        exact ih _ (by omega)
      next hlt => exact (Int.emod_eq_of_lt (by omega) (by omega)).symm

end Sys2Proof.Machine
end

section
/-! SUPPORT. The IsPrime state machine (42_numtheory.md R185): how many transitions each state is from its outcome;
Obligation O58. -/

namespace Sys2Proof.Machine

/-- From `p`, any number of transitions from `k` on has the outcome `x`. -/
def AnswersWithin (n : Int) (k : Nat) (p : PrimeState) (x : Except Code Int) : Prop :=
  ∀ j, k ≤ j → (primeRun n j p).outcome = some x

section
variable {n : Int} {k : Nat} {p : PrimeState} {x : Except Code Int}

/-- Terminal states stay (R185). -/
theorem primeTransition_of_outcome (h : p.outcome = some x) : primeTransition n p = p := by
  cases p with
  | prime => rfl
  | composite => rfl
  | overflowed c => rfl
  | _ => cases h

theorem answersWithin_of_outcome (h : p.outcome = some x) : AnswersWithin n k p x := by
  have hstay : ∀ j, primeRun n j p = p := fun j => by
    induction j with
    | zero => rfl
    | succ j ih => rw [primeRun, primeTransition_of_outcome h, ih]
  exact fun j _ => (congrArg PrimeState.outcome (hstay j)).trans h

theorem AnswersWithin.mono {l : Nat} (h : AnswersWithin n k p x) (hkl : k ≤ l) : AnswersWithin n l p x :=
  fun j hj => h j (hkl.trans hj)

theorem answersWithin_succ (h : AnswersWithin n k (primeTransition n p) x) : AnswersWithin n (k + 1) p x := by
  intro j hj
  obtain ⟨i, rfl⟩ := Nat.exists_eq_add_of_le' (Nat.one_le_of_lt hj)
  exact h i (Nat.le_of_succ_le_succ hj)

end

theorem squareLoop_answersWithin (n y : Int) (left : Nat) :
    AnswersWithin n (left + 1) (.squareLoop y left) (squareLoop left y n) := by
  induction left generalizing y with
  | zero => exact answersWithin_succ (answersWithin_of_outcome rfl)
  | succ left ih =>
    refine answersWithin_succ ?_
    rw [primeTransition, squareLoop]
    rcases chk_cases (y * y) with ⟨-, h⟩ | ⟨-, h⟩ <;> simp only [h]
    · split
      · exact answersWithin_of_outcome rfl
      split
      · exact answersWithin_of_outcome rfl
      · exact ih _
    · exact answersWithin_of_outcome rfl

theorem witnessTest_answersWithin (n d : Int) (k : Nat) :
    AnswersWithin n (k + 2) (.witnessTest d k) (witnessTest d k n) := by
  refine answersWithin_succ ?_
  rw [primeTransition, witnessTest]
  cases modExpPipe WITNESS d n with
  | error c => exact answersWithin_of_outcome rfl
  | ok y =>
    simp only
    split
    · exact answersWithin_of_outcome rfl
    · exact (squareLoop_answersWithin n y (k - 1)).mono (by omega)

/-- A halving takes one transition and adds one squaring to come, so two transitions per bit of `d` are enough. -/
theorem decompose_answersWithin (n : Int) {fuel : Nat} {d : Int} (hd : d ≠ 0) (hfuel : d.natAbs < 2 ^ fuel)
    (k : Nat) :
    AnswersWithin n (2 * fuel + k + 1) (.decomposeExponent d k)
      (witnessTest (decompose fuel d k).1 (decompose fuel d k).2 n) := by
  induction fuel generalizing d k with
  | zero => omega
  | succ fuel ih =>
    refine answersWithin_succ (k := 2 * (fuel + 1) + k) ?_
    rw [primeTransition, decompose]
    split
    next heven =>
      have hhalf := natAbs_tquo_two d
      have := (evenVal_iff d).mp heven
      exact (ih (by omega) (by omega) (k + 1)).mono (by omega)
    next => exact (witnessTest_answersWithin n d k).mono (by omega)

theorem isPrimeValue_answersWithin (n : Int) :
    AnswersWithin n (2 * bitLength n.natAbs + 4) .init (isPrimeValue n) := by
  refine answersWithin_succ ?_
  rw [primeTransition, isPrimeValue]
  split
  · exact answersWithin_of_outcome rfl
  split
  · exact answersWithin_of_outcome rfl
  next hlow htwo =>
    refine answersWithin_succ ?_
    rw [primeTransition]
    split
    · exact answersWithin_of_outcome rfl
    next =>
      have hbits := lt_two_pow_bitLength n.natAbs
      exact (decompose_answersWithin n (by omega) (by omega) 0).mono (by omega)

/-- Settles O58: the transitions of the longest path, from Init through both loops, are within the bound. -/
theorem isPrimeStateMachineAgrees : Obligations.IsPrimeStateMachineAgrees := fun n =>
  isPrimeValue_answersWithin n _ le_rfl

end Sys2Proof.Machine
end

section
/-! SUPPORT. EuclidPipe on values that registers hold (42_numtheory.md R182, R183): no checked step overflows, and for a
value `>= 0` it finds the inverse exactly when there is one; Obligations O24 and O25. -/

namespace Sys2Proof.Machine

/-! ### The checked steps -/

theorem checkedMulSub_of_lt {a q b : Int} (hprod : (q * b).natAbs < CAP) (hdiff : (a - q * b).natAbs < CAP) :
    checkedMulSub a q b = .ok (a - q * b) := by
  rw [checkedMulSub, chk_of_lt hprod]
  exact chk_of_lt hdiff

theorem sub_tquo_mul_eq_trem (a b : Int) : a - tquo a b * b = trem a b := by rw [trem, mul_comm]

/-- Magnitudes of the Euclidean pairs: each remainder fits, and so does the sum of the cross products. -/
structure EuclidBounded (a2 a3 b2 b3 : Int) : Prop where
  dividend : a3.natAbs < CAP
  divisor : b3.natAbs < CAP
  cross : a2.natAbs * b3.natAbs + b2.natAbs * a3.natAbs < CAP

theorem euclidBounded_start {v m : Int} (hv : v.natAbs < CAP) (hm : m.natAbs < CAP) : EuclidBounded 0 m 1 v :=
  ⟨hm, hv, by simpa using hm⟩

section
variable {a2 a3 b2 b3 : Int}

/-- The next pair is bounded by the same sum: `|A3| = |Q| * |B3| + |T3|` and `|T2| <= |A2| + |Q| * |B2|`. -/
theorem euclid_next_cross_le (a2 a3 b2 b3 : Int) :
    b2.natAbs * (trem a3 b3).natAbs + (a2 - tquo a3 b3 * b2).natAbs * b3.natAbs ≤
      a2.natAbs * b3.natAbs + b2.natAbs * a3.natAbs := by
  have hdiv : a3.natAbs = (tquo a3 b3).natAbs * b3.natAbs + (trem a3 b3).natAbs := by
    rw [natAbs_tquo, natAbs_trem, Nat.div_add_mod']
  have htri : (a2 - tquo a3 b3 * b2).natAbs ≤ a2.natAbs + (tquo a3 b3).natAbs * b2.natAbs :=
    Int.natAbs_mul (tquo a3 b3) b2 ▸ Int.natAbs_sub_le a2 (tquo a3 b3 * b2)
  have hscaled := Nat.mul_le_mul_right b3.natAbs htri
  rw [hdiv]
  linarith

theorem EuclidBounded.next (h : EuclidBounded a2 a3 b2 b3) :
    EuclidBounded b2 b3 (a2 - tquo a3 b3 * b2) (trem a3 b3) :=
  ⟨h.divisor, natAbs_trem_lt_cap h.dividend b3, (euclid_next_cross_le a2 a3 b2 b3).trans_lt h.cross⟩

theorem EuclidBounded.coefficient_step (h : EuclidBounded a2 a3 b2 b3) (hb : b3 ≠ 0) :
    checkedMulSub a2 (tquo a3 b3) b2 = .ok (a2 - tquo a3 b3 * b2) := by
  have hpos : 0 < b3.natAbs := Int.natAbs_pos.mpr hb
  refine checkedMulSub_of_lt ?_ ?_
  · have hquot : (tquo a3 b3).natAbs ≤ a3.natAbs := natAbs_tquo a3 b3 ▸ Nat.div_le_self _ _
    rw [Int.natAbs_mul, mul_comm]
    exact ((Nat.mul_le_mul_left _ hquot).trans (Nat.le_add_left _ _)).trans_lt h.cross
  · have hnext := euclid_next_cross_le a2 a3 b2 b3
    have hcross := h.cross
    have hself := Nat.le_mul_of_pos_right (a2 - tquo a3 b3 * b2).natAbs hpos
    omega

theorem EuclidBounded.remainder_step (h : EuclidBounded a2 a3 b2 b3) :
    checkedMulSub a3 (tquo a3 b3) b3 = .ok (trem a3 b3) := by
  rw [checkedMulSub_of_lt, sub_tquo_mul_eq_trem]
  · rw [Int.natAbs_mul, natAbs_tquo]
    exact (Nat.div_mul_le_self _ _).trans_lt h.dividend
  · rw [sub_tquo_mul_eq_trem]
    exact natAbs_trem_lt_cap h.dividend b3

/-- One iteration on bounded values: no check fails. -/
theorem euclidLoop_succ (h : EuclidBounded a2 a3 b2 b3) (h0 : b3 ≠ 0) (h1 : b3 ≠ 1) (fuel : Nat) :
    euclidLoop (fuel + 1) a2 a3 b2 b3 = euclidLoop fuel b2 b3 (a2 - tquo a3 b3 * b2) (trem a3 b3) := by
  rw [euclidLoop, if_neg h0, if_neg h1, h.coefficient_step h0, h.remainder_step]

theorem euclidLoop_zero_divisor (fuel : Nat) (a2 a3 b2 : Int) : euclidLoop (fuel + 1) a2 a3 b2 0 = .ok none :=
  if_pos rfl

theorem euclidLoop_one_divisor (fuel : Nat) (a2 a3 b2 : Int) : euclidLoop (fuel + 1) a2 a3 b2 1 = .ok (some b2) := by
  rw [euclidLoop, if_neg one_ne_zero, if_pos rfl]

theorem euclidLoop_ok (fuel : Nat) (h : EuclidBounded a2 a3 b2 b3) : ∃ o, euclidLoop fuel a2 a3 b2 b3 = .ok o := by
  induction fuel generalizing a2 a3 b2 b3 with
  | zero => exact ⟨_, rfl⟩
  | succ fuel ih =>
    by_cases h0 : b3 = 0
    · exact ⟨none, h0 ▸ euclidLoop_zero_divisor fuel a2 a3 b2⟩
    by_cases h1 : b3 = 1
    · exact ⟨some b2, h1 ▸ euclidLoop_one_divisor fuel a2 a3 b2⟩
    rw [euclidLoop_succ h h0 h1]
    exact ih h.next

/-! ### What the loop finds -/

theorem gcd_trem (a b : Int) : Int.gcd b (trem a b) = Int.gcd a b := by
  rw [Int.gcd_comm a b, Int.gcd, Int.gcd, natAbs_trem, Nat.gcd_comm, ← Nat.gcd_rec]

/-- Each coefficient times `v` is its remainder modulo `m`, and this passes to the next pair. -/
theorem dvd_next_pair {v m : Int} (ha : m ∣ a2 * v - a3) (hb : m ∣ b2 * v - b3) :
    m ∣ (a2 - tquo a3 b3 * b2) * v - trem a3 b3 := by
  have hcomb : (a2 - tquo a3 b3 * b2) * v - trem a3 b3 = a2 * v - a3 - tquo a3 b3 * (b2 * v - b3) := by
    rw [trem]; ring
  rw [hcomb]
  exact dvd_sub ha (hb.mul_left _)

/-- On remainders `>= 0` the loop ends with a coefficient that inverts `v` exactly when they are coprime. -/
theorem euclidLoop_finds_inverse {fuel : Nat} {v m : Int} (h : EuclidBounded a2 a3 b2 b3) (hfuel : b3.natAbs < fuel)
    (ha3 : 0 ≤ a3) (hb3 : 0 ≤ b3) (hend : b3 = 0 → a3 ≠ 1) (ha : m ∣ a2 * v - a3) (hb : m ∣ b2 * v - b3) :
    (Int.gcd a3 b3 = 1 ∧ ∃ b, euclidLoop fuel a2 a3 b2 b3 = .ok (some b) ∧ m ∣ b * v - 1) ∨
      (Int.gcd a3 b3 ≠ 1 ∧ euclidLoop fuel a2 a3 b2 b3 = .ok none) := by
  induction fuel generalizing a2 a3 b2 b3 with
  | zero => exact absurd hfuel (Nat.not_lt_zero _)
  | succ fuel ih =>
    by_cases h0 : b3 = 0
    · subst h0
      refine .inr ⟨?_, euclidLoop_zero_divisor fuel a2 a3 b2⟩
      rw [Int.gcd_zero_right]
      have := hend rfl
      omega
    by_cases h1 : b3 = 1
    · subst h1
      exact .inl ⟨Int.gcd_one_right a3, b2, euclidLoop_one_divisor fuel a2 a3 b2, hb⟩
    have hshrink := natAbs_trem_lt a3 h0
    have hnonneg : 0 ≤ trem a3 b3 := trem_eq_tmod a3 b3 ▸ Int.tmod_nonneg b3 ha3
    rw [euclidLoop_succ h h0 h1, ← gcd_trem]
    exact ih h.next (by omega) hb3 hnonneg (fun _ => h1) hb (dvd_next_pair ha hb)

end

theorem euclidPipe_ok {v m : Int} (hv : v.natAbs < CAP) (hm : m.natAbs < CAP) : ∃ o, euclidPipe v m = .ok o :=
  euclidLoop_ok _ (euclidBounded_start hv hm)

theorem euclidPipe_finds_inverse {v m : Int} (hv : v.natAbs < CAP) (hm : m.natAbs < CAP) (hvpos : 0 < v)
    (hmpos : 0 < m) :
    (Int.gcd v m = 1 ∧ ∃ b, euclidPipe v m = .ok (some b) ∧ m ∣ b * v - 1) ∨
      (Int.gcd v m ≠ 1 ∧ euclidPipe v m = .ok none) := by
  rw [Int.gcd_comm]
  exact euclidLoop_finds_inverse (euclidBounded_start hv hm) (Nat.lt_succ_self _) hmpos.le hvpos.le (by omega)
    (by simp) (by simp)

theorem euclidPipe_zero (m : Int) : euclidPipe 0 m = .ok none := euclidLoop_zero_divisor 0 0 m 1

/-! ### The command -/

/-- A command whose result is MODINV's sentinel reports NoModularInverse (R182). -/
theorem reportsNoInverse_of_resultOf {i : Instr} {s : State} {rd : RegId}
    (h : resultOf s.value i = Result.noInverse rd) : ReportsNoInverse i s rd := by
  have hreg : (s.complete (Result.noInverse rd)).reg rd = pack (-1) := State.reg_writeValue_same s rd (-1)
  exact ⟨s.complete (Result.noInverse rd), h ▸ exec_eq_complete_resultOf i s,
    (congrArg NumReg.val hreg).trans (val_pack natAbs_one_lt_cap), hreg, ⟨rfl, rfl⟩,
    State.complete_completedAs s (Result.noInverse rd), State.complete_same s (Result.noInverse rd)⟩

section
variable {s : State} {rd rs1 rs2 : RegId}

theorem modinv_divisionByZero (hm : s.value rs2 = 0) : EndsWith (.modinv rd rs1 rs2) s 3#8 :=
  endsWith_of_resultOf (c := .divisionByZero) (if_pos hm) rfl

theorem modinv_operandDomain (hm : s.value rs2 < 0) : EndsWith (.modinv rd rs1 rs2) s 8#8 :=
  endsWith_of_resultOf (c := .operandDomain) (by rw [resultOf, modInvResult, if_neg hm.ne, if_pos hm]) rfl

theorem modinv_reportsNoInverse (hm : 0 < s.value rs2) (h : euclidPipe (s.value rs1) (s.value rs2) = .ok none) :
    ReportsNoInverse (.modinv rd rs1 rs2) s rd :=
  reportsNoInverse_of_resultOf (by rw [resultOf, modInvResult, if_neg hm.ne', if_neg hm.le.not_gt, h])

theorem modinv_writesOne (hs : s.LimbsInRange) (hm : 0 < s.value rs2) {b2 : Int}
    (h : euclidPipe (s.value rs1) (s.value rs2) = .ok (some b2)) :
    WritesOne (.modinv rd rs1 rs2) s rd (b2 % s.value rs2) := by
  have hlo := Int.emod_nonneg b2 hm.ne'
  have hhi := Int.emod_lt_of_pos b2 hm
  have hfits : (s.value rs2).natAbs < CAP := natAbs_val_lt_cap (hs rs2)
  exact writesOne_of_resultOf (by rw [resultOf, modInvResult, if_neg hm.ne', if_neg hm.le.not_gt, h]) (by omega)

end

/-- Settles O24: the checks of MODINV in order, and EuclidPipe, none of whose steps overflows on stored values. -/
theorem modinvFollowsEuclidPipe : Obligations.ModinvFollowsEuclidPipe :=
  ⟨by decide +kernel, fun _ _ rs1 rs2 hs => ⟨modinv_divisionByZero, modinv_operandDomain, fun hm =>
    ⟨euclidPipe_ok (natAbs_val_lt_cap (hs rs1)) (natAbs_val_lt_cap (hs rs2)), modinv_reportsNoInverse hm, fun b2 h =>
      ⟨Int.emod_nonneg b2 hm.ne', Int.emod_lt_of_pos b2 hm, modinv_writesOne hs hm h⟩⟩⟩⟩

/-- Settles O25: EuclidPipe finds an inverse exactly of a positive value coprime to the modulus, and its residue is one
too. -/
theorem modinvFindsTheInverse : Obligations.ModinvFindsTheInverse := by
  intro s rd rs1 rs2 hs hv hone
  have hm : 0 < s.value rs2 := hone
  have hfinds := euclidPipe_finds_inverse (natAbs_val_lt_cap (hs rs1)) (natAbs_val_lt_cap (hs rs2))
  refine ⟨fun hvpos hgcd => ?found, fun hnone => modinv_reportsNoInverse hm ?notFound⟩
  case found =>
    rcases hfinds hvpos hm with ⟨-, b, hpipe, hdvd⟩ | ⟨hne, -⟩
    · refine ⟨b % s.value rs2, Int.emod_nonneg b hm.ne', Int.emod_lt_of_pos b hm, ?_, modinv_writesOne hs hm hpipe⟩
      rw [Int.mul_emod, Int.emod_emod, ← Int.mul_emod, mul_comm]
      exact Int.emod_eq_emod_iff_emod_sub_eq_zero.mpr (Int.emod_eq_zero_of_dvd hdvd)
    · exact absurd hgcd hne
  case notFound =>
    rcases hv.eq_or_lt with hzero | hvpos
    · rw [← hzero, euclidPipe_zero]
    · rcases hfinds hvpos hm with ⟨hgcd, -⟩ | ⟨-, hpipe⟩
      · exact absurd hgcd (hnone.resolve_left hvpos.ne')
      · exact hpipe

end Sys2Proof.Machine
end

section
/-! SUPPORT. The base-2 strong test: its form on a given decomposition of `n - 1`, and why a prime passes it
(42_numtheory.md R184, R186). -/

namespace Sys2Proof.Machine

/-- The Miller-Rabin test on `x = 2^d`: it is 1, or one of its first `k` successive squares is -1. -/
def PassesStrongTest {R : Type*} [Ring R] (x : R) (k : Nat) : Prop := x = 1 ∨ ∃ j < k, x ^ 2 ^ j = -1

/-- Where the only square roots of 1 are 1 and -1, an element whose `2^k`-th power is 1 passes. -/
theorem passesStrongTest_of_pow_eq_one {R : Type*} [Ring R] [NoZeroDivisors R] {x : R} {k : Nat} (h : x ^ 2 ^ k = 1) :
    PassesStrongTest x k := by
  induction k with
  | zero => exact .inl (by rwa [pow_zero, pow_one] at h)
  | succ k ih =>
    rw [pow_succ, pow_mul, pow_two, mul_self_eq_one_iff] at h
    rcases h with hone | hneg
    · exact (ih hone).imp_right fun ⟨j, hj, hpow⟩ => ⟨j, hj.trans (Nat.lt_succ_self k), hpow⟩
    · exact .inr ⟨k, Nat.lt_succ_self k, hneg⟩

/-- One squaring: a first square -1 passes, a first square 1 does not, and otherwise the square is tested. -/
theorem exists_lt_succ_sq_pow {R : Type*} [Ring R] (y : R) (k : Nat) :
    (∃ j < k + 1, y ^ 2 ^ (j + 1) = -1) ↔ y ^ 2 = -1 ∨ ∃ j < k, (y ^ 2) ^ 2 ^ (j + 1) = -1 := by
  rw [Nat.exists_lt_succ_left]
  simp only [Nat.zero_add, pow_one, ← pow_mul, ← pow_succ']

/-- An odd factor takes up no power of two. -/
theorem le_of_two_pow_mul_eq {k l d e : Nat} (he : e % 2 = 1) (h : 2 ^ k * d = 2 ^ l * e) : k ≤ l := by
  have hcop : Nat.Coprime (2 ^ k) e := (Nat.coprime_two_left.mpr (Nat.odd_iff.mpr he)).pow_left k
  exact (Nat.pow_dvd_pow_iff_le_right (by decide)).mp (hcop.dvd_of_dvd_mul_right ⟨d, h.symm⟩)

theorem two_pow_mul_odd_inj {k l d e : Nat} (hd : d % 2 = 1) (he : e % 2 = 1) (h : 2 ^ k * d = 2 ^ l * e) :
    k = l ∧ d = e := by
  obtain rfl : k = l := le_antisymm (le_of_two_pow_mul_eq he h) (le_of_two_pow_mul_eq hd h.symm)
  exact ⟨rfl, Nat.eq_of_mul_eq_mul_left (Nat.pow_pos (by decide)) h⟩

theorem natCast_eq_one_iff {n a : Nat} (hn : 1 < n) : (a : ZMod n) = 1 ↔ a % n = 1 := by
  rw [← Nat.cast_one, ZMod.natCast_eq_natCast_iff', Nat.mod_eq_of_lt hn]

theorem natCast_eq_neg_one_iff {n a : Nat} (hn : 0 < n) : (a : ZMod n) = -1 ↔ a % n = n - 1 := by
  have hneg : (-1 : ZMod n) = ((n - 1 : Nat) : ZMod n) := by simp [Nat.cast_sub hn]
  rw [hneg, ZMod.natCast_eq_natCast_iff', Nat.mod_eq_of_lt (show n - 1 < n by omega)]

/-- The strong test may be run on any decomposition, since there is only one. -/
theorem strongProbablePrimeBase2_iff {n d k : Nat} (hn : 2 < n) (hodd : n % 2 = 1) (hd : d % 2 = 1)
    (hsplit : n - 1 = 2 ^ k * d) : StrongProbablePrimeBase2 n ↔ PassesStrongTest ((2 : ZMod n) ^ d) k := by
  have htest : PassesStrongTest ((2 : ZMod n) ^ d) k ↔
      (2 ^ d % n = 1 ∨ ∃ j, j < k ∧ 2 ^ (2 ^ j * d) % n = n - 1) := by
    simp only [PassesStrongTest, ← natCast_eq_one_iff (show 1 < n by omega),
      ← natCast_eq_neg_one_iff (show 0 < n by omega), Nat.cast_pow, Nat.cast_ofNat, ← pow_mul, mul_comm d]
  rw [htest]
  constructor
  · rintro ⟨-, -, e, l, he, hsplit', h⟩
    obtain ⟨rfl, rfl⟩ := two_pow_mul_odd_inj hd he (hsplit.symm.trans hsplit')
    exact h
  · exact fun h => ⟨hn, hodd, d, k, hd, hsplit, h⟩

/-- Fermat: an odd prime passes the base-2 strong test (R186 (a)). -/
theorem strongProbablePrimeBase2_of_prime {n : Nat} (hp : Nat.Prime n) (hn : 2 < n) : StrongProbablePrimeBase2 n := by
  have hfact : Fact (Nat.Prime n) := ⟨hp⟩
  obtain ⟨k, d, hd, hsplit⟩ := Nat.exists_eq_two_pow_mul_odd (show n - 1 ≠ 0 by omega)
  have htwo : (2 : ZMod n) ≠ 0 := fun h => by
    rw [← Nat.cast_ofNat, ZMod.natCast_eq_zero_iff] at h
    exact absurd (Nat.le_of_dvd (by decide) h) (by omega)
  rw [strongProbablePrimeBase2_iff hn (hp.eq_two_or_odd.resolve_left hn.ne') (Nat.odd_iff.mp hd) hsplit]
  refine passesStrongTest_of_pow_eq_one ?_
  rw [← pow_mul, mul_comm, ← hsplit, ZMod.pow_card_sub_one_eq_one htwo]

end Sys2Proof.Machine
end

section
/-! SUPPORT. ISPRIME runs the base-2 strong test (42_numtheory.md R184, R186); Obligations O26 and O27. -/

namespace Sys2Proof.Machine

/-! ### Checked answers to a question -/

/-- A computation that answers whether `p` holds by 1 or 0, unless it overflows. -/
def Answers (p : Prop) : Except Code Int → Prop
  | .ok r => (p → r = 1) ∧ (¬ p → r = 0)
  | .error c => c = .capacityOverflow

theorem answers_one {p : Prop} (h : p) : Answers p (.ok 1) := ⟨fun _ => rfl, absurd h⟩

theorem answers_zero {p : Prop} (h : ¬ p) : Answers p (.ok 0) := ⟨fun hp => absurd hp h, fun _ => rfl⟩

/-! ### DecomposeExponent -/

theorem tquo_natCast_two (d : Nat) : tquo (d : Int) 2 = ((d / 2 : Nat) : Int) := tquo_eq_tdiv d 2

/-- Halving splits off the power of two and leaves an odd number. -/
theorem decompose_natCast {fuel d : Nat} (hd : d ≠ 0) (hfuel : d < 2 ^ fuel) (k : Nat) :
    ∃ e l : Nat, decompose fuel d k = ((e : Int), k + l) ∧ e % 2 = 1 ∧ d = 2 ^ l * e := by
  induction fuel generalizing d k with
  | zero => exact absurd (Nat.lt_one_iff.mp hfuel) hd
  | succ fuel ih =>
    have heven := evenVal_iff d
    rw [Int.natAbs_natCast] at heven
    rw [decompose]
    split
    next h =>
      have hmod := heven.mp h
      obtain ⟨e, l, hrun, hodd, hsplit⟩ := ih (d := d / 2) (by omega) (by omega) (k + 1)
      refine ⟨e, l + 1, ?_, hodd, ?_⟩
      · rw [tquo_natCast_two, hrun, Nat.add_assoc, Nat.add_comm 1]
      · rw [pow_succ', mul_assoc, ← hsplit]
        omega
    next h => exact ⟨d, 0, rfl, Nat.mod_two_ne_zero.mp fun hmod => h (heven.mpr hmod), by simp⟩

/-- On an odd number above 2, ISPRIME is the witness test on the decomposition of `n - 1`. -/
theorem isPrimeValue_of_odd {n : Nat} (hn : 2 < n) (hodd : n % 2 = 1) :
    ∃ d k : Nat, d % 2 = 1 ∧ n - 1 = 2 ^ (k + 1) * d ∧ isPrimeValue n = witnessTest d (k + 1) n := by
  have hpred : (n : Int) - 1 = ((n - 1 : Nat) : Int) := by omega
  have hnotEven : ¬ evenVal n = true := fun h => by
    have := (evenVal_iff n).mp h
    omega
  have hbits := lt_two_pow_bitLength (n : Int).natAbs
  obtain ⟨d, k, hrun, hd, hsplit⟩ :=
    decompose_natCast (fuel := bitLength (n : Int).natAbs) (d := n - 1) (by omega) (by omega) 0
  rw [Nat.zero_add] at hrun
  cases k with
  | zero => omega
  | succ k =>
    refine ⟨d, k, hd, hsplit, ?_⟩
    rw [isPrimeValue, if_neg (by omega), if_neg (by omega), if_neg hnotEven, hpred, hrun]

/-! ### WitnessTest and SquareLoop -/

/-- A truncated remainder of a number `>= 0` is the residue of its class. -/
theorem trem_eq_iff_cast_eq {n : Nat} {a c : Int} (ha : 0 ≤ a) (hc : 0 ≤ c) (hcn : c < n) :
    trem a n = c ↔ (a : ZMod n) = (c : ZMod n) := by
  rw [trem_eq_tmod, Int.tmod_eq_emod_of_nonneg ha, ZMod.intCast_eq_intCast_iff', Int.emod_eq_of_lt hc hcn]

theorem cast_trem {n : Nat} {a : Int} (ha : 0 ≤ a) : ((trem a n : Int) : ZMod n) = (a : ZMod n) := by
  rw [trem_eq_tmod, Int.tmod_eq_emod_of_nonneg ha, ZMod.intCast_mod]

theorem trem_eq_one_iff {n : Nat} (hn : 2 < n) {a : Int} (ha : 0 ≤ a) : trem a n = 1 ↔ (a : ZMod n) = 1 := by
  rw [trem_eq_iff_cast_eq ha (by omega) (by omega), Int.cast_one]

theorem trem_eq_pred_iff {n : Nat} (hn : 2 < n) {a : Int} (ha : 0 ≤ a) : trem a n = n - 1 ↔ (a : ZMod n) = -1 := by
  rw [trem_eq_iff_cast_eq ha (by omega) (by omega)]
  simp

/-- SquareLoop answers whether one of the squares it may still take is -1; a square 1 rules that out for the rest. -/
theorem squareLoop_answers {n : Nat} (hn : 2 < n) (left : Nat) (y : Int) :
    Answers (∃ j < left, (y : ZMod n) ^ 2 ^ (j + 1) = -1) (squareLoop left y n) := by
  induction left generalizing y with
  | zero => exact answers_zero (by simp)
  | succ left ih =>
    have hnonneg := mul_self_nonneg y
    have hsq : ((y * y : Int) : ZMod n) = (y : ZMod n) ^ 2 := by rw [Int.cast_mul, pow_two]
    rw [squareLoop, exists_lt_succ_sq_pow, ← hsq]
    rcases chk_cases (y * y) with ⟨-, hchk⟩ | ⟨-, hchk⟩ <;> simp only [hchk]
    · split
      next hneg => exact answers_one (.inl ((trem_eq_pred_iff hn hnonneg).mp hneg))
      next hneg =>
        rw [or_iff_right (fun h => hneg ((trem_eq_pred_iff hn hnonneg).mpr h)), ← cast_trem hnonneg]
        split
        next hone =>
          have hfact : Fact (2 < n) := ⟨hn⟩
          refine answers_zero ?_
          simp [hone, ZMod.neg_one_ne_one.symm]
        next => exact ih _
    · rfl

theorem witnessTest_answers {n d : Nat} (hn : 2 < n) (hd : d % 2 = 1) (k : Nat) :
    Answers (PassesStrongTest ((2 : ZMod n) ^ d) (k + 1)) (witnessTest d (k + 1) n) := by
  have herr := modExpPipe_errors WITNESS d n
  rw [witnessTest]
  cases hpipe : modExpPipe WITNESS d n with
  | error c =>
    rw [hpipe] at herr
    exact List.mem_singleton.mp herr
  | ok y =>
    have hpow : (0 : Int) ≤ 2 ^ d := by positivity
    have hy : y = trem (2 ^ d) n := modExpPipe_eq_of_ok (by omega) hpipe
    have hcast : (y : ZMod n) = 2 ^ d := by rw [hy, cast_trem hpow]; simp
    have hone : y = 1 ↔ (y : ZMod n) = 1 := by rw [hy, trem_eq_one_iff hn hpow, cast_trem hpow]
    have hneg : y = n - 1 ↔ (y : ZMod n) = -1 := by rw [hy, trem_eq_pred_iff hn hpow, cast_trem hpow]
    rw [← hcast, PassesStrongTest, Nat.exists_lt_succ_left, pow_zero, pow_one, ← or_assoc, ← hone, ← hneg]
    simp only [Nat.add_sub_cancel]
    split
    next hpass => exact answers_one (.inl hpass)
    next hfail =>
      rw [or_iff_right hfail]
      exact squareLoop_answers hn k y

/-! ### The value of ISPRIME -/

theorem isPrimeValue_answers_of_odd {n : Int} (hn : 2 < n) (hodd : n % 2 = 1) :
    Answers (StrongProbablePrimeBase2 n.toNat) (isPrimeValue n) := by
  lift n to Nat using by omega
  have hn : 2 < n := by omega
  have hodd : n % 2 = 1 := by omega
  obtain ⟨d, k, hd, hsplit, hvalue⟩ := isPrimeValue_of_odd hn hodd
  rw [hvalue, Int.toNat_natCast, strongProbablePrimeBase2_iff hn hodd hd hsplit]
  exact witnessTest_answers hn hd k

theorem isPrimeValue_of_lt_two {n : Int} (h : n < 2) : isPrimeValue n = .ok 0 := if_pos h

theorem isPrimeValue_two : isPrimeValue 2 = .ok 1 := rfl

theorem isPrimeValue_of_even {n : Int} (h : 2 < n) (heven : n % 2 = 0) : isPrimeValue n = .ok 0 := by
  rw [isPrimeValue, if_neg (by omega), if_neg (by omega), if_pos ((evenVal_iff n).mpr (by omega))]

/-- ISPRIME answers 1 exactly for the primes and the base-2 strong pseudoprimes (R186). -/
theorem isPrimeValue_answers {n : Int} (hn : 2 ≤ n) :
    Answers (Nat.Prime n.toNat ∨ StrongProbablePrimeBase2 n.toNat) (isPrimeValue n) := by
  rcases hn.eq_or_lt with rfl | hn
  · exact answers_one (.inl Nat.prime_two)
  rcases Int.emod_two_eq_zero_or_one n with heven | hodd
  · rw [isPrimeValue_of_even hn heven]
    refine answers_zero ?_
    rintro (hprime | ⟨-, hodd, -⟩)
    · have := hprime.eq_two_or_odd
      omega
    · omega
  · rw [or_iff_right_of_imp (fun hprime => strongProbablePrimeBase2_of_prime hprime (by omega))]
    exact isPrimeValue_answers_of_odd hn hodd

/-! ### Up to `10^309` nothing overflows (R184) -/

theorem squareLoop_ok_of_residue (left : Nat) {y n : Int} (hn : n ≠ 0) (hbound : n.natAbs ≤ tenTo309)
    (hy : y.natAbs < tenTo309) : ∃ r, squareLoop left y n = .ok r := by
  induction left generalizing y with
  | zero => exact ⟨0, rfl⟩
  | succ left ih =>
    rw [squareLoop, chk_of_lt (natAbs_mul_lt_cap hy hy)]
    simp only
    split
    · exact ⟨1, rfl⟩
    split
    · exact ⟨0, rfl⟩
    · exact ih (natAbs_trem_lt_tenTo309 _ hn hbound)

theorem witnessTest_ok_of_le {d n : Int} (hd : d ≠ 0) (k : Nat) (hn : n ≠ 0) (hbound : n.natAbs ≤ tenTo309) :
    ∃ r, witnessTest d k n = .ok r := by
  obtain ⟨y, hpipe⟩ := modExpPipe_ok_of_le WITNESS d hn hbound
  rw [witnessTest, hpipe]
  simp only
  split
  · exact ⟨1, rfl⟩
  · exact squareLoop_ok_of_residue _ hn hbound (modExpPipe_eq_of_ok hd hpipe ▸ natAbs_trem_lt_tenTo309 _ hn hbound)

theorem isPrimeValue_ok_of_le {n : Int} (hbound : n ≤ tenTo309) : ∃ r, isPrimeValue n = .ok r := by
  rcases lt_trichotomy n 2 with hlow | rfl | hn
  · exact ⟨0, isPrimeValue_of_lt_two hlow⟩
  · exact ⟨1, isPrimeValue_two⟩
  rcases Int.emod_two_eq_zero_or_one n with heven | hodd
  · exact ⟨0, isPrimeValue_of_even hn heven⟩
  · lift n to Nat using by omega
    obtain ⟨d, k, hd, -, hvalue⟩ := isPrimeValue_of_odd (n := n) (by omega) (by omega)
    rw [hvalue]
    exact witnessTest_ok_of_le (by omega) (k + 1) (by omega) (by omega)

/-! ### The command -/

section
variable {s : State} {rs1 : RegId} {p : Prop} (rd : RegId)

theorem isprime_writesOne {r : Int} (h : isPrimeValue (s.value rs1) = .ok r) : WritesOne (.isprime rd rs1) s rd r :=
  writesOne_of_resultOf_ofChecked rfl (isPrimeValue_fits _) h

theorem isprime_writes_answer_of_ok {r : Int} (h : isPrimeValue (s.value rs1) = .ok r)
    (hp : Answers p (isPrimeValue (s.value rs1))) :
    (p → WritesOne (.isprime rd rs1) s rd 1) ∧ (¬ p → WritesOne (.isprime rd rs1) s rd 0) := by
  have hwrites := isprime_writesOne rd h
  rw [h] at hp
  obtain ⟨hone, hzero⟩ := hp
  exact ⟨fun hyes => hone hyes ▸ hwrites, fun hno => hzero hno ▸ hwrites⟩

theorem isprime_writes_answer (hbound : s.value rs1 ≤ tenTo309) (hp : Answers p (isPrimeValue (s.value rs1))) :
    (p → WritesOne (.isprime rd rs1) s rd 1) ∧ (¬ p → WritesOne (.isprime rd rs1) s rd 0) := by
  obtain ⟨r, h⟩ := isPrimeValue_ok_of_le hbound
  exact isprime_writes_answer_of_ok rd h hp

theorem isprime_overflows_or_writes_answer (hp : Answers p (isPrimeValue (s.value rs1))) :
    EndsWith (.isprime rd rs1) s 2#8 ∨
      (p → WritesOne (.isprime rd rs1) s rd 1) ∧ (¬ p → WritesOne (.isprime rd rs1) s rd 0) := by
  cases h : isPrimeValue (s.value rs1) with
  | error c => exact .inl (endsWith_of_resultOf_ofChecked rfl (isPrimeValue_errors _) h)
  | ok r => exact .inr (isprime_writes_answer_of_ok rd h hp)

end

/-- Settles O26: the small and even cases are decided at once, and the others by the base-2 strong test. -/
theorem isprimeRunsTheBase2Test : Obligations.IsprimeRunsTheBase2Test := by
  refine ⟨by decide +kernel, fun s rd rs1 => ⟨fun h => isprime_writesOne rd (isPrimeValue_of_lt_two h),
    fun h => isprime_writesOne rd (h ▸ isPrimeValue_two),
    fun h heven => isprime_writesOne rd (isPrimeValue_of_even h heven),
    fun h hodd hbound => isprime_writes_answer rd hbound (isPrimeValue_answers_of_odd h hodd), fun h hodd => ?_⟩⟩
  rcases isprime_overflows_or_writes_answer rd (isPrimeValue_answers_of_odd h hodd) with hover | ⟨hone, hzero⟩
  · exact .inr (.inr hover)
  by_cases hp : StrongProbablePrimeBase2 (s.value rs1).toNat
  · exact .inr (.inl (hone hp))
  · exact .inl (hzero hp)

/-- Settles O27: ISPRIME answers "prime or base-2 strong pseudoprime", and up to `10^309` it always answers. -/
theorem isprimeNeverRejectsAPrime : Obligations.IsprimeNeverRejectsAPrime := by
  intro s rd rs1 hn
  have hanswers := isPrimeValue_answers hn
  refine ⟨fun hbound => ?_, fun _ => ?_⟩
  · obtain ⟨hone, hzero⟩ := isprime_writes_answer rd hbound hanswers
    exact ⟨fun hp => hone (.inl hp), fun hp hs => hzero (not_or.mpr ⟨hp, hs⟩), fun _ hs => hone (.inr hs)⟩
  · exact (isprime_overflows_or_writes_answer rd hanswers).imp_right fun ⟨hone, hzero⟩ =>
      ⟨hone, fun hp hs => hzero (not_or.mpr ⟨hp, hs⟩)⟩

end Sys2Proof.Machine
end

section
/-! SUPPORT. The codes a command can end with (60_exceptions.md R211, R212): an ill-formed command is an illegal command, a
well-formed one ends with a code of its own row, and only MODINV reports NoModularInverse; Obligations O29 and O30. -/

namespace Sys2Proof.Machine

/-! ### The table of R212 -/

/-- The row of R212's table without IllegalCommand, which is left to the commands that no legal word encodes
(30_encoding.md R105). -/
def wellFormedCodes : Op → List Code
  | .clr => [.ok]
  | .copy => [.ok]
  | .prepend => [.ok, .capacityOverflow]
  | .iszero => [.ok]
  | .add => [.ok, .capacityOverflow]
  | .sub => [.ok, .capacityOverflow]
  | .mul => [.ok, .capacityOverflow]
  | .divs => [.ok, .capacityOverflow, .divisionByZero]
  | .divl => [.ok, .divisionByZero]
  | .modexp => [.ok, .capacityOverflow, .divisionByZero]
  | .modinv => [.ok, .capacityOverflow, .divisionByZero, .noModularInverse, .operandDomain]
  | .isprime => [.ok, .capacityOverflow]

theorem possibleCodes_perm (o : Op) :
    (possibleCodes o).Perm (Code.illegalCommand.byte :: (wellFormedCodes o).map Code.byte) := by
  cases o <;> decide

theorem illegalCommand_mem_possibleCodes (o : Op) : Code.illegalCommand.byte ∈ possibleCodes o :=
  (possibleCodes_perm o).mem_iff.mpr (List.mem_cons_self ..)

theorem byte_mem_possibleCodes {o : Op} {c : Code} (h : c ∈ wellFormedCodes o) : c.byte ∈ possibleCodes o :=
  (possibleCodes_perm o).mem_iff.mpr (List.mem_cons_of_mem _ (List.mem_map_of_mem h))

theorem illegalCommand_notMem_wellFormedCodes (o : Op) : Code.illegalCommand ∉ wellFormedCodes o := by
  cases o <;> decide

theorem noModularInverse_mem_wellFormedCodes {o : Op} : Code.noModularInverse ∈ wellFormedCodes o → o = .modinv := by
  cases o <;> decide

theorem Code.byte_eq_four_iff (c : Code) : c.byte = 4#8 ↔ c = .noModularInverse := by cases c <;> decide

theorem Code.byte_eq_six_iff (c : Code) : c.byte = 6#8 ↔ c = .illegalCommand := by cases c <;> decide

/-! ### The code of a result -/

theorem Result.ofChecked_code_mem (rd : RegId) {cs : List Code} {e : Except Code Int} (h : ErrorsIn cs e) :
    (Result.ofChecked rd e).code ∈ .ok :: cs := by
  cases e with
  | ok v => exact List.mem_cons_self ..
  | error c => exact List.mem_cons_of_mem _ h

/-- A check that chooses between two results keeps the codes both may have. -/
theorem Result.ite_code_mem {cs : List Code} {p : Prop} [Decidable p] {r q : Result} (hr : r.code ∈ cs)
    (hq : q.code ∈ cs) : (if p then r else q).code ∈ cs := by
  split
  · exact hr
  · exact hq

theorem divsResult_code_mem (rd re : RegId) (a b : Int) :
    (divsResult rd re a b).code ∈ [Code.ok, .capacityOverflow, .divisionByZero] :=
  Result.ite_code_mem (by simp [Result.raised])
    (Result.ite_code_mem (by simp [Result.raised]) (by simp [Result.quotRem]))

theorem divlResult_code_mem (rd re : RegId) (a b : Int) :
    (divlResult rd re a b).code ∈ [Code.ok, .divisionByZero] :=
  Result.ite_code_mem (by simp [Result.raised]) (by simp [Result.quotRem])

/-- What MODINV can end with: an error that writes nothing, its sentinel, or the residue it found (42_numtheory.md
R182). -/
theorem modInvResult_cases (rd : RegId) (v m : Int) :
    (∃ c ∈ [Code.capacityOverflow, .divisionByZero, .operandDomain], modInvResult rd v m = Result.raised c) ∨
      modInvResult rd v m = Result.noInverse rd ∨ ∃ r, modInvResult rd v m = Result.single rd r := by
  unfold modInvResult
  split
  · exact .inl ⟨.divisionByZero, by simp, rfl⟩
  split
  · exact .inl ⟨.operandDomain, by simp, rfl⟩
  split
  next c hc => exact .inl ⟨.capacityOverflow, by simp, by rw [euclidLoop_errors _ _ _ _ _ c hc]⟩
  next => exact .inr (.inl rfl)
  next b2 _ => exact .inr (.inr ⟨_, rfl⟩)

theorem modInvResult_code_mem (rd : RegId) (v m : Int) : (modInvResult rd v m).code ∈ wellFormedCodes .modinv := by
  rcases modInvResult_cases rd v m with ⟨c, hc, e⟩ | e | ⟨r, e⟩ <;> rw [e]
  · revert hc; cases c <;> decide
  · simp [Result.noInverse, wellFormedCodes]
  · simp [Result.single, wellFormedCodes]

theorem modInvResult_eq_noInverse {rd : RegId} {v m : Int} (h : (modInvResult rd v m).code = .noModularInverse) :
    modInvResult rd v m = Result.noInverse rd := by
  rcases modInvResult_cases rd v m with ⟨c, hc, e⟩ | e | ⟨r, e⟩ <;> rw [e] at h
  · obtain rfl : c = .noModularInverse := h
    exact absurd hc (by decide)
  · exact e
  · cases h

/-! ### The code of a command -/

/-- R105's two conditions are decided before any operand is read (60_exceptions.md R213). -/
theorem resultOf_of_not_wellFormed {i : Instr} (h : i.wellFormed = false) (x : RegId → Int) :
    resultOf x i = Result.raised .illegalCommand := by
  cases i with
  | prepend rd rs1 imm => exact if_neg (of_decide_eq_false h)
  | divs rd re rs1 rs2 => exact if_pos (not_not.mp (of_decide_eq_false h))
  | divl rd re rs1 rs2 => exact if_pos (not_not.mp (of_decide_eq_false h))
  | _ => cases h

/-- A well-formed command ends with a code of its row (60_exceptions.md R212). -/
theorem resultOf_code_mem {i : Instr} (h : i.wellFormed = true) (x : RegId → Int) :
    (resultOf x i).code ∈ wellFormedCodes i.op := by
  cases i with
  | clr rd => exact List.mem_cons_self ..
  | copy rd rs1 => exact List.mem_cons_self ..
  | prepend rd rs1 imm =>
    rw [resultOf, if_pos (of_decide_eq_true h)]
    exact Result.ofChecked_code_mem rd (prependValue_errors _ _)
  | iszero rs1 => exact List.mem_cons_self ..
  | add rd rs1 rs2 => exact Result.ofChecked_code_mem rd (chk_errors _)
  | sub rd rs1 rs2 => exact Result.ofChecked_code_mem rd (chk_errors _)
  | mul rd rs1 rs2 => exact Result.ofChecked_code_mem rd (mulValue_errors _ _)
  | divs rd re rs1 rs2 =>
    rw [resultOf, if_neg (of_decide_eq_true h)]
    exact divsResult_code_mem rd re _ _
  | divl rd re rs1 rs2 =>
    rw [resultOf, if_neg (of_decide_eq_true h)]
    exact divlResult_code_mem rd re _ _
  | modexp rd rs1 rs2 rs3 => exact Result.ofChecked_code_mem rd (modExpValue_errors _ _ _)
  | modinv rd rs1 rs2 => exact modInvResult_code_mem rd _ _
  | isprime rd rs1 => exact Result.ofChecked_code_mem rd (isPrimeValue_errors _)

theorem resultOf_byte_mem_possibleCodes (i : Instr) (x : RegId → Int) :
    (resultOf x i).code.byte ∈ possibleCodes i.op := by
  cases h : i.wellFormed with
  | false =>
    rw [resultOf_of_not_wellFormed h]
    exact illegalCommand_mem_possibleCodes i.op
  | true => exact byte_mem_possibleCodes (resultOf_code_mem h x)

/-- NoModularInverse is reported by MODINV only, and always with its sentinel (60_exceptions.md R211). -/
theorem exists_modinv_of_noModularInverse {i : Instr} {x : RegId → Int}
    (h : (resultOf x i).code = .noModularInverse) :
    ∃ rd rs1 rs2, i = .modinv rd rs1 rs2 ∧ resultOf x i = Result.noInverse rd := by
  cases hwf : i.wellFormed with
  | false =>
    rw [resultOf_of_not_wellFormed hwf] at h
    cases h
  | true =>
    have hop : i.op = .modinv := noModularInverse_mem_wellFormedCodes (h ▸ resultOf_code_mem hwf x)
    cases i with
    | modinv rd rs1 rs2 => exact ⟨rd, rs1, rs2, rfl, modInvResult_eq_noInverse h⟩
    | _ => cases hop

/-! ### The obligations -/

/-- A completion with a code that writes no result leaves exactly `erred` (60_exceptions.md R211). -/
theorem State.complete_eq_erred (s : State) {r : Result} (h : r.code.writesResults = false) :
    s.complete r = erred r.code.byte s := by
  rw [State.complete_of_not_writes s r h, ← State.complete_raised s r.code h]
  exact (State.complete_of_not_writes s (Result.raised r.code) h).symm

/-- Settles O29: the codes other than 0 and 4 write no result, and code 4 is MODINV's sentinel. -/
theorem errorsWriteNoRegisterAndNoFlag : Obligations.ErrorsWriteNoRegisterAndNoFlag := by
  intro i s t hexec
  obtain rfl : s.complete (resultOf s.value i) = t :=
    Host.Outcome.next.inj ((exec_eq_complete_resultOf i s).symm.trans hexec)
  refine ⟨fun hne0 hne4 => State.complete_eq_erred s ?noResult, fun h4 => ?sentinel⟩
  case noResult =>
    rw [← Bool.not_eq_true, Code.writesResults_iff]
    exact not_or.mpr ⟨hne0, hne4⟩
  case sentinel =>
    obtain ⟨rd, rs1, rs2, rfl, hresult⟩ := exists_modinv_of_noModularInverse ((Code.byte_eq_four_iff _).mp h4)
    obtain ⟨u, hu, hvalue, -, hflags, hdone, -⟩ := reportsNoInverse_of_resultOf hresult
    obtain rfl := Host.Outcome.next.inj (hexec.symm.trans hu)
    exact ⟨rd, rs1, rs2, rfl, hvalue, hflags.z, hflags.n, by rw [hdone.serr]; simp⟩

/-- Settles O30: the code is one of the command's row, a well-formed command's is not 6, and the frame of the completion
holds ACCADDR and the CMD readback. -/
theorem commandsEndOnlyWithTheirCodes : Obligations.CommandsEndOnlyWithTheirCodes := by
  intro i s t hexec
  obtain rfl : s.complete (resultOf s.value i) = t :=
    Host.Outcome.next.inj ((exec_eq_complete_resultOf i s).symm.trans hexec)
  have frame := State.complete_same s (resultOf s.value i)
  refine ⟨resultOf_byte_mem_possibleCodes i s.value, fun hwf h6 => ?_, frame.accoff, frame.cmdw⟩
  have hill : (resultOf s.value i).code = .illegalCommand := (Code.byte_eq_six_iff _).mp h6
  exact illegalCommand_notMem_wellFormedCodes i.op (hill ▸ resultOf_code_mem hwf s.value)

end Sys2Proof.Machine
end

section
/-! SUPPORT. The fuel of the loops of ModExpPipe and EuclidPipe (42_numtheory.md R181, R183) against the iteration bounds
of 70_reset_and_hazards.md R258; Obligation O23. -/

namespace Sys2Proof.Machine

/-! ### ModExpPipe (R181): the exponent is halved -/

/-- Two runs of the loop agree when they agree after the first iteration. -/
theorem modExpLoop_succ_congr {j k : Nat} {e m : Int}
    (h : ∀ base acc, modExpLoop j base acc (tquo e 2) m = modExpLoop k base acc (tquo e 2) m) (base acc : Int) :
    modExpLoop (j + 1) base acc e m = modExpLoop (k + 1) base acc e m := by
  simp only [modExpLoop, h]

theorem modExpLoop_succ_fuel {fuel : Nat} {e : Int} (he : e.natAbs < 2 ^ fuel) (base acc m : Int) :
    modExpLoop (fuel + 1) base acc e m = modExpLoop fuel base acc e m := by
  induction fuel generalizing base acc e with
  | zero => exact if_pos (Int.natAbs_eq_zero.mp (Nat.lt_one_iff.mp he))
  | succ fuel ih =>
    have hhalf : (tquo e 2).natAbs < 2 ^ fuel := by rw [natAbs_tquo_two]; omega
    exact modExpLoop_succ_congr (fun base acc => ih hhalf base acc) base acc

theorem modExpLoop_of_bitLength_le {k : Nat} {e : Int} (hk : bitLength e.natAbs ≤ k) (base acc m : Int) :
    modExpLoop k base acc e m = modExpLoop (bitLength e.natAbs) base acc e m := by
  induction k, hk using Nat.le_induction with
  | base => rfl
  | succ k hk ih =>
    have hbits : e.natAbs < 2 ^ k := (lt_two_pow_bitLength _).trans_le (Nat.pow_le_pow_right two_pos hk)
    rw [modExpLoop_succ_fuel hbits, ih]

/-! ### EuclidPipe (R183): the divisor shrinks -/

/-- Two runs of the loop agree when they agree after the first iteration, whose remainder is the truncated one. -/
theorem euclidLoop_succ_congr {j k : Nat} {a3 b2 b3 : Int}
    (h : b3 ≠ 0 → ∀ t2, euclidLoop j b2 b3 t2 (trem a3 b3) = euclidLoop k b2 b3 t2 (trem a3 b3)) (a2 : Int) :
    euclidLoop (j + 1) a2 a3 b2 b3 = euclidLoop (k + 1) a2 a3 b2 b3 := by
  simp only [euclidLoop]
  by_cases h0 : b3 = 0
  · rw [if_pos h0, if_pos h0]
  rcases checkedMulSub_cases a3 (tquo a3 b3) b3 with hrem | hrem
  · simp only [hrem, sub_tquo_mul_eq_trem, h h0]
  · simp only [hrem]

theorem euclidLoop_succ_fuel {fuel : Nat} {b3 : Int} (hb : b3.natAbs < fuel) (a2 a3 b2 : Int) :
    euclidLoop (fuel + 1) a2 a3 b2 b3 = euclidLoop fuel a2 a3 b2 b3 := by
  induction fuel generalizing a2 a3 b2 b3 with
  | zero => exact absurd hb (Nat.not_lt_zero _)
  | succ fuel ih =>
    refine euclidLoop_succ_congr (fun h0 t2 => ih ?_ b2 b3 t2) a2
    have hshrink := natAbs_trem_lt a3 h0
    omega

theorem euclidLoop_of_natAbs_lt {k : Nat} {b3 : Int} (hk : b3.natAbs + 1 ≤ k) (a2 a3 b2 : Int) :
    euclidLoop k a2 a3 b2 b3 = euclidLoop (b3.natAbs + 1) a2 a3 b2 b3 := by
  induction k, hk using Nat.le_induction with
  | base => rfl
  | succ k hk ih => rw [euclidLoop_succ_fuel hk, ih]

/-- Settles O23: halving the exponent, and the shrinking divisor, end each loop within its bound, so one iteration more
never matters. -/
theorem loopsEndWithinTheirBounds : Obligations.LoopsEndWithinTheirBounds :=
  ⟨fun b _ m _ hk => modExpLoop_of_bitLength_le hk (trem b m) 1 m, fun _ m _ hk => euclidLoop_of_natAbs_lt hk 0 m 1⟩

end Sys2Proof.Machine
end

section
/-! SUPPORT. Reset, and the interleavings of an issued command with the host's accesses (70_reset_and_hazards.md R250,
R251, R258); Obligations O37, O50, O36 and O39. -/

namespace Sys2Proof.Machine

/-! ### From the issue to the completion (R258) -/

/-- Nothing is to come before the in-flight command completes. -/
def State.CompletionDue (s : State) : Prop := s.agenda = [] ∨ s.agenda.head? = some .completion

/-- The same command is in flight on the same registers. -/
structure SameInFlight (s u : State) : Prop where
  busy : u.busy = true
  cmdw : u.cmdw = s.cmdw
  x : u.x = s.x

theorem SameInFlight.trans {s u v : State} (h : SameInFlight s u) (h' : SameInFlight u v) : SameInFlight s v :=
  ⟨h'.busy, h'.cmdw.trans h.cmdw, h'.x.trans h.x⟩

/-- A transaction within the block is one step that takes it off the agenda of a busy block and leaves the command. -/
theorem step_transaction_of_busy {s : State} {x : Txn} {rest : List Event} (hb : s.busy = true)
    (ha : s.agenda = .host x :: rest) (hx : x.off < blockSize) :
    ∃ u, step s = .next u ∧ SameInFlight s u ∧ u.agenda = rest := by
  obtain ⟨hbusy, hcmdw, hregs, hagenda⟩ := perform_busy x (s := { s with agenda := rest }) hb
  exact ⟨_, (step_of_agenda_cons ha).trans (hostTransaction_of_lt hx _), ⟨hbusy, hcmdw, hregs⟩, hagenda⟩

/-- The transactions before the next completion or reset pass with the command still in flight. -/
theorem reaches_completion_or_reset {s : State} (hb : s.busy = true) (hin : s.InBlock) :
    ∃ k u, k ≤ s.agenda.length ∧ core.run k s = .next u ∧ SameInFlight s u ∧
      (u.CompletionDue ∨ Event.reset ∈ s.agenda ∧ ∃ rest, u.agenda = .reset :: rest) := by
  induction hes : s.agenda generalizing s with
  | nil => exact ⟨0, s, Nat.zero_le _, rfl, ⟨hb, rfl, rfl⟩, .inl (.inl hes)⟩
  | cons e rest ih =>
    cases e with
    | completion =>
      exact ⟨0, s, Nat.zero_le _, rfl, ⟨hb, rfl, rfl⟩, .inl (.inr (congrArg List.head? hes))⟩
    | reset => exact ⟨0, s, Nat.zero_le _, rfl, ⟨hb, rfl, rfl⟩, .inr ⟨List.mem_cons_self, rest, hes⟩⟩
    | host x =>
      have hall : ∀ y, Event.host y ∈ Event.host x :: rest → y.off < blockSize := hes ▸ hin
      obtain ⟨v, hstep, hsame, hv⟩ := step_transaction_of_busy hb hes (hall x List.mem_cons_self)
      have hinv : v.InBlock := fun y hy => hall y (List.mem_cons_of_mem _ (hv ▸ hy))
      obtain ⟨k, u, hk, hrun, hsame', hnext⟩ := ih hsame.busy hinv hv
      refine ⟨k + 1, u, Nat.succ_le_succ hk, (core_run_next k hstep).trans hrun, hsame.trans hsame', ?_⟩
      exact hnext.imp_right fun ⟨hmem, hreset⟩ => ⟨List.mem_cons_of_mem _ hmem, hreset⟩

/-- The step of a busy block whose completion is due is that completion: DONE, and idle again (10_state.md R52). -/
theorem step_of_completionDue {s : State} (hb : s.busy = true) (hdue : s.CompletionDue) :
    ∃ t, step s = completion { s with agenda := s.agenda.tail } ∧ step s = .next t ∧ t.done = true ∧
      t.busy = false := by
  have hstep : step s = completion { s with agenda := s.agenda.tail } :=
    (step_of_due hdue).trans (completionTurn_of_busy hb)
  obtain ⟨r, -, hr⟩ := completion_eq_complete { s with agenda := s.agenda.tail }
  exact ⟨_, hstep, hstep.trans hr, State.complete_done _ r, State.complete_busy _ r⟩

theorem step_of_reset {s : State} {rest : List Event} (ha : s.agenda = .reset :: rest) :
    step s = .next { State.reset with agenda := rest } := step_of_agenda_cons ha

/-- Settles O37: the transactions pass, then the completion or the reset leaves the block idle. -/
theorem everyIssuedCommandCompletes : Obligations.EveryIssuedCommandCompletes := by
  refine ⟨fun s hb hin hnoreset => ?completes, fun s hb hin => ?becomesIdle⟩
  case completes =>
    obtain ⟨k, u, hk, hrun, hsame, hnext⟩ := reaches_completion_or_reset hb hin
    have hdue : u.CompletionDue := hnext.resolve_right fun h => hnoreset h.1
    obtain ⟨t, hcompletion, hstep, hdone, hidle⟩ := step_of_completionDue hsame.busy hdue
    exact ⟨k, u, t, hk, hrun, hsame.busy, hsame.cmdw, hsame.x, hdue, hcompletion, hstep, core_run_step hrun hstep,
      hdone, hidle⟩
  case becomesIdle =>
    obtain ⟨k, u, hk, hrun, hsame, hdue | ⟨-, rest, hreset⟩⟩ := reaches_completion_or_reset hb hin
    · obtain ⟨t, -, hstep, -, hidle⟩ := step_of_completionDue hsame.busy hdue
      exact ⟨k + 1, t, Nat.succ_le_succ hk, core_run_step hrun hstep, hidle⟩
    · exact ⟨k + 1, _, Nat.succ_le_succ hk, core_run_step hrun (step_of_reset hreset), rfl⟩

/-! ### A window read after an issue (R258, 95_test_vectors.md P6) -/

theorem takeEvent_issue {s : State} (hb : s.busy = false) (w : Word) :
    takeEvent (.host (.write offCMD 4 w)) s = .next ((s.issue w).respond (.write .ok)) :=
  (hostTransaction_write_cmd w s).trans (by rw [writeCmd_of_idle hb])

theorem runEvents_singleton (e : Event) (s : State) : runEvents [e] s = takeEvent e s := by
  rw [runEvents]
  cases takeEvent e s <;> rfl

/-- The completion of a busy block leaves it idle and the access-error record as it was (10_state.md R52). -/
theorem completion_keeps_accessRecord {s : State} (hb : s.busy = true) :
    ∃ t, takeEvent .completion s = .next t ∧ t.busy = false ∧ t.accerr = s.accerr ∧ t.acccode = s.acccode ∧
      t.accoff = s.accoff := by
  obtain ⟨r, -, hr⟩ := completion_eq_complete s
  have same := State.complete_same s r
  exact ⟨_, (completionTurn_of_busy hb).trans hr, State.complete_busy s r, same.accerr, same.acccode, same.accoff⟩

/-- Settles O50: the read meets the busy block, or the block that the completion left idle. -/
theorem earlyReadHasTwoOutcomes : Obligations.EarlyReadHasTwoOutcomes := by
  intro s w r i off hb hi hoff
  have hread := fun u : State => windowReadReturnsTheStoredWord u r i off (by omega) hoff
  have hissue := runEvents_cons_of_next (takeEvent_issue hb w)
  refine ⟨?beforeCompletion, ?afterCompletion⟩
  case beforeCompletion =>
    obtain ⟨hbusy, -⟩ := hread ((s.issue w).respond (.write .ok))
    exact ⟨_, (hissue _).trans ((runEvents_singleton _ _).trans (hbusy rfl)), rfl, rfl, rfl, rfl⟩
  case afterCompletion =>
    obtain ⟨t, hturn, hidle, haccerr, hacccode, haccoff⟩ :=
      completion_keeps_accessRecord (s := (s.issue w).respond (.write .ok)) rfl
    obtain ⟨-, -, -, hlimb⟩ := hread t
    have hlast := (runEvents_singleton (.host (.read off 4)) t).trans (hlimb hidle hi)
    exact ⟨_, (hissue _).trans ((runEvents_cons_of_next hturn _).trans hlast), rfl, haccerr, hacccode, haccoff⟩

/-! ### The reset values (R250) -/

/-- Settles O36: the invariant of the reset state, proved with the step lemma of O35. -/
theorem resetStateMeetsTheInvariant : Obligations.ResetStateMeetsTheInvariant := State.reset_inv

theorem limb_zero (i : Nat) : NumReg.zero.limb i = 0#7 := by
  simp [NumReg.limb, NumReg.zero]

/-- Settles O39: the step takes the reset, which leaves the state of `State.reset`. -/
theorem resetClearsEverything : Obligations.ResetClearsEverything := by
  intro s rest ha
  refine ⟨_, step_of_reset ha, fun r => ?registers, rfl, rfl, rfl, rfl, rfl, rfl, rfl, rfl, rfl, rfl, rfl, rfl, rfl,
    rfl⟩
  rw [State.agenda_update_reg, State.reg_reset]
  exact ⟨zero_eq_pack, rfl, limb_zero⟩

end Sys2Proof.Machine
end
